-- ==== Sys2Proof/Word.lean ====
section
/-! DEFINITION. The word type of the Apache core (spec/00_scope.md R14, R18): a fixed-width unsigned integer, the atomic
unit of memory and registers, 8 bits on Apache-8 and 16 bits on Apache-16. -/

namespace Sys2Proof

/-- A `w`-bit word (R14): bit 0 is the least significant bit and the value is read as unsigned. -/
abbrev Word (w : Nat) := BitVec w

end Sys2Proof
end

