-- ==== Sys2Proof/Config.lean ====
section
/-! DEFINITION. The parameters of the design (spec/00_scope.md R10 to R13) and the one free value of the model. -/

namespace Sys2Proof

/-- The two variants of the design (R2). An instance of the model is one of them, never both. -/
inductive Variant where
  | a8   -- Apache-8
  | a16  -- Apache-16
  deriving DecidableEq, Repr

/-- `W`, the width of registers, pc, cir and memory words (R10). -/
def Variant.wordBits : Variant → Nat
  | .a8 => 8
  | .a16 => 16

/-- `NREG`, the number of general registers (R10). -/
def Variant.regCount : Variant → Nat
  | .a8 => 2
  | .a16 => 4

/-- `A`, the width of the address-operand field (R10). -/
def Variant.addrBits : Variant → Nat
  | .a8 => 4
  | .a16 => 10

/-- `MAXCAP`, the capacity limit checked at construction: none on Apache-8, 1024 on Apache-16 (R10, R202). -/
def Variant.maxCap : Variant → Option Nat
  | .a8 => none
  | .a16 => some 1024

/-- The capacity the model takes where the caller names none: 16 for Apache-8, the default configuration (R205); 1024
for Apache-16, whose source names only the limit. DESIGN CHOICE for Apache-16 (log 3), unsafe. -/
def Variant.defaultCap : Variant → Nat
  | .a8 => 16
  | .a16 => 1024

/-- The OPEN parameter SHIFT_BIG (spec/92_eei_decisions.md D4): what an Apache-16 shift by 16 or more gives. `zero` is
the spec's rule and default (R148, R149); `draw` is the variation D4 offers a model, a free value (log 11). -/
inductive ShiftBig where
  | zero
  | draw
  deriving DecidableEq, Repr

/-- The OPEN parameters of a machine that are fixed for its whole life. The field defaults are the spec's defaults. -/
structure Params where
  /-- IN_MAX (R180): where set, an IN value above it is a ParseError. Unset by default. -/
  inMax : Option Nat := none
  /-- SHIFT_BIG (D4, R148, R149). Zero by default. -/
  shiftBig : ShiftBig := .zero
  deriving DecidableEq, Repr

/-- FREE VALUE (log 11): the `k`-th value drawn for a shift by 16 or more where SHIFT_BIG is `draw`. It has no body, so
nothing can be proved of it. -/
opaque Config.shiftDraw : Nat → BitVec 16

end Sys2Proof
end

