-- ==== Sys2Proof/Syntax.lean ====
section
/-! DEFINITION. The instructions of both variants, one constructor per row of spec/opcode_table.json
(spec/30_encoding.md R78, R79). A field the opcode maps mark as ignored is no argument (R82). -/

namespace Sys2Proof

/-- An instruction. `addr : BitVec 4` and `addr : BitVec 10` are the address-operand fields (R71, R72); `reg : Fin 4` is
the register index of Apache-16, which selects `x[reg]` (R140). -/
inductive Instr where
  -- Apache-8, in opcode order (R78)
  | loadR0 (addr : BitVec 4)
  | storeR0 (addr : BitVec 4)
  | jumpzR0 (addr : BitVec 4)
  | addR0 (addr : BitVec 4)
  | shlR0
  | notR0
  | jump8 (addr : BitVec 4)
  | stop8
  | loadR1 (addr : BitVec 4)
  | storeR1 (addr : BitVec 4)
  | jumpzR1 (addr : BitVec 4)
  | addR1 (addr : BitVec 4)
  | shlR1
  | notR1
  | outR0
  | in8 (addr : BitVec 4)
  -- Apache-16, in opcode order (R79)
  | load (reg : Fin 4) (addr : BitVec 10)
  | store (reg : Fin 4) (addr : BitVec 10)
  | jumpz (reg : Fin 4) (addr : BitVec 10)
  | add (reg : Fin 4) (addr : BitVec 10)
  | sub (reg : Fin 4) (addr : BitVec 10)
  | mul (reg : Fin 4) (addr : BitVec 10)
  | div (reg : Fin 4) (addr : BitVec 10)
  | shr (reg : Fin 4) (count : BitVec 10)
  | shl (reg : Fin 4) (count : BitVec 10)
  | not (reg : Fin 4)
  | jump16 (addr : BitVec 10)
  | rsvd11
  | rsvd12
  | stop16
  | out (reg : Fin 4)
  | in16 (addr : BitVec 10)
  deriving DecidableEq, Repr

end Sys2Proof
end

