-- ==== Sys2Proof/WellFormed.lean ====
section
/-! DEFINITION. When an instruction is well formed for an instance of the design: it stands in the opcode map of the
instance's variant (spec/00_scope.md R2; spec/30_encoding.md R78, R79). Every operand field has the width its format
gives it by its type, so nothing else is left to check. -/

namespace Sys2Proof

/-- The variant in whose opcode map an instruction stands (R78 for Apache-8, R79 for Apache-16). -/
def Instr.variant : Instr → Variant
  | .loadR0 _ => .a8
  | .storeR0 _ => .a8
  | .jumpzR0 _ => .a8
  | .addR0 _ => .a8
  | .shlR0 => .a8
  | .notR0 => .a8
  | .jump8 _ => .a8
  | .stop8 => .a8
  | .loadR1 _ => .a8
  | .storeR1 _ => .a8
  | .jumpzR1 _ => .a8
  | .addR1 _ => .a8
  | .shlR1 => .a8
  | .notR1 => .a8
  | .outR0 => .a8
  | .in8 _ => .a8
  | .load _ _ => .a16
  | .store _ _ => .a16
  | .jumpz _ _ => .a16
  | .add _ _ => .a16
  | .sub _ _ => .a16
  | .mul _ _ => .a16
  | .div _ _ => .a16
  | .shr _ _ => .a16
  | .shl _ _ => .a16
  | .not _ => .a16
  | .jump16 _ => .a16
  | .rsvd11 => .a16
  | .rsvd12 => .a16
  | .stop16 => .a16
  | .out _ => .a16
  | .in16 _ => .a16

/-- The check: instruction `i` belongs to variant `v`. -/
def Instr.wellFormed (v : Variant) (i : Instr) : Bool := i.variant == v

end Sys2Proof
end

