-- ==== Sys2Proof/Decode.lean ====
section
/-! DEFINITION. The two decoders, the encoder, and the table decoder (spec/30_encoding.md R70 to R83). Both decoders are
total: every word is an instruction of its variant, so nothing is refused (R80). -/

namespace Sys2Proof

/-! ## Fields (R71 to R74) -/

/-- `op <- w[7:4]` (R73). -/
def opField8 (w : BitVec 8) : BitVec 4 := w.extractLsb' 4 4

/-- `addr <- w[3:0]` (R73). -/
def addrField8 (w : BitVec 8) : BitVec 4 := w.extractLsb' 0 4

/-- `op <- w[15:12]` (R74). -/
def opField16 (w : BitVec 16) : BitVec 4 := w.extractLsb' 12 4

/-- `reg <- w[11:10]` (R74). -/
def regField16 (w : BitVec 16) : Fin 4 := ⟨(w.extractLsb' 10 2).toNat, (w.extractLsb' 10 2).isLt⟩

/-- `addr <- w[9:0]` (R74). -/
def addrField16 (w : BitVec 16) : BitVec 10 := w.extractLsb' 0 10

/-! ## Decoders -/

/-- The opcode map of Apache-8 (R78), read by `op` alone (R80). The last arm is `op = 1111`. -/
def decode8 (w : BitVec 8) : Instr :=
  let addr := addrField8 w
  match opField8 w with
  | 0b0000#4 => .loadR0 addr
  | 0b0001#4 => .storeR0 addr
  | 0b0010#4 => .jumpzR0 addr
  | 0b0011#4 => .addR0 addr
  | 0b0100#4 => .shlR0
  | 0b0101#4 => .notR0
  | 0b0110#4 => .jump8 addr
  | 0b0111#4 => .stop8
  | 0b1000#4 => .loadR1 addr
  | 0b1001#4 => .storeR1 addr
  | 0b1010#4 => .jumpzR1 addr
  | 0b1011#4 => .addR1 addr
  | 0b1100#4 => .shlR1
  | 0b1101#4 => .notR1
  | 0b1110#4 => .outR0
  | _ => .in8 addr

/-- The opcode map of Apache-16 (R79), read by `op` alone (R80). The last arm is `op = 1111`. -/
def decode16 (w : BitVec 16) : Instr :=
  let reg := regField16 w
  let addr := addrField16 w
  match opField16 w with
  | 0b0000#4 => .load reg addr
  | 0b0001#4 => .store reg addr
  | 0b0010#4 => .jumpz reg addr
  | 0b0011#4 => .add reg addr
  | 0b0100#4 => .sub reg addr
  | 0b0101#4 => .mul reg addr
  | 0b0110#4 => .div reg addr
  | 0b0111#4 => .shr reg addr
  | 0b1000#4 => .shl reg addr
  | 0b1001#4 => .not reg
  | 0b1010#4 => .jump16 addr
  | 0b1011#4 => .rsvd11
  | 0b1100#4 => .rsvd12
  | 0b1101#4 => .stop16
  | 0b1110#4 => .out reg
  | _ => .in16 addr

/-! ## Encoder -/

/-- The opcode of an instruction's row in its opcode map (R78, R79). -/
def opcodeOf : Instr → BitVec 4
  | .loadR0 _ => 0b0000#4
  | .storeR0 _ => 0b0001#4
  | .jumpzR0 _ => 0b0010#4
  | .addR0 _ => 0b0011#4
  | .shlR0 => 0b0100#4
  | .notR0 => 0b0101#4
  | .jump8 _ => 0b0110#4
  | .stop8 => 0b0111#4
  | .loadR1 _ => 0b1000#4
  | .storeR1 _ => 0b1001#4
  | .jumpzR1 _ => 0b1010#4
  | .addR1 _ => 0b1011#4
  | .shlR1 => 0b1100#4
  | .notR1 => 0b1101#4
  | .outR0 => 0b1110#4
  | .in8 _ => 0b1111#4
  | .load _ _ => 0b0000#4
  | .store _ _ => 0b0001#4
  | .jumpz _ _ => 0b0010#4
  | .add _ _ => 0b0011#4
  | .sub _ _ => 0b0100#4
  | .mul _ _ => 0b0101#4
  | .div _ _ => 0b0110#4
  | .shr _ _ => 0b0111#4
  | .shl _ _ => 0b1000#4
  | .not _ => 0b1001#4
  | .jump16 _ => 0b1010#4
  | .rsvd11 => 0b1011#4
  | .rsvd12 => 0b1100#4
  | .stop16 => 0b1101#4
  | .out _ => 0b1110#4
  | .in16 _ => 0b1111#4

/-- Format F8: `op[7:4] addr[3:0]` (R71). -/
def format8 (op addr : BitVec 4) : BitVec 8 := op ++ addr

/-- Format F16: `op[15:12] reg[11:10] addr[9:0]` (R72). -/
def format16 (op : BitVec 4) (reg : Fin 4) (addr : BitVec 10) : BitVec 16 := op ++ BitVec.ofFin (w := 2) reg ++ addr

/-- The word of an Apache-8 instruction (R78), its ignored bits 0 (R84); none for an Apache-16 instruction. -/
def encode8 : Instr → Option (BitVec 8)
  | .loadR0 addr => some (format8 0b0000#4 addr)
  | .storeR0 addr => some (format8 0b0001#4 addr)
  | .jumpzR0 addr => some (format8 0b0010#4 addr)
  | .addR0 addr => some (format8 0b0011#4 addr)
  | .shlR0 => some (format8 0b0100#4 0)
  | .notR0 => some (format8 0b0101#4 0)
  | .jump8 addr => some (format8 0b0110#4 addr)
  | .stop8 => some (format8 0b0111#4 0)
  | .loadR1 addr => some (format8 0b1000#4 addr)
  | .storeR1 addr => some (format8 0b1001#4 addr)
  | .jumpzR1 addr => some (format8 0b1010#4 addr)
  | .addR1 addr => some (format8 0b1011#4 addr)
  | .shlR1 => some (format8 0b1100#4 0)
  | .notR1 => some (format8 0b1101#4 0)
  | .outR0 => some (format8 0b1110#4 0)
  | .in8 addr => some (format8 0b1111#4 addr)
  | .load _ _ => none
  | .store _ _ => none
  | .jumpz _ _ => none
  | .add _ _ => none
  | .sub _ _ => none
  | .mul _ _ => none
  | .div _ _ => none
  | .shr _ _ => none
  | .shl _ _ => none
  | .not _ => none
  | .jump16 _ => none
  | .rsvd11 => none
  | .rsvd12 => none
  | .stop16 => none
  | .out _ => none
  | .in16 _ => none

/-- The word of an Apache-16 instruction (R79), its ignored bits 0 (R84); none for an Apache-8 instruction. -/
def encode16 : Instr → Option (BitVec 16)
  | .load reg addr => some (format16 0b0000#4 reg addr)
  | .store reg addr => some (format16 0b0001#4 reg addr)
  | .jumpz reg addr => some (format16 0b0010#4 reg addr)
  | .add reg addr => some (format16 0b0011#4 reg addr)
  | .sub reg addr => some (format16 0b0100#4 reg addr)
  | .mul reg addr => some (format16 0b0101#4 reg addr)
  | .div reg addr => some (format16 0b0110#4 reg addr)
  | .shr reg count => some (format16 0b0111#4 reg count)
  | .shl reg count => some (format16 0b1000#4 reg count)
  | .not reg => some (format16 0b1001#4 reg 0)
  | .jump16 addr => some (format16 0b1010#4 0 addr)
  | .rsvd11 => some (format16 0b1011#4 0 0)
  | .rsvd12 => some (format16 0b1100#4 0 0)
  | .stop16 => some (format16 0b1101#4 0 0)
  | .out reg => some (format16 0b1110#4 reg 0)
  | .in16 addr => some (format16 0b1111#4 0 addr)
  | .loadR0 _ => none
  | .storeR0 _ => none
  | .jumpzR0 _ => none
  | .addR0 _ => none
  | .shlR0 => none
  | .notR0 => none
  | .jump8 _ => none
  | .stop8 => none
  | .loadR1 _ => none
  | .storeR1 _ => none
  | .jumpzR1 _ => none
  | .addR1 _ => none
  | .shlR1 => none
  | .notR1 => none
  | .outR0 => none
  | .in8 _ => none

/-- The words of an instruction, each as its width and its value: exactly one word (R70), of 8 bits for an Apache-8
instruction and of 16 bits for an Apache-16 instruction. -/
def encode (i : Instr) : List (Nat × Nat) :=
  match encode8 i, encode16 i with
  | some w, _ => [(8, w.toNat)]
  | none, some w => [(16, w.toNat)]
  | none, none => []

/-- The instruction read from a word of `nbits` bits: an 8-bit word by the Apache-8 decoder, a 16-bit word by the
Apache-16 decoder; no other width is an instruction of the design (R70). -/
def decodeTableWord (nbits w : Nat) : Option Instr :=
  if nbits = 8 then some (decode8 (BitVec.ofNat 8 w))
  else if nbits = 16 then some (decode16 (BitVec.ofNat 16 w))
  else none

end Sys2Proof
end

