-- ==== Sys2Proof/Machine/State.lean ====
section
/-! DEFINITION. The state of the machine as plain data (spec/10_state.md R20 to R42, spec/40_cycle.md R106, R111),
its stops, and the machine right after reset. -/

namespace Sys2Proof.Machine

/-! ## Memory -/

/-- One word of memory at a word address. On Apache-8 this is exactly the host's cell of a byte (log 4). -/
abbrev Cell (w : Nat) := Nat × BitVec w

/-- A memory of `cap` words of `w` bits (20_memory.md R45): the words that are not 0, by rising address. An address
that is not listed reads as 0, since a memory is created all zero (R58). -/
structure Memory (w : Nat) where
  /-- `CAP`, fixed at construction (R11, R45). -/
  cap : Nat
  /-- The words that are not 0, addresses strictly rising. -/
  cells : List (Cell w)
  deriving DecidableEq, Repr

/-- A memory as it is created: `cap` words, all zero (R58). -/
def Memory.create (w cap : Nat) : Memory w := { cap := cap, cells := [] }

/-! ## Fault records (60_exceptions.md R170) -/

/-- The kind of a memory access (R170). -/
inductive Access where
  | fetch
  | read
  | write
  deriving DecidableEq, Repr

/-- Where a ParseError arose: sites LOAD, IN and CONSTRUCT (R172). -/
inductive ParseSite where
  | load
  | input
  | construct
  deriving DecidableEq, Repr

/-- The four error kinds with the information each records (R170). -/
inductive FaultRecord where
  | outOfBounds (access : Access) (addr : Nat)
  | parseError (site : ParseSite)
  | arithmeticFault
  /-- Raised by nothing: both opcode maps are complete (R174). -/
  | unknownOpcode (op : BitVec 4)
  deriving DecidableEq, Repr

/-! ## Control, outcome and ports -/

/-- The control states of the fetch-decode-execute machine (40_cycle.md R106). -/
inductive Control where
  | idle
  | fetch
  | execute
  | waitIn
  | halted
  | faulted
  deriving DecidableEq, Repr

/-- What Run returns (40_cycle.md R99). -/
inductive RunOutcome where
  | halted
  | exhausted
  | faulted (f : FaultRecord)
  deriving DecidableEq, Repr

/-- An output event (60_exceptions.md R183): the prompt, or the decimal value of a word. -/
inductive Event where
  | prompt
  | value (v : Nat)
  deriving DecidableEq, Repr

/-- A line of text without its terminating newline (60_exceptions.md R180). -/
abbrev Line := List Char

/-! ## The core -/

/-- A core of word width `w` with `n` general registers: everything the spec gives the machine. `Apache 8 2` is
Apache-8 and `Apache 16 4` is Apache-16 (00_scope.md R10). -/
structure Apache (w n : Nat) where
  /-- General registers `x[0..NREG-1]` (R21, R22). -/
  x : Vector (BitVec w) n
  /-- Program counter (R25). -/
  pc : BitVec w
  /-- Current instruction register (R30). -/
  cir : BitVec w
  /-- Halt flag (R32). -/
  halt : Bool
  /-- Fault status: NONE or one fault record (R35). -/
  status : Option FaultRecord
  /-- Cycles the current Run may still execute (R36). -/
  budget : Nat
  /-- The memory the core references (R37). -/
  mem : Memory w
  /-- Control state (40_cycle.md R106). -/
  ctl : Control
  /-- What the last Run returned on the `outcome` port (40_cycle.md R99, R111); none while there is nothing (log 9). -/
  outcome : Option RunOutcome
  /-- The lines the input source has delivered so far, the consumed ones among them (R38). -/
  input : List Line
  /-- The position reached in the input line stream: how many lines IN has consumed (R38). -/
  inPos : Nat
  /-- The output events emitted so far, oldest first (R38). -/
  output : List Event
  /-- The OPEN parameters of the machine, never changed (log 10, log 11). -/
  params : Params
  /-- The MODEL's own counter of free values drawn (log 11). -/
  draws : Nat
  deriving DecidableEq, Repr

/-- A freshly constructed core over a memory (10_state.md R41, 70_reset_and_hazards.md R200): everything 0 or NONE and
the control state IDLE. The ports are attached empty (log 14). -/
def Apache.fresh (w n : Nat) (mem : Memory w) (params : Params) : Apache w n where
  x := Vector.replicate n 0
  pc := 0
  cir := 0
  halt := false
  status := none
  budget := 0
  mem := mem
  ctl := .idle
  outcome := none
  input := []
  inPos := 0
  output := []
  params := params
  draws := 0

/-- An instance of the design is an Apache-8 or an Apache-16, never both (00_scope.md R2). -/
inductive Instance where
  | a8 (m : Apache 8 2)
  | a16 (m : Apache 16 4)
  deriving DecidableEq, Repr

/-- The state of the machine: one instance of the design (R2, R20). -/
structure State where
  inst : Instance
  deriving DecidableEq, Repr

/-! ## Stops -/

/-- Why a step stops with a fault. The errors of a running core are NOT here: the spec describes their entry (R175), so
they are taken, with a next state whose `status` holds the record (log 1). -/
inductive Fault where
  /-- Raised by `step` for an Apache-16 state whose memory has more than 1024 words: construction fails with
  ParseError(CONSTRUCT), so there is no core and no instruction executes (70_reset_and_hazards.md R202). Safe: the model
  stops where the spec says nothing runs (log 13). -/
  | constructionFailed
  deriving DecidableEq, Repr

/-- Why an instruction has no meaning in a state. -/
inductive Refusal where
  /-- An instruction that has no meaning yet: the arms of `exec` alone answer it. Safe. -/
  | notModelled (mnemonic : String)
  /-- Answered by a meaning for an instruction of the other variant's opcode map, which an instance does not have
  (00_scope.md R2). No step answers it: a word is decoded by its own variant's decoder. Safe (log 12). -/
  | otherVariant
  deriving DecidableEq, Repr

/-! ## Reset -/

/-- The machine right after reset: the default configuration, an Apache-8 over a memory of 16 words, all zero
(70_reset_and_hazards.md R200, R205; 10_state.md R41). DESIGN CHOICE of the configuration (log 2). -/
def State.reset : State :=
  ⟨.a8 (Apache.fresh 8 2 (Memory.create 8 (Variant.defaultCap .a8)) {})⟩

end Sys2Proof.Machine
end

