-- ==== Sys2Proof/Machine/Ops.lean ====
section
/-! DEFINITION. The named operations over the memory, the registers, the fault status, the ports and the cycle
(spec/00_scope.md R15; spec/20_memory.md R48 to R53; spec/40_cycle.md R93 to R98; spec/60_exceptions.md R175 to R183). -/

namespace Sys2Proof.Machine

/-! ## Memory: the address decoder and the read and write control -/

/-- The address decoder: `valid(a) = (a < CAP)` (R48), the `mem_valid` signal of R111. `Capacity()` (R49) is the field
`cap`. -/
abbrev Memory.valid {w : Nat} (mem : Memory w) (a : Nat) : Prop := a < mem.cap

/-- The word listed at address `a`, 0 where none is (R58). -/
def lookupCell {w : Nat} : List (Cell w) → Nat → BitVec w
  | [], _ => 0
  | (b, v) :: rest, a => if b = a then v else lookupCell rest a

/-- The word `M[a]`. -/
def Memory.read {w : Nat} (mem : Memory w) (a : Nat) : BitVec w := lookupCell mem.cells a

/-- The list entry for word `v` at address `a`: none for the value an unlisted address reads as. -/
def cellFor {w : Nat} (a : Nat) (v : BitVec w) : List (Cell w) := if v = 0 then [] else [(a, v)]

/-- `M[a] <- v`, in the canonical form of the list. -/
def Memory.put {w : Nat} (mem : Memory w) (a : Nat) (v : BitVec w) : Memory w :=
  { mem with cells := mem.cells.filter (fun c => c.1 < a) ++ (cellFor a v ++ mem.cells.filter (fun c => a < c.1)) }

/-- The canonical form: addresses strictly rising and below the capacity, no entry equal to what an unlisted address
reads as. Equal memories are then equal data. -/
abbrev Memory.wf {w : Nat} (mem : Memory w) : Prop :=
  mem.cells.Pairwise (fun c d => c.1 < d.1) ∧ ∀ c ∈ mem.cells, c.2 ≠ 0 ∧ c.1 < mem.cap

/-- Read control, `MemRead(a, 1)` (R50); the caller gives the access kind. -/
def Memory.get {w : Nat} (mem : Memory w) (access : Access) (a : Nat) : Except FaultRecord (BitVec w) :=
  if mem.valid a then .ok (mem.read a) else .error (.outOfBounds access a)

/-- Write control, `MemWrite(a, 1, v)` (R51). -/
def Memory.set {w : Nat} (mem : Memory w) (a : Nat) (v : BitVec w) : Except FaultRecord (Memory w) :=
  if mem.valid a then .ok (mem.put a v) else .error (.outOfBounds .write a)

/-! ## Registers -/

/-- `x[r]` (R15). -/
def Apache.readReg {w n : Nat} (m : Apache w n) (r : Fin n) : BitVec w := m.x[r]

/-- `x[r] <- v` (R15). -/
def Apache.writeReg {w n : Nat} (m : Apache w n) (r : Fin n) (v : BitVec w) : Apache w n :=
  { m with x := m.x.set r v }

/-- `pc <- target` (R15, R27). -/
def Apache.setPc {w n : Nat} (m : Apache w n) (target : BitVec w) : Apache w n := { m with pc := target }

/-! ## Taking a fault

The spec has no handler and no return (R175, R178): `status` takes the record, the core enters FAULTED, Run returns
FAULTED(F), and nothing else changes. Only reset leaves FAULTED (`Apache.reset` in Machine/Run.lean). -/

/-- Fault entry (R175). -/
def Apache.raise {w n : Nat} (f : FaultRecord) (m : Apache w n) : Apache w n :=
  { m with status := some f, ctl := .faulted, outcome := some (.faulted f) }

/-- The code of an error kind (R170). -/
def FaultRecord.code : FaultRecord → Nat
  | .outOfBounds _ _ => 1
  | .parseError _ => 2
  | .arithmeticFault => 3
  | .unknownOpcode _ => 4

/-! ## Output port -/

/-- An event on the output sink: `Prompt()` is `emit .prompt` (R181), `Emit(v)` is `emit (.value v.toNat)` (R182). -/
def Apache.emit {w n : Nat} (e : Event) (m : Apache w n) : Apache w n := { m with output := m.output ++ [e] }

/-! ## The cycle around an instruction -/

/-- Run returns outcome `o` and the control state becomes `c` (R107). -/
def Apache.endRun {w n : Nat} (c : Control) (o : RunOutcome) (m : Apache w n) : Apache w n :=
  { m with ctl := c, outcome := some o }

/-- The increment: `pc <- trunc_W(pc + 1)` (R27, R95). -/
def nextPc {w : Nat} (pc : BitVec w) : BitVec w := BitVec.ofNat w (pc.toNat + 1)

/-- Fetch and increment (R94, R95): through the address decoder with access kind FETCH. -/
def Apache.fetch {w n : Nat} (m : Apache w n) : Apache w n :=
  match m.mem.get .fetch m.pc.toNat with
  | .ok word => { m with cir := word, pc := nextPc m.pc, ctl := .execute }
  | .error f => m.raise f

/-- The FETCH rows of R107: test `halt`, then `budget`, then fetch. -/
def Apache.beginCycle {w n : Nat} (m : Apache w n) : Apache w n :=
  if m.halt then m.endRun .halted .halted
  else if m.budget = 0 then m.endRun .idle .exhausted
  else m.fetch

/-- After the handler (R98, R107): a handler that completed leaves the core in EXECUTE, so the cycle is counted and the
core returns to FETCH; one that raised a fault or waits for input is not counted. -/
def Apache.endCycle {w n : Nat} (m : Apache w n) : Apache w n :=
  match m.ctl with
  | .execute => { m with budget := m.budget - 1, ctl := .fetch }
  | .idle => m
  | .fetch => m
  | .waitIn => m
  | .halted => m
  | .faulted => m

/-! ## The two variants under one state -/

/-- An operation of the shared structure, applied to whichever variant the state holds (R2). -/
def State.lift (f : (w n : Nat) → Apache w n → Apache w n) (s : State) : State :=
  match s.inst with
  | .a8 m => ⟨.a8 (f 8 2 m)⟩
  | .a16 m => ⟨.a16 (f 16 4 m)⟩

/-- The variant of an instance (R2). -/
def State.variant (s : State) : Variant :=
  match s.inst with
  | .a8 _ => .a8
  | .a16 _ => .a16

/-- The control state of an instance. -/
def State.ctl (s : State) : Control :=
  match s.inst with
  | .a8 m => m.ctl
  | .a16 m => m.ctl

/-- The capacity of an instance's memory. -/
def State.cap (s : State) : Nat :=
  match s.inst with
  | .a8 m => m.mem.cap
  | .a16 m => m.mem.cap

/-- What construction checks (R202): the capacity is within the variant's limit, if it has one. -/
def withinMaxCap (v : Variant) (cap : Nat) : Bool :=
  match v.maxCap with
  | none => true
  | some limit => decide (cap ≤ limit)

/-- The state is one that construction accepts (R202). -/
def State.constructed (s : State) : Bool := withinMaxCap s.variant s.cap

/-- The meaning of an Apache-8 instruction: its handler on an Apache-8, which always gives a next state (a fault is
taken, R175). An Apache-16 does not have the instruction (R2). -/
def onApache8 (f : Apache 8 2 → Apache 8 2) (s : State) : Host.Outcome State Fault Refusal :=
  match s.inst with
  | .a8 m => .next ⟨.a8 (f m)⟩
  | .a16 _ => .refused .otherVariant

/-- The meaning of an Apache-16 instruction: its handler on an Apache-16. An Apache-8 does not have it (R2). -/
def onApache16 (f : Apache 16 4 → Apache 16 4) (s : State) : Host.Outcome State Fault Refusal :=
  match s.inst with
  | .a8 _ => .refused .otherVariant
  | .a16 m => .next ⟨.a16 (f m)⟩

end Sys2Proof.Machine
end

