-- ==== Sys2Proof/Machine/Flags.lean ====
section
/-! DEFINITION. The flags. The core has no condition codes (spec/10_state.md R34): its one flag is `halt` (R32), and
JUMPZ tests the selected register directly. -/

namespace Sys2Proof.Machine

/-- `halt <- 1`, what STOP does (R32). -/
def Apache.setHalt {w n : Nat} (m : Apache w n) : Apache w n := { m with halt := true }

/-- The only condition of the design: the word is zero (R34). -/
def isZero {w : Nat} (v : BitVec w) : Bool := v == 0

end Sys2Proof.Machine
end

