-- ==== Sys2Proof/Machine/Alu.lean ====
section
/-! DEFINITION. The arithmetic of both variants (spec/00_scope.md R17; spec/41_apache8.md R136; spec/42_apache16.md
R157): the exact result on unbounded integers, then `trunc_W`. Nothing is signed. -/

namespace Sys2Proof.Machine

/-- `trunc_W(v) = v mod 2^W` (R15). -/
def trunc (w v : Nat) : BitVec w := BitVec.ofNat w v

/-- `trunc_W(a + b)` (R123, R144). -/
def aluAdd {w : Nat} (a b : BitVec w) : BitVec w := trunc w (a.toNat + b.toNat)

/-- `trunc_W(a - b)`, the non-negative remainder (R14, R145). -/
def aluSub {w : Nat} (a b : BitVec w) : BitVec w := BitVec.ofInt w ((a.toNat : Int) - (b.toNat : Int))

/-- `trunc_W(a * b)` (R146). -/
def aluMul {w : Nat} (a b : BitVec w) : BitVec w := trunc w (a.toNat * b.toNat)

/-- `a div b`, the unsigned quotient rounded toward zero, used for `b ≠ 0` only (R17, R147). -/
def aluDiv {w : Nat} (a b : BitVec w) : BitVec w := trunc w (a.toNat / b.toNat)

/-- `trunc_W(a << k)`: zeros enter at bit 0, the result is 0 from `k = W` on (R17, R124, R149). -/
def aluShl {w : Nat} (a : BitVec w) (k : Nat) : BitVec w := if k < w then trunc w (a.toNat * 2 ^ k) else 0

/-- `a >> k = floor(a / 2^k)`, a logical shift: zeros enter at the top bit, the result is 0 from `k = W` on (R17,
R148). -/
def aluShr {w : Nat} (a : BitVec w) (k : Nat) : BitVec w := if k < w then trunc w (a.toNat / 2 ^ k) else 0

/-- `~_W(a) = 2^W - 1 - a` (R17, R125, R150). -/
def aluNot {w : Nat} (a : BitVec w) : BitVec w := trunc w (2 ^ w - 1 - a.toNat)

end Sys2Proof.Machine
end

