-- ==== Sys2Proof/Machine/Operands.lean ====
section
/-! DEFINITION. The operand forms (spec/30_encoding.md R75, R76): a memory word address that is read, one that is
written, a jump target, a shift count. An ignored field is no operand (R82). -/

namespace Sys2Proof.Machine

/-- A memory word address: the field's unsigned value, neither scaled nor extended (R75, R76). -/
def wordAddress {k : Nat} (addr : BitVec k) : Nat := addr.toNat

/-- A jump target: `zext_W(addr)` (R75, R76). -/
def jumpTarget {k : Nat} (w : Nat) (addr : BitVec k) : BitVec w := BitVec.ofNat w addr.toNat

/-- A shift count 0 to 1023 (R76). -/
def shiftCount (count : BitVec 10) : Nat := count.toNat

/-- An operand read from memory: `MemRead(a, 1)` with access kind READ (R50), then the rest of the handler; out of
bounds raises the fault and runs nothing more (R16). -/
def Apache.withOperand {w n : Nat} (a : Nat) (rest : BitVec w → Apache w n → Apache w n) (m : Apache w n) : Apache w n :=
  match m.mem.get .read a with
  | .ok v => rest v m
  | .error f => m.raise f

/-- An operand written to memory: `MemWrite(a, 1, v)` (R51); out of bounds raises the fault and changes no word. -/
def Apache.storeOperand {w n : Nat} (a : Nat) (v : BitVec w) (m : Apache w n) : Apache w n :=
  match m.mem.set a v with
  | .ok mem => { m with mem := mem }
  | .error f => m.raise f

end Sys2Proof.Machine
end

