-- ==== Sys2Proof/Machine/Ports.lean ====
section
/-! DEFINITION. The input and output ports used by IN and OUT (spec/60_exceptions.md R180 to R183). -/

namespace Sys2Proof.Machine

/-! ## Numerals -/

/-- The value of a decimal digit, the characters `0` to `9` (R61, R180). -/
def digitValue (c : Char) : Option Nat :=
  if 48 ≤ c.toNat ∧ c.toNat ≤ 57 then some (c.toNat - 48) else none

/-- The decimal value of a line of digits that follow digits of value `acc`; none at the first other character. -/
def decimalFrom : Nat → Line → Option Nat
  | acc, [] => some acc
  | acc, c :: cs =>
    match digitValue c with
    | some d => decimalFrom (10 * acc + d) cs
    | none => none

/-- `ParseDecimal(line)` without the IN_MAX check: a line is accepted when it is non-empty and holds only the characters
`0` to `9` (R180). -/
def parseDecimal (line : Line) : Option Nat :=
  if line = [] then none else decimalFrom 0 line

/-- `ParseDecimal(line)` with the OPEN parameter IN_MAX (R180). -/
def acceptLine (params : Params) (line : Line) : Except FaultRecord Nat :=
  match parseDecimal line with
  | none => .error (.parseError .input)
  | some v =>
    match params.inMax with
    | none => .ok v
    | some limit => if v ≤ limit then .ok v else .error (.parseError .input)

/-- The character of a decimal digit. -/
def digitChar (d : Nat) : Char := Char.ofNat (48 + d)

/-- The decimal digits of `v`, most significant first, no leading zeros, `fuel` bounding their number. -/
def decimalDigits : Nat → Nat → Line
  | 0, v => [digitChar (v % 10)]
  | fuel + 1, v => if v < 10 then [digitChar v] else decimalDigits fuel (v / 10) ++ [digitChar (v % 10)]

/-- The decimal representation of a number: no sign, no leading zeros, no padding; 0 is `0` (R182). -/
def decimalText (v : Nat) : Line := decimalDigits v v

/-! ## Output text -/

/-- The text of one event on the sink: `> ` for PROMPT (R181), the decimal value and a newline for VALUE (R182). -/
def Event.text : Event → List Char
  | .prompt => ['>', ' ']
  | .value v => decimalText v ++ ['\n']

/-- The text of a run's output on the sink (R183). -/
def sinkText (events : List Event) : List Char := events.flatMap Event.text

/-- The values an event list carries: the sense of "output" in the source's scenarios (R183). -/
def outputValues (events : List Event) : List Nat :=
  events.filterMap fun e =>
    match e with
    | .prompt => none
    | .value v => some v

/-! ## IN after its prompt -/

/-- WAIT_IN (R107, R180): with a line available, consume it, parse it, store its truncated value at `a`; with none,
wait, everything unchanged (R105, R189). Called with the core in EXECUTE. -/
def Apache.resumeIn {w n : Nat} (a : Nat) (m : Apache w n) : Apache w n :=
  match m.input[m.inPos]? with
  | none => { m with ctl := .waitIn }
  | some line =>
    let consumed := { m with inPos := m.inPos + 1 }
    match acceptLine m.params line with
    | .ok v => consumed.storeOperand a (trunc w v)
    | .error f => consumed.raise f

end Sys2Proof.Machine
end

