-- ==== Sys2Proof/Machine/Handlers.lean ====
section
/-! DEFINITION. The handlers both variants share, one per operation, written once over the word width and the register
count. A handler runs after the fetch and the increment (spec/40_cycle.md R97): it leaves the control state at EXECUTE
when it completes, takes a fault, or waits for input. -/

namespace Sys2Proof.Machine

/-- `x[r] <- MemRead(a, 1)` (R120, R141). -/
def Apache.load {w n : Nat} (r : Fin n) (a : Nat) (m : Apache w n) : Apache w n :=
  m.withOperand a fun v m => m.writeReg r v

/-- `MemWrite(a, 1, x[r])` (R121, R142). -/
def Apache.store {w n : Nat} (r : Fin n) (a : Nat) (m : Apache w n) : Apache w n :=
  m.storeOperand a (m.readReg r)

/-- `if x[r] = 0 then pc <- target` (R122, R143). -/
def Apache.jumpz {w n : Nat} (r : Fin n) (target : BitVec w) (m : Apache w n) : Apache w n :=
  if isZero (m.readReg r) then m.setPc target else m

/-- `x[r] <- trunc_W(x[r] + MemRead(a, 1))` (R123, R144). -/
def Apache.add {w n : Nat} (r : Fin n) (a : Nat) (m : Apache w n) : Apache w n :=
  m.withOperand a fun v m => m.writeReg r (aluAdd (m.readReg r) v)

/-- `x[r] <- trunc_W(x[r] - MemRead(a, 1))` (R145). -/
def Apache.sub {w n : Nat} (r : Fin n) (a : Nat) (m : Apache w n) : Apache w n :=
  m.withOperand a fun v m => m.writeReg r (aluSub (m.readReg r) v)

/-- `x[r] <- trunc_W(x[r] * MemRead(a, 1))` (R146). -/
def Apache.mul {w n : Nat} (r : Fin n) (a : Nat) (m : Apache w n) : Apache w n :=
  m.withOperand a fun v m => m.writeReg r (aluMul (m.readReg r) v)

/-- The operand read, then the zero test, then `x[r] <- x[r] div d` (R147, R177). -/
def Apache.div {w n : Nat} (r : Fin n) (a : Nat) (m : Apache w n) : Apache w n :=
  m.withOperand a fun d m =>
    if isZero d then m.raise .arithmeticFault else m.writeReg r (aluDiv (m.readReg r) d)

/-- `x[r] <- trunc_W(x[r] << k)`: the SHL of Apache-8, with `k = 1` (R124). -/
def Apache.shlBy {w n : Nat} (r : Fin n) (k : Nat) (m : Apache w n) : Apache w n :=
  m.writeReg r (aluShl (m.readReg r) k)

/-- The result `v` of an Apache-16 shift of `x[r]` by `k` (R148, R149): written as it is, which is 0 for `k ≥ 16`,
unless SHIFT_BIG is `draw` and `k ≥ 16`: then the result is a free value (D4, log 11). -/
def Apache.writeShift (r : Fin 4) (k : Nat) (v : BitVec 16) (m : Apache 16 4) : Apache 16 4 :=
  match m.params.shiftBig with
  | .zero => m.writeReg r v
  | .draw =>
    if k < 16 then m.writeReg r v
    else { m.writeReg r (Config.shiftDraw m.draws) with draws := m.draws + 1 }

/-- The SHR of Apache-16 (R148). -/
def Apache.shr (r : Fin 4) (k : Nat) (m : Apache 16 4) : Apache 16 4 :=
  m.writeShift r k (aluShr (m.readReg r) k)

/-- The SHL of Apache-16 (R149). -/
def Apache.shl (r : Fin 4) (k : Nat) (m : Apache 16 4) : Apache 16 4 :=
  m.writeShift r k (aluShl (m.readReg r) k)

/-- `x[r] <- ~_W(x[r])` (R125, R150). -/
def Apache.complement {w n : Nat} (r : Fin n) (m : Apache w n) : Apache w n :=
  m.writeReg r (aluNot (m.readReg r))

/-- `pc <- target` (R126, R151). -/
def Apache.jump {w n : Nat} (target : BitVec w) (m : Apache w n) : Apache w n := m.setPc target

/-- `halt <- 1` (R127, R154). -/
def Apache.stop {w n : Nat} (m : Apache w n) : Apache w n := m.setHalt

/-- `Emit(x[r])` (R134, R155). -/
def Apache.out {w n : Nat} (r : Fin n) (m : Apache w n) : Apache w n := m.emit (.value (m.readReg r).toNat)

/-- `Prompt()`, then the line, the parse and the store (R135, R156). -/
def Apache.inTo {w n : Nat} (a : Nat) (m : Apache w n) : Apache w n := (m.emit .prompt).resumeIn a

end Sys2Proof.Machine
end

