-- ==== Sys2Proof/Machine/Apache16.lean ====
section
/-! DEFINITION. The meanings of the Apache-16 instructions (spec/42_apache16.md), one definition per instruction. `addr` is the
address-operand field; an instruction of the other variant is refused by name (log 12). -/

namespace Sys2Proof.Machine

/-- LOAD Rx: `x[reg] <- MemRead(addr, 1)` (R141). -/
def execLoad (reg : Fin 4) (addr : BitVec 10) (s : State) : Host.Outcome State Fault Refusal :=
  onApache16 (fun m => m.load reg (wordAddress addr)) s

/-- STORE Rx: `MemWrite(addr, 1, x[reg])` (R142). -/
def execStore (reg : Fin 4) (addr : BitVec 10) (s : State) : Host.Outcome State Fault Refusal :=
  onApache16 (fun m => m.store reg (wordAddress addr)) s

/-- JUMPZ Rx: `if x[reg] = 0 then pc <- zext_16(addr)` (R143). -/
def execJumpz (reg : Fin 4) (addr : BitVec 10) (s : State) : Host.Outcome State Fault Refusal :=
  onApache16 (fun m => m.jumpz reg (jumpTarget 16 addr)) s

/-- ADD Rx: `x[reg] <- trunc_16(x[reg] + MemRead(addr, 1))` (R144). -/
def execAdd (reg : Fin 4) (addr : BitVec 10) (s : State) : Host.Outcome State Fault Refusal :=
  onApache16 (fun m => m.add reg (wordAddress addr)) s

/-- SUB Rx: `x[reg] <- trunc_16(x[reg] - MemRead(addr, 1))` (R145). -/
def execSub (reg : Fin 4) (addr : BitVec 10) (s : State) : Host.Outcome State Fault Refusal :=
  onApache16 (fun m => m.sub reg (wordAddress addr)) s

/-- MUL Rx: `x[reg] <- trunc_16(x[reg] * MemRead(addr, 1))` (R146). -/
def execMul (reg : Fin 4) (addr : BitVec 10) (s : State) : Host.Outcome State Fault Refusal :=
  onApache16 (fun m => m.mul reg (wordAddress addr)) s

/-- DIV Rx: `x[reg] <- x[reg] div MemRead(addr, 1)`; a zero divisor raises ArithmeticFault (R147). -/
def execDiv (reg : Fin 4) (addr : BitVec 10) (s : State) : Host.Outcome State Fault Refusal :=
  onApache16 (fun m => m.div reg (wordAddress addr)) s

/-- SHR Rx: `x[reg] <- x[reg] >> count`, logical (R148). -/
def execShr (reg : Fin 4) (count : BitVec 10) (s : State) : Host.Outcome State Fault Refusal :=
  onApache16 (fun m => m.shr reg (shiftCount count)) s

/-- SHL Rx: `x[reg] <- trunc_16(x[reg] << count)` (R149). -/
def execShl (reg : Fin 4) (count : BitVec 10) (s : State) : Host.Outcome State Fault Refusal :=
  onApache16 (fun m => m.shl reg (shiftCount count)) s

/-- NOT Rx: `x[reg] <- ~_16(x[reg])` (R150). -/
def execNot (reg : Fin 4) (s : State) : Host.Outcome State Fault Refusal :=
  onApache16 (fun m => m.complement reg) s

/-- JUMP: `pc <- zext_16(addr)` (R151). -/
def execJump16 (addr : BitVec 10) (s : State) : Host.Outcome State Fault Refusal :=
  onApache16 (fun m => m.jump (jumpTarget 16 addr)) s

/-- Reserved opcode 1011: a no-op, only the fetch's effects (R152). -/
def execRsvd11 (s : State) : Host.Outcome State Fault Refusal :=
  onApache16 (fun m => m) s

/-- Reserved opcode 1100: a no-op, only the fetch's effects (R153). -/
def execRsvd12 (s : State) : Host.Outcome State Fault Refusal :=
  onApache16 (fun m => m) s

/-- STOP: `halt <- 1` (R154). -/
def execStop16 (s : State) : Host.Outcome State Fault Refusal :=
  onApache16 (fun m => m.stop) s

/-- OUT Rx: `Emit(x[reg])` (R155). -/
def execOut (reg : Fin 4) (s : State) : Host.Outcome State Fault Refusal :=
  onApache16 (fun m => m.out reg) s

/-- IN: `Prompt()`, read a line, parse it, `MemWrite(addr, 1, trunc_16(v))` (R156). -/
def execIn16 (addr : BitVec 10) (s : State) : Host.Outcome State Fault Refusal :=
  onApache16 (fun m => m.inTo (wordAddress addr)) s

end Sys2Proof.Machine
end

