-- ==== Sys2Proof/Machine/Apache8.lean ====
section
/-! DEFINITION. The meanings of the Apache-8 instructions (spec/41_apache8.md), one definition per instruction. `addr` is the
address-operand field; an instruction of the other variant is refused by name (log 12). -/

namespace Sys2Proof.Machine

/-- LOAD R0: `x[0] <- MemRead(addr, 1)` (R120). -/
def execLoadR0 (addr : BitVec 4) (s : State) : Host.Outcome State Fault Refusal :=
  onApache8 (fun m => m.load 0 (wordAddress addr)) s

/-- STORE R0: `MemWrite(addr, 1, x[0])` (R121). -/
def execStoreR0 (addr : BitVec 4) (s : State) : Host.Outcome State Fault Refusal :=
  onApache8 (fun m => m.store 0 (wordAddress addr)) s

/-- JUMPZ R0: `if x[0] = 0 then pc <- zext_8(addr)` (R122). -/
def execJumpzR0 (addr : BitVec 4) (s : State) : Host.Outcome State Fault Refusal :=
  onApache8 (fun m => m.jumpz 0 (jumpTarget 8 addr)) s

/-- ADD R0: `x[0] <- trunc_8(x[0] + MemRead(addr, 1))` (R123). -/
def execAddR0 (addr : BitVec 4) (s : State) : Host.Outcome State Fault Refusal :=
  onApache8 (fun m => m.add 0 (wordAddress addr)) s

/-- SHL R0: `x[0] <- trunc_8(x[0] << 1)` (R124). -/
def execShlR0 (s : State) : Host.Outcome State Fault Refusal :=
  onApache8 (fun m => m.shlBy 0 1) s

/-- NOT R0: `x[0] <- ~_8(x[0])` (R125). -/
def execNotR0 (s : State) : Host.Outcome State Fault Refusal :=
  onApache8 (fun m => m.complement 0) s

/-- JUMP: `pc <- zext_8(addr)` (R126). -/
def execJump8 (addr : BitVec 4) (s : State) : Host.Outcome State Fault Refusal :=
  onApache8 (fun m => m.jump (jumpTarget 8 addr)) s

/-- STOP: `halt <- 1` (R127). -/
def execStop8 (s : State) : Host.Outcome State Fault Refusal :=
  onApache8 (fun m => m.stop) s

/-- LOAD R1: `x[1] <- MemRead(addr, 1)` (R128). -/
def execLoadR1 (addr : BitVec 4) (s : State) : Host.Outcome State Fault Refusal :=
  onApache8 (fun m => m.load 1 (wordAddress addr)) s

/-- STORE R1: `MemWrite(addr, 1, x[1])` (R129). -/
def execStoreR1 (addr : BitVec 4) (s : State) : Host.Outcome State Fault Refusal :=
  onApache8 (fun m => m.store 1 (wordAddress addr)) s

/-- JUMPZ R1: `if x[1] = 0 then pc <- zext_8(addr)` (R130). -/
def execJumpzR1 (addr : BitVec 4) (s : State) : Host.Outcome State Fault Refusal :=
  onApache8 (fun m => m.jumpz 1 (jumpTarget 8 addr)) s

/-- ADD R1: `x[1] <- trunc_8(x[1] + MemRead(addr, 1))` (R131). -/
def execAddR1 (addr : BitVec 4) (s : State) : Host.Outcome State Fault Refusal :=
  onApache8 (fun m => m.add 1 (wordAddress addr)) s

/-- SHL R1: `x[1] <- trunc_8(x[1] << 1)` (R132). -/
def execShlR1 (s : State) : Host.Outcome State Fault Refusal :=
  onApache8 (fun m => m.shlBy 1 1) s

/-- NOT R1: `x[1] <- ~_8(x[1])` (R133). -/
def execNotR1 (s : State) : Host.Outcome State Fault Refusal :=
  onApache8 (fun m => m.complement 1) s

/-- OUT R0: `Emit(x[0])` (R134). -/
def execOutR0 (s : State) : Host.Outcome State Fault Refusal :=
  onApache8 (fun m => m.out 0) s

/-- IN: `Prompt()`, read a line, parse it, `MemWrite(addr, 1, trunc_8(v))` (R135). -/
def execIn8 (addr : BitVec 4) (s : State) : Host.Outcome State Fault Refusal :=
  onApache8 (fun m => m.inTo (wordAddress addr)) s

end Sys2Proof.Machine
end

