-- ==== Sys2Proof/Machine/Dispatch.lean ====
section
/-! DEFINITION. The instruction table: one arm per constructor of Instr, each one call of its meaning (spec/40_cycle.md R97). -/

namespace Sys2Proof.Machine

def exec (i : Instr) (s : State) : Host.Outcome State Fault Refusal :=
  match i with
  | .loadR0 addr => Sys2Proof.Machine.execLoadR0 addr s
  | .storeR0 addr => Sys2Proof.Machine.execStoreR0 addr s
  | .jumpzR0 addr => Sys2Proof.Machine.execJumpzR0 addr s
  | .addR0 addr => Sys2Proof.Machine.execAddR0 addr s
  | .shlR0 => Sys2Proof.Machine.execShlR0 s
  | .notR0 => Sys2Proof.Machine.execNotR0 s
  | .jump8 addr => Sys2Proof.Machine.execJump8 addr s
  | .stop8 => Sys2Proof.Machine.execStop8 s
  | .loadR1 addr => Sys2Proof.Machine.execLoadR1 addr s
  | .storeR1 addr => Sys2Proof.Machine.execStoreR1 addr s
  | .jumpzR1 addr => Sys2Proof.Machine.execJumpzR1 addr s
  | .addR1 addr => Sys2Proof.Machine.execAddR1 addr s
  | .shlR1 => Sys2Proof.Machine.execShlR1 s
  | .notR1 => Sys2Proof.Machine.execNotR1 s
  | .outR0 => Sys2Proof.Machine.execOutR0 s
  | .in8 addr => Sys2Proof.Machine.execIn8 addr s
  | .load reg addr => Sys2Proof.Machine.execLoad reg addr s
  | .store reg addr => Sys2Proof.Machine.execStore reg addr s
  | .jumpz reg addr => Sys2Proof.Machine.execJumpz reg addr s
  | .add reg addr => Sys2Proof.Machine.execAdd reg addr s
  | .sub reg addr => Sys2Proof.Machine.execSub reg addr s
  | .mul reg addr => Sys2Proof.Machine.execMul reg addr s
  | .div reg addr => Sys2Proof.Machine.execDiv reg addr s
  | .shr reg count => Sys2Proof.Machine.execShr reg count s
  | .shl reg count => Sys2Proof.Machine.execShl reg count s
  | .not reg => Sys2Proof.Machine.execNot reg s
  | .jump16 addr => Sys2Proof.Machine.execJump16 addr s
  | .rsvd11 => Sys2Proof.Machine.execRsvd11 s
  | .rsvd12 => Sys2Proof.Machine.execRsvd12 s
  | .stop16 => Sys2Proof.Machine.execStop16 s
  | .out reg => Sys2Proof.Machine.execOut reg s
  | .in16 addr => Sys2Proof.Machine.execIn16 addr s

end Sys2Proof.Machine
end

