-- ==== Sys2Proof/Machine/Cycle.lean ====
section
/-! DEFINITION. One cycle of the fetch-decode-execute machine (spec/40_cycle.md R92 to R98, R107, R108): what Step.lean
puts together. -/

namespace Sys2Proof.Machine

/-- Decode (R96): the instruction `cir` holds, by the decoder of the instance's variant (R73, R74). -/
def State.decoded (s : State) : Instr :=
  match s.inst with
  | .a8 m => decode8 m.cir
  | .a16 m => decode16 m.cir

/-- EXECUTE (R97, R98): run the handler of the instruction in `cir`, then end the cycle. -/
def State.runHandler (s : State) : Host.Outcome State Fault Refusal :=
  match exec s.decoded s with
  | .next t => .next (t.lift fun _ _ m => m.endCycle)
  | .fault r => .fault r
  | .refused r => .refused r

/-- FETCH (R93, R107): the loop tests, the fetch, and, when a word was fetched, its handler, in one step. -/
def State.runCycle (s : State) : Host.Outcome State Fault Refusal :=
  let t := s.lift fun _ _ m => m.beginCycle
  match t.ctl with
  | .execute => t.runHandler
  | .idle => .next t
  | .fetch => .next t
  | .waitIn => .next t
  | .halted => .next t
  | .faulted => .next t

/-- Take the waiting IN up again: the handler continues in EXECUTE. -/
def Apache.wake {w n : Nat} (m : Apache w n) : Apache w n := { m with ctl := .execute }

/-- WAIT_IN (R107): the IN of the word in `cir` goes on, its address recomputed from `cir` (R113). -/
def State.runWaiting (s : State) : State :=
  match s.inst with
  | .a8 m => ⟨.a8 (m.wake.resumeIn (wordAddress (addrField8 m.cir))).endCycle⟩
  | .a16 m => ⟨.a16 (m.wake.resumeIn (wordAddress (addrField16 m.cir))).endCycle⟩

/-- One step of a constructed core, by its control state (R107). IDLE, HALTED and FAULTED have no transition of their
own: only the caller's Run or reset moves them (R100, R101, R103), so the state stays. -/
def State.advance (s : State) : Host.Outcome State Fault Refusal :=
  match s.ctl with
  | .idle => .next s
  | .fetch => s.runCycle
  | .execute => s.runHandler
  | .waitIn => .next s.runWaiting
  | .halted => .next s
  | .faulted => .next s

/-! ## Placing a word where the next step fetches (log 5) -/

/-- The address the word is placed at: `pc` where the memory has it, else the entry point 0. -/
def Apache.fetchPlace {w n : Nat} (m : Apache w n) : BitVec w := if m.pc.toNat < m.mem.cap then m.pc else 0

/-- A core that is about to fetch `word`: the word stands at `pc`, a Run is in progress with a cycle left, and neither
HALTED nor FAULTED holds. All else is as it was. -/
def Apache.withWord {w n : Nat} (word : BitVec w) (m : Apache w n) : Apache w n :=
  { m with
    mem := Memory.put { m.mem with cap := max m.mem.cap 1 } m.fetchPlace.toNat word
    pc := m.fetchPlace
    halt := false
    status := none
    budget := max m.budget 1
    ctl := .fetch
    outcome := none }

/-- A fresh core of the other variant with the ports and parameters of this one: what an instruction of the other
variant needs to run at all (R2). -/
def Apache.otherCore {w n : Nat} (w' n' cap : Nat) (m : Apache w n) : Apache w' n' :=
  { Apache.fresh w' n' (Memory.create w' cap) m.params with
    input := m.input
    inPos := m.inPos
    output := m.output
    draws := m.draws }

/-- The instance as an Apache-8: itself, or a fresh one where it is an Apache-16. -/
def Instance.toApache8 : Instance → Apache 8 2
  | .a8 m => m
  | .a16 m => m.otherCore 8 2 (Variant.defaultCap .a8)

/-- The instance as an Apache-16: itself, or a fresh one where it is an Apache-8 or construction refuses it (R202). -/
def Instance.toApache16 : Instance → Apache 16 4
  | .a8 m => m.otherCore 16 4 (Variant.defaultCap .a16)
  | .a16 m => if withinMaxCap .a16 m.mem.cap then m else m.otherCore 16 4 (Variant.defaultCap .a16)

end Sys2Proof.Machine
end

