-- ==== Sys2Proof/Machine/Step.lean ====
section
/-! DEFINITION. One step of the machine: one transition of spec/40_cycle.md R107, the FETCH and EXECUTE of one
instruction taken together (log 6). -/

namespace Sys2Proof.Machine

/-- One step. A state whose memory its variant's construction does not accept is no core: nothing executes (R202). -/
def step (s : State) : Host.Outcome State Fault Refusal :=
  if s.constructed then s.advance else .fault .constructionFailed

/-- The state in which the very next step fetches and runs the word `w`: of an Apache-8 for 8 bits, of an Apache-16 for
16 bits; the state itself for any other width, which no instruction has (R70). -/
def State.withFetchWord (s : State) (nbits w : Nat) : State :=
  if nbits = 8 then ⟨.a8 (s.inst.toApache8.withWord (BitVec.ofNat 8 w))⟩
  else if nbits = 16 then ⟨.a16 (s.inst.toApache16.withWord (BitVec.ofNat 16 w))⟩
  else s

end Sys2Proof.Machine
end

