-- ==== Sys2Proof/Machine/Loader.lean ====
section
/-! DEFINITION. LoadProgram, the operation of the memory that the caller runs before the core (spec/20_memory.md R59 to
R64; spec/30_encoding.md R86, R87). -/

namespace Sys2Proof.Machine

/-- The lines of a text: separated by the newline character, a final line without one still a line (R59). -/
def splitLines : List Char → List Line
  | [] => []
  | c :: cs =>
    if c = '\n' then [] :: splitLines cs
    else
      match splitLines cs with
      | [] => [[c]]
      | line :: lines => (c :: line) :: lines

/-- Space, tab or carriage return. -/
def isBlankChar (c : Char) : Bool := c = ' ' || c = '\t' || c = '\r'

/-- A blank line: empty, or only space, tab and carriage return (R60). -/
def isBlank (line : Line) : Bool := line.all isBlankChar

/-- The digits of a line, every non-digit character stripped (R61). -/
def lineDigits (line : Line) : List Nat := line.filterMap digitValue

/-- The base-2 value of a digit string, its first digit the most significant (R61, R87). -/
def binaryValue (digits : List Nat) : Nat := digits.foldl (fun acc d => 2 * acc + d) 0

/-- Parsing a non-blank line (R61, R62): none when no digit is left, when a digit is not 0 or 1, or when the value does
not fit the word. -/
def parseWord (w : Nat) (line : Line) : Option (BitVec w) :=
  let digits := lineDigits line
  if digits = [] then none
  else if digits.any (fun d => 1 < d) then none
  else if binaryValue digits < 2 ^ w then some (BitVec.ofNat w (binaryValue digits))
  else none

/-- Load lines into a memory from address `k` on: blank lines are skipped, a malformed line ends the load with
ParseError(LOAD), and once `CAP` words have been written no further line is read (R60, R62, R63). The memory returned
beside an error holds the words written before the failing line (R64). -/
def loadLines {w : Nat} : List Line → Nat → Memory w → Memory w × Option FaultRecord
  | [], _, mem => (mem, none)
  | line :: lines, k, mem =>
    if mem.cap ≤ k then (mem, none)
    else if isBlank line then loadLines lines k mem
    else
      match parseWord w line with
      | some v => loadLines lines (k + 1) (mem.put k v)
      | none => (mem, some (.parseError .load))

/-- `LoadProgram(source)` (R59): from address 0. -/
def Memory.loadProgram {w : Nat} (mem : Memory w) (text : List Char) : Memory w × Option FaultRecord :=
  loadLines (splitLines text) 0 mem

end Sys2Proof.Machine
end

