-- ==== Sys2Proof/Machine/Run.lean ====
section
/-! DEFINITION. What the caller does to the machine (spec/40_cycle.md R90, R93, R111; spec/70_reset_and_hazards.md R200
to R204): construction, reset, Run(N), the building, loading and writing of a constructed core's memory, the delivery of an
input line, the boot sequence; and the loop of Run(N) as R93 and R108 write it, beside the state machine of R107 that `step` follows. -/

namespace Sys2Proof.Machine

/-! ## Construction and reset -/

/-- Construct an Apache-8 over a memory: no check (R202). -/
def constructApache8 (mem : Memory 8) (params : Params) : Except FaultRecord State :=
  .ok ⟨.a8 (Apache.fresh 8 2 mem params)⟩

/-- Construct an Apache-16 over a memory: ParseError(CONSTRUCT) when its capacity exceeds 1024 (R202). -/
def constructApache16 (mem : Memory 16) (params : Params) : Except FaultRecord State :=
  if withinMaxCap .a16 mem.cap then .ok ⟨.a16 (Apache.fresh 16 4 mem params)⟩
  else .error (.parseError .construct)

/-- The `reset` input: construction anew over the same memory (R200, R201), the ports and the parameters of the machine
as they are (log 15). -/
def Apache.reset {w n : Nat} (m : Apache w n) : Apache w n :=
  { Apache.fresh w n m.mem m.params with
    input := m.input
    inPos := m.inPos
    output := m.output
    draws := m.draws }

/-- The `reset` input of an instance (R111, R200). -/
def State.resetCore (s : State) : State := s.lift fun _ _ m => m.reset

/-! ## Run(N) -/

/-- `Run(N)` by control state (R93, R107): from IDLE it loads the budget and enters FETCH, unless `status` holds a
fault; on a halted or faulted core it only returns the outcome again (R101, R103). A Run in progress is not interrupted
(log 8). DESIGN CHOICE (log 24): whatever memory holds is run, even where no program was loaded or a load failed, after
which R64 and R90 let the caller issue no Run. -/
def Apache.callRun {w n : Nat} (budget : Nat) (m : Apache w n) : Apache w n :=
  match m.ctl with
  | .idle =>
    match m.status with
    | none => { m with budget := budget, ctl := .fetch, outcome := none }
    | some f => { m with outcome := some (.faulted f) }
  | .halted => { m with outcome := some .halted }
  | .faulted => { m with outcome := m.status.map .faulted }
  | .fetch => m
  | .execute => m
  | .waitIn => m

/-- `run(N)` on an instance (R111). -/
def State.callRun (budget : Nat) (s : State) : State := s.lift fun _ _ m => m.callRun budget

/-- The input source delivers one more line (R180). -/
def Apache.deliver {w n : Nat} (line : Line) (m : Apache w n) : Apache w n := { m with input := m.input ++ [line] }

/-- A line delivered to an instance's input port (R111). -/
def State.deliver (line : Line) (s : State) : State := s.lift fun _ _ m => m.deliver line

/-! ## The caller's access to the memory of a constructed core

Memory is referenced, not copied, so the caller may fill it after construction too, as long as that precedes Run (R204).
That no Run is in progress is the caller's duty (20_memory.md R53); that it is not checked, here and where an input source
is attached, is a DESIGN CHOICE (log 22). -/

/-- LoadProgram on the memory a core references (R59, R204). After an error the memory holds the words written before it
(R64). -/
def Apache.loadProgram {w n : Nat} (text : List Char) (m : Apache w n) : Apache w n × Option FaultRecord :=
  let (mem, failure) := m.mem.loadProgram text
  ({ m with mem := mem }, failure)

/-- LoadProgram on the memory of an instance, `State.reset` among them (R204). After an error no Run is to be issued from
that memory (R64): the error is the caller's to heed, and the state does not hold it (DESIGN CHOICE, log 24). -/
def State.loadProgram (text : List Char) (s : State) : State × Option FaultRecord :=
  match s.inst with
  | .a8 m =>
    let (t, failure) := m.loadProgram text
    (⟨.a8 t⟩, failure)
  | .a16 m =>
    let (t, failure) := m.loadProgram text
    (⟨.a16 t⟩, failure)

/-- `Set(a, v)` by the caller on the memory a core references: "or write it directly" (R51, R204). -/
def Apache.writeWord {w n : Nat} (a : Nat) (v : BitVec w) (m : Apache w n) : Except FaultRecord (Apache w n) :=
  match m.mem.set a v with
  | .ok mem => .ok { m with mem := mem }
  | .error f => .error f

/-- `Set` by the caller on the memory of an instance, the number `v` taken modulo `2^W`: DESIGN CHOICE (log 22). -/
def State.writeWord (a v : Nat) (s : State) : Except FaultRecord State :=
  match s.inst with
  | .a8 m => (m.writeWord a (trunc 8 v)).map fun t => ⟨.a8 t⟩
  | .a16 m => (m.writeWord a (trunc 16 v)).map fun t => ⟨.a16 t⟩

/-- A memory built anew, all zero, for a core that is already constructed (R37, R204). DESIGN CHOICE (log 23): an
Apache-16 is refused a memory that its construction would refuse. -/
def State.buildMemory (cap : Nat) (s : State) : Except FaultRecord State :=
  if withinMaxCap s.variant cap then .ok (s.lift fun w _ m => { m with mem := Memory.create w cap })
  else .error (.parseError .construct)

/-! ## Boot (R204) -/

/-- Attach the ports (R204 step 4): an input source that has these lines to give, read from its first line, and an output
sink. DESIGN CHOICE (log 25): the attaching of the sink changes nothing, so that the events already emitted stay in
`output`, before those to come. That no Run is in progress is not checked (log 22). -/
def State.attachInput (lines : List Line) (s : State) : State :=
  s.lift fun _ _ m => { m with input := lines, inPos := 0 }

/-- The steps of R204 on a constructed core: load the program, a failed load ending here; attach the ports; call Run.
On a core that has run before, after a reset too (log 15), `output` goes on from the events emitted then, while the input starts
anew: DESIGN CHOICE (log 25). -/
def State.launch (text : List Char) (lines : List Line) (budget : Nat) (s : State) : Except FaultRecord State :=
  match s.loadProgram text with
  | (_, some f) => .error f
  | (t, none) => .ok ((t.attachInput lines).callRun budget)

/-- Build a memory, construct an Apache-8 over it, load, attach, run (R204). Its construction never fails (R202), so
whether it comes before or after the load cannot be told. -/
def bootApache8 (cap : Nat) (text : List Char) (lines : List Line) (params : Params) (budget : Nat) :
    Except FaultRecord State :=
  match constructApache8 (Memory.create 8 cap) params with
  | .ok s => s.launch text lines budget
  | .error f => .error f

/-- Build a memory, construct an Apache-16 over it, load, attach, run (R204). DESIGN CHOICE (log 21): the core is
constructed before the load, which R204 allows, so that of two errors the construction ParseError is the one reported, as
60_exceptions.md R177 orders them; the list of R204 puts the load first. -/
def bootApache16 (cap : Nat) (text : List Char) (lines : List Line) (params : Params) (budget : Nat) :
    Except FaultRecord State :=
  match constructApache16 (Memory.create 16 cap) params with
  | .ok s => s.launch text lines budget
  | .error f => .error f

/-! ## The loop of Run(N), as R93 and R108 write it -/

/-- How the loop of R93 ends: with one of the outcomes of R99, or in an IN whose line has not come. -/
inductive LoopEnd where
  | returned (o : RunOutcome)
  | waiting
  deriving DecidableEq, Repr

/-- `Cycle()` (R108): fetch, increment, decode, execute. A raised fault shows in the state's `status`. -/
def State.cycle (s : State) : State :=
  let t := s.lift fun _ _ m => m.fetch
  match t.ctl with
  | .execute =>
    match exec t.decoded t with
    | .next u => u
    | .fault _ => t
    | .refused _ => t
  | .idle => t
  | .fetch => t
  | .waitIn => t
  | .halted => t
  | .faulted => t

/-- The halt flag of an instance. -/
def State.halt (s : State) : Bool :=
  match s.inst with
  | .a8 m => m.halt
  | .a16 m => m.halt

/-- The fault status of an instance. -/
def State.status (s : State) : Option FaultRecord :=
  match s.inst with
  | .a8 m => m.status
  | .a16 m => m.status

/-- The remaining cycles of an instance. -/
def State.budget (s : State) : Nat :=
  match s.inst with
  | .a8 m => m.budget
  | .a16 m => m.budget

/-- What the `outcome` port of an instance shows (R111). -/
def State.outcome (s : State) : Option RunOutcome :=
  match s.inst with
  | .a8 m => m.outcome
  | .a16 m => m.outcome

/-- `budget <- N`. -/
def State.setBudget (budget : Nat) (s : State) : State := s.lift fun _ _ m => { m with budget := budget }

/-- The start of the loop: the budget is loaded and Run has returned nothing yet. -/
def State.startLoop (budget : Nat) (s : State) : State :=
  s.lift fun _ _ m => { m with budget := budget, outcome := none }

/-- The loop of R93 with `k` cycles remaining: the halt test, the budget test, a cycle, the decrement. -/
def State.loop : Nat → State → State × LoopEnd
  | 0, s => if s.halt then (s, .returned .halted) else (s, .returned .exhausted)
  | k + 1, s =>
    if s.halt then (s, .returned .halted)
    else
      let t := s.cycle
      match t.status with
      | some f => (t, .returned (.faulted f))
      | none => if t.ctl = .waitIn then (t, .waiting) else State.loop k (t.setBudget k)

/-- `Run(N)` (R93). -/
def State.runLoop (budget : Nat) (s : State) : State × LoopEnd :=
  match s.status with
  | some f => (s, .returned (.faulted f))
  | none => State.loop budget (s.startLoop budget)

/-- The architectural state R20 and R38 name, the control state and the outcome port left out: what R42 lets the caller
read after a run. -/
def State.visible (s : State) : State := s.lift fun _ _ m => { m with ctl := .idle, outcome := none }

end Sys2Proof.Machine
end

