-- ==== Sys2Proof/Safety.lean ====
section
/-! DEFINITION. What the claims are stated in: the spec's tables of what instructions access, what a write and a fault
leave, the invariant of the machine, and a state that has not faulted. -/

namespace Sys2Proof

/-! ## The spec's tables of what instructions access -/

/-- The address an instruction reads data from, if any (20_memory.md R56). -/
def Instr.readAddress : Instr → Option Nat
  | .loadR0 addr => some addr.toNat
  | .storeR0 _ => none
  | .jumpzR0 _ => none
  | .addR0 addr => some addr.toNat
  | .shlR0 => none
  | .notR0 => none
  | .jump8 _ => none
  | .stop8 => none
  | .loadR1 addr => some addr.toNat
  | .storeR1 _ => none
  | .jumpzR1 _ => none
  | .addR1 addr => some addr.toNat
  | .shlR1 => none
  | .notR1 => none
  | .outR0 => none
  | .in8 _ => none
  | .load _ addr => some addr.toNat
  | .store _ _ => none
  | .jumpz _ _ => none
  | .add _ addr => some addr.toNat
  | .sub _ addr => some addr.toNat
  | .mul _ addr => some addr.toNat
  | .div _ addr => some addr.toNat
  | .shr _ _ => none
  | .shl _ _ => none
  | .not _ => none
  | .jump16 _ => none
  | .rsvd11 => none
  | .rsvd12 => none
  | .stop16 => none
  | .out _ => none
  | .in16 _ => none

/-- The address an instruction writes data to, if any (20_memory.md R56). -/
def Instr.writeAddress : Instr → Option Nat
  | .loadR0 _ => none
  | .storeR0 addr => some addr.toNat
  | .jumpzR0 _ => none
  | .addR0 _ => none
  | .shlR0 => none
  | .notR0 => none
  | .jump8 _ => none
  | .stop8 => none
  | .loadR1 _ => none
  | .storeR1 addr => some addr.toNat
  | .jumpzR1 _ => none
  | .addR1 _ => none
  | .shlR1 => none
  | .notR1 => none
  | .outR0 => none
  | .in8 addr => some addr.toNat
  | .load _ _ => none
  | .store _ addr => some addr.toNat
  | .jumpz _ _ => none
  | .add _ _ => none
  | .sub _ _ => none
  | .mul _ _ => none
  | .div _ _ => none
  | .shr _ _ => none
  | .shl _ _ => none
  | .not _ => none
  | .jump16 _ => none
  | .rsvd11 => none
  | .rsvd12 => none
  | .stop16 => none
  | .out _ => none
  | .in16 addr => some addr.toNat

/-- The general register an instruction writes, if any (10_state.md R23). -/
def Instr.writesReg : Instr → Option Nat
  | .loadR0 _ => some 0
  | .storeR0 _ => none
  | .jumpzR0 _ => none
  | .addR0 _ => some 0
  | .shlR0 => some 0
  | .notR0 => some 0
  | .jump8 _ => none
  | .stop8 => none
  | .loadR1 _ => some 1
  | .storeR1 _ => none
  | .jumpzR1 _ => none
  | .addR1 _ => some 1
  | .shlR1 => some 1
  | .notR1 => some 1
  | .outR0 => none
  | .in8 _ => none
  | .load reg _ => some reg
  | .store _ _ => none
  | .jumpz _ _ => none
  | .add reg _ => some reg
  | .sub reg _ => some reg
  | .mul reg _ => some reg
  | .div reg _ => some reg
  | .shr reg _ => some reg
  | .shl reg _ => some reg
  | .not reg => some reg
  | .jump16 _ => none
  | .rsvd11 => none
  | .rsvd12 => none
  | .stop16 => none
  | .out _ => none
  | .in16 _ => none

/-- The jumps: the instructions whose handler may write `pc` (10_state.md R27). -/
def Instr.writesPc (i : Instr) : Prop :=
  (∃ a, i = .jumpzR0 a ∨ i = .jumpzR1 a ∨ i = .jump8 a) ∨ ∃ r a, i = .jumpz r a ∨ i = .jump16 a

/-- The STOP of either variant: the only instruction that writes `halt` (10_state.md R32). -/
def Instr.isStop (i : Instr) : Prop := i = .stop8 ∨ i = .stop16

/-- The IN of either variant. -/
def Instr.isIn (i : Instr) : Prop := (∃ a, i = .in8 a) ∨ ∃ a, i = .in16 a

end Sys2Proof

namespace Sys2Proof.Machine

/-! ## What a write to memory and a fault leave -/

/-- `mem'` is `mem` after `M[a] <- v`: word `a` reads as `v`, every other word as before, the capacity is the same
(20_memory.md R51, R52). -/
def Memory.StoredAt {w : Nat} (mem mem' : Memory w) (a : Nat) (v : BitVec w) : Prop :=
  mem'.cap = mem.cap ∧ mem'.read a = v ∧ ∀ b, b ≠ a → mem'.read b = mem.read b

/-- The core after fault entry with record `f`, everything but the fault status, the control state and what Run returns
as it was (60_exceptions.md R175). -/
def Apache.afterFault {w n : Nat} (f : FaultRecord) (m : Apache w n) : Apache w n :=
  { m with status := some f, ctl := .faulted, outcome := some (.faulted f) }

/-! ## The invariant -/

/-- The records a running core of variant `v` and capacity `cap` can hold in `status` (60_exceptions.md R171 to R174): an
address out of bounds, a bad IN line, and on Apache-16 a zero divisor. -/
def FaultRecord.legal (v : Variant) (cap : Nat) : FaultRecord → Prop
  | .outOfBounds _ a => cap ≤ a
  | .parseError site => site = .input
  | .arithmeticFault => v = .a16
  | .unknownOpcode _ => False

/-- What each control state says of the rest (40_cycle.md R98, R99, R106, R107); that the `outcome` port shows nothing until
a Run has returned is the model's choice (log 9). -/
def Apache.controlInv {w n : Nat} (m : Apache w n) : Prop :=
  match m.ctl with
  | .idle => m.halt = false ∧ m.status = none ∧ m.budget = 0 ∧ (m.outcome = none ∨ m.outcome = some .exhausted)
  | .fetch => m.status = none ∧ m.outcome = none
  | .execute => m.halt = false ∧ m.status = none ∧ 0 < m.budget ∧ m.outcome = none
  | .waitIn => m.halt = false ∧ m.status = none ∧ 0 < m.budget ∧ m.outcome = none ∧
      m.output.getLast? = some .prompt ∧ m.cir.toNat / 2 ^ (w - 4) = 15
  | .halted => m.halt = true ∧ m.status = none ∧ m.outcome = some .halted
  | .faulted => m.halt = false ∧ 0 < m.budget ∧ ∃ f, m.status = some f ∧ m.outcome = some (.faulted f)

/-- The invariant of a core: its memory in canonical form (log 4), its input position within the stream
(10_state.md R38), its fault record one that its variant can raise, and its control state coherent. -/
structure Apache.Inv {w n : Nat} (v : Variant) (m : Apache w n) : Prop where
  memory : m.mem.wf
  position : m.inPos ≤ m.input.length
  record : ∀ f, m.status = some f → f.legal v m.mem.cap
  control : m.controlInv

/-- The invariant of the machine: that of its core, and a capacity within the variant's limit (R202). -/
def State.Inv (s : State) : Prop :=
  s.constructed = true ∧
    match s.inst with
    | .a8 m => m.Inv .a8
    | .a16 m => m.Inv .a16

/-- A state that has not faulted (60_exceptions.md R175): a claim about a program's result needs it (40_cycle.md R109). -/
def State.safe (s : State) : Prop := s.status = none

end Sys2Proof.Machine
end

