-- ==== Sys2Proof/Certificates/Slice0/Obligations.lean ====
section
/-! DEFINITION. The statements for the provers, from the numbered rules of spec/. Every value a rule gives is written out
in the statement, every frame is a record equation (all that the equation does not name is as it was), and a write to
memory is said through reads (`Memory.StoredAt`). -/

open Sys2Proof Sys2Proof.Machine

/-! ## Encoding -/

/-- Decode and encode agree for every instruction of either variant, every operand at every value (30_encoding.md R78,
R79, R84). -/
def Obligations.DecodeOfEncodeIsTheInstruction : Prop :=
  ∀ i : Instr,
    (i.wellFormed .a8 = true → ∃ w, encode8 i = some w ∧ decode8 w = i) ∧
    (i.wellFormed .a16 = true → ∃ w, encode16 i = some w ∧ decode16 w = i)

/-- Every word decodes to a row of its variant's opcode map, the row of its top four bits (30_encoding.md R78, R79; that
the decoders are total is the spec's own reading of its source: R80, decision D19). -/
def Obligations.DecodersAreTotalAndReadTheOpcodeAlone : Prop :=
  (∀ w : BitVec 8, (decode8 w).variant = .a8 ∧ (opcodeOf (decode8 w)).toNat = w.toNat / 16) ∧
  (∀ w : BitVec 16, (decode16 w).variant = .a16 ∧ (opcodeOf (decode16 w)).toNat = w.toNat / 4096)

/-- The bits the opcode maps R78 and R79 mark as ignored have no effect (R82, which the spec marks as its own inference
from R75 and R76; for SHL R1, 90_conflicts.md C7). -/
def Obligations.IgnoredBitsHaveNoEffect : Prop :=
  (∀ (op a b : BitVec 4), op = 0b0100#4 ∨ op = 0b0101#4 ∨ op = 0b0111#4 ∨ op = 0b1100#4 ∨ op = 0b1101#4 ∨ op = 0b1110#4 →
    decode8 (op ++ a) = decode8 (op ++ b)) ∧
  (∀ (op : BitVec 4) (r : BitVec 2) (a b : BitVec 10), op = 0b1001#4 ∨ op = 0b1110#4 →
    decode16 (op ++ r ++ a) = decode16 (op ++ r ++ b)) ∧
  (∀ (op : BitVec 4) (r q : BitVec 2) (a : BitVec 10), op = 0b1010#4 ∨ op = 0b1111#4 →
    decode16 (op ++ r ++ a) = decode16 (op ++ q ++ a)) ∧
  (∀ (op : BitVec 4) (r q : BitVec 2) (a b : BitVec 10), op = 0b1011#4 ∨ op = 0b1100#4 ∨ op = 0b1101#4 →
    decode16 (op ++ r ++ a) = decode16 (op ++ q ++ b))

/-- Words of the spec's examples and programs decode to the instructions they stand for (95_test_vectors.md P1, P2, P4). -/
def Obligations.ExampleWordsDecode : Prop :=
  decode8 0xF6 = .in8 6 ∧ decode8 0x37 = .addR0 7 ∧ decode8 0xA7 = .jumpzR1 7 ∧ decode8 0xBF = .addR1 15 ∧
  decode8 0x63 = .jump8 3 ∧ decode8 0x70 = .stop8 ∧ decode16 0x5811 = .mul 2 17 ∧ decode16 0x8C04 = .shl 3 4 ∧
  decode16 0x9400 = .not 1 ∧ decode16 0x1C14 = .store 3 20 ∧ decode16 0x200D = .jumpz 0 13 ∧ decode16 0xB000 = .rsvd11

/-! ## Apache-8 instructions -/

/-- R120, R128: LOAD R0 and LOAD R1. -/
def Obligations.Apache8LoadCopiesAMemoryWord : Prop :=
  ∀ (m : Apache 8 2) (addr : BitVec 4),
    (decode8 (0b0000#4 ++ addr) = .loadR0 addr ∧ decode8 (0b1000#4 ++ addr) = .loadR1 addr) ∧
    (addr.toNat < m.mem.cap →
      exec (.loadR0 addr) ⟨.a8 m⟩ = .next ⟨.a8 { m with x := m.x.set 0 (m.mem.read addr.toNat) }⟩ ∧
      exec (.loadR1 addr) ⟨.a8 m⟩ = .next ⟨.a8 { m with x := m.x.set 1 (m.mem.read addr.toNat) }⟩) ∧
    (m.mem.cap ≤ addr.toNat →
      exec (.loadR0 addr) ⟨.a8 m⟩ = .next ⟨.a8 (m.afterFault (.outOfBounds .read addr.toNat))⟩ ∧
      exec (.loadR1 addr) ⟨.a8 m⟩ = .next ⟨.a8 (m.afterFault (.outOfBounds .read addr.toNat))⟩)

/-- R121, R129: STORE R0 and STORE R1. -/
def Obligations.Apache8StoreWritesAMemoryWord : Prop :=
  ∀ (m : Apache 8 2) (addr : BitVec 4),
    (decode8 (0b0001#4 ++ addr) = .storeR0 addr ∧ decode8 (0b1001#4 ++ addr) = .storeR1 addr) ∧
    (addr.toNat < m.mem.cap →
      (∃ mem', m.mem.StoredAt mem' addr.toNat m.x[0] ∧
        exec (.storeR0 addr) ⟨.a8 m⟩ = .next ⟨.a8 { m with mem := mem' }⟩) ∧
      (∃ mem', m.mem.StoredAt mem' addr.toNat m.x[1] ∧
        exec (.storeR1 addr) ⟨.a8 m⟩ = .next ⟨.a8 { m with mem := mem' }⟩)) ∧
    (m.mem.cap ≤ addr.toNat →
      exec (.storeR0 addr) ⟨.a8 m⟩ = .next ⟨.a8 (m.afterFault (.outOfBounds .write addr.toNat))⟩ ∧
      exec (.storeR1 addr) ⟨.a8 m⟩ = .next ⟨.a8 (m.afterFault (.outOfBounds .write addr.toNat))⟩)

/-- R122, R130: JUMPZ R0 and JUMPZ R1. A target beyond the memory faults at the next fetch. -/
def Obligations.Apache8JumpzBranchesOnZero : Prop :=
  ∀ (m : Apache 8 2) (addr : BitVec 4),
    (decode8 (0b0010#4 ++ addr) = .jumpzR0 addr ∧ decode8 (0b1010#4 ++ addr) = .jumpzR1 addr) ∧
    (exec (.jumpzR0 addr) ⟨.a8 m⟩ = .next ⟨.a8 (if m.x[0].toNat = 0 then { m with pc := addr.setWidth 8 } else m)⟩) ∧
    (exec (.jumpzR1 addr) ⟨.a8 m⟩ = .next ⟨.a8 (if m.x[1].toNat = 0 then { m with pc := addr.setWidth 8 } else m)⟩) ∧
    (m.mem.cap ≤ addr.toNat →
      ({ m with pc := addr.setWidth 8 } : Apache 8 2).fetch =
        ({ m with pc := addr.setWidth 8 } : Apache 8 2).afterFault (.outOfBounds .fetch addr.toNat))

/-- R123, R131: ADD R0 and ADD R1, modulo 256. -/
def Obligations.Apache8AddIsModulo256 : Prop :=
  ∀ (m : Apache 8 2) (addr : BitVec 4),
    (decode8 (0b0011#4 ++ addr) = .addR0 addr ∧ decode8 (0b1011#4 ++ addr) = .addR1 addr) ∧
    (addr.toNat < m.mem.cap →
      (∃ v : BitVec 8, v.toNat = (m.x[0].toNat + (m.mem.read addr.toNat).toNat) % 256 ∧
        exec (.addR0 addr) ⟨.a8 m⟩ = .next ⟨.a8 { m with x := m.x.set 0 v }⟩) ∧
      (∃ v : BitVec 8, v.toNat = (m.x[1].toNat + (m.mem.read addr.toNat).toNat) % 256 ∧
        exec (.addR1 addr) ⟨.a8 m⟩ = .next ⟨.a8 { m with x := m.x.set 1 v }⟩)) ∧
    (m.mem.cap ≤ addr.toNat →
      exec (.addR0 addr) ⟨.a8 m⟩ = .next ⟨.a8 (m.afterFault (.outOfBounds .read addr.toNat))⟩ ∧
      exec (.addR1 addr) ⟨.a8 m⟩ = .next ⟨.a8 (m.afterFault (.outOfBounds .read addr.toNat))⟩)

/-- SHL R0 modulo 256 (R124), the `addr` bits without effect. SHL R1 is the same on `x[1]`; that it ignores its `addr`
bits is the spec's own inference (R132, 90_conflicts.md C7). -/
def Obligations.Apache8ShlDoublesModulo256 : Prop :=
  ∀ (m : Apache 8 2) (addr : BitVec 4),
    (decode8 (0b0100#4 ++ addr) = .shlR0 ∧ decode8 (0b1100#4 ++ addr) = .shlR1) ∧
    (∃ v : BitVec 8, v.toNat = (m.x[0].toNat * 2) % 256 ∧
      exec .shlR0 ⟨.a8 m⟩ = .next ⟨.a8 { m with x := m.x.set 0 v }⟩) ∧
    (∃ v : BitVec 8, v.toNat = (m.x[1].toNat * 2) % 256 ∧
      exec .shlR1 ⟨.a8 m⟩ = .next ⟨.a8 { m with x := m.x.set 1 v }⟩)

/-- R125, R133: NOT R0 and NOT R1, and NOT twice restores the state. -/
def Obligations.Apache8NotComplements : Prop :=
  ∀ (m : Apache 8 2) (addr : BitVec 4),
    (decode8 (0b0101#4 ++ addr) = .notR0 ∧ decode8 (0b1101#4 ++ addr) = .notR1) ∧
    (∃ v : BitVec 8, v.toNat = 255 - m.x[0].toNat ∧
      exec .notR0 ⟨.a8 m⟩ = .next ⟨.a8 { m with x := m.x.set 0 v }⟩ ∧
      exec .notR0 ⟨.a8 { m with x := m.x.set 0 v }⟩ = .next ⟨.a8 m⟩) ∧
    (∃ v : BitVec 8, v.toNat = 255 - m.x[1].toNat ∧
      exec .notR1 ⟨.a8 m⟩ = .next ⟨.a8 { m with x := m.x.set 1 v }⟩ ∧
      exec .notR1 ⟨.a8 { m with x := m.x.set 1 v }⟩ = .next ⟨.a8 m⟩)

/-- R126: JUMP of Apache-8. A target beyond the memory faults at the next fetch. STOP sets the halt flag and nothing
else (R127, which `StopEndsTheRun` states whole). -/
def Obligations.Apache8JumpAndStop : Prop :=
  ∀ (m : Apache 8 2) (addr : BitVec 4),
    (decode8 (0b0110#4 ++ addr) = .jump8 addr ∧ decode8 (0b0111#4 ++ addr) = .stop8) ∧
    exec (.jump8 addr) ⟨.a8 m⟩ = .next ⟨.a8 { m with pc := addr.setWidth 8 }⟩ ∧
    (m.mem.cap ≤ addr.toNat →
      ({ m with pc := addr.setWidth 8 } : Apache 8 2).fetch =
        ({ m with pc := addr.setWidth 8 } : Apache 8 2).afterFault (.outOfBounds .fetch addr.toNat)) ∧
    exec .stop8 ⟨.a8 m⟩ = .next ⟨.a8 { m with halt := true }⟩

/-- R134: OUT R0, on every value of the ignored bits; register 1 is never output. -/
def Obligations.Apache8OutEmitsR0 : Prop :=
  ∀ (m : Apache 8 2) (addr : BitVec 4),
    decode8 (0b1110#4 ++ addr) = .outR0 ∧
    exec .outR0 ⟨.a8 m⟩ = .next ⟨.a8 { m with output := m.output ++ [.value m.x[0].toNat] }⟩

/-- IN of Apache-8: prompt, read, parse, store, in that order, with the fault each can raise; with no line it waits in
WAIT_IN (R135, with the spec's own decisions D6, D7 and D8). -/
def Obligations.Apache8InPromptsReadsAndStores : Prop :=
  ∀ (m : Apache 8 2) (addr : BitVec 4),
    decode8 (0b1111#4 ++ addr) = .in8 addr ∧
    (m.input[m.inPos]? = none →
      exec (.in8 addr) ⟨.a8 m⟩ = .next ⟨.a8 { m with output := m.output ++ [.prompt], ctl := .waitIn }⟩) ∧
    (∀ line v, m.input[m.inPos]? = some line → acceptLine m.params line = .ok v → addr.toNat < m.mem.cap →
      ∃ mem', m.mem.StoredAt mem' addr.toNat (BitVec.ofNat 8 v) ∧
        exec (.in8 addr) ⟨.a8 m⟩ =
          .next ⟨.a8 { m with output := m.output ++ [.prompt], inPos := m.inPos + 1, mem := mem' }⟩) ∧
    (∀ line v, m.input[m.inPos]? = some line → acceptLine m.params line = .ok v → m.mem.cap ≤ addr.toNat →
      exec (.in8 addr) ⟨.a8 m⟩ =
        .next ⟨.a8 (({ m with output := m.output ++ [.prompt], inPos := m.inPos + 1 } : Apache 8 2).afterFault
          (.outOfBounds .write addr.toNat))⟩) ∧
    (∀ line f, m.input[m.inPos]? = some line → acceptLine m.params line = .error f →
      exec (.in8 addr) ⟨.a8 m⟩ =
        .next ⟨.a8 (({ m with output := m.output ++ [.prompt], inPos := m.inPos + 1 } : Apache 8 2).afterFault
          (.parseError .input))⟩)

/-! ## Apache-16 instructions -/

/-- R141: LOAD Rx. -/
def Obligations.Apache16LoadCopiesAMemoryWord : Prop :=
  ∀ (m : Apache 16 4) (r : BitVec 2) (reg : Fin 4) (addr : BitVec 10),
    decode16 (0b0000#4 ++ r ++ addr) = .load ⟨r.toNat, r.isLt⟩ addr ∧
    (addr.toNat < m.mem.cap →
      exec (.load reg addr) ⟨.a16 m⟩ = .next ⟨.a16 { m with x := m.x.set reg (m.mem.read addr.toNat) }⟩) ∧
    (m.mem.cap ≤ addr.toNat →
      exec (.load reg addr) ⟨.a16 m⟩ = .next ⟨.a16 (m.afterFault (.outOfBounds .read addr.toNat))⟩)

/-- R142: STORE Rx. -/
def Obligations.Apache16StoreWritesAMemoryWord : Prop :=
  ∀ (m : Apache 16 4) (r : BitVec 2) (reg : Fin 4) (addr : BitVec 10),
    decode16 (0b0001#4 ++ r ++ addr) = .store ⟨r.toNat, r.isLt⟩ addr ∧
    (addr.toNat < m.mem.cap →
      ∃ mem', m.mem.StoredAt mem' addr.toNat m.x[reg] ∧
        exec (.store reg addr) ⟨.a16 m⟩ = .next ⟨.a16 { m with mem := mem' }⟩) ∧
    (m.mem.cap ≤ addr.toNat →
      exec (.store reg addr) ⟨.a16 m⟩ = .next ⟨.a16 (m.afterFault (.outOfBounds .write addr.toNat))⟩)

/-- R143: JUMPZ Rx. A target beyond the memory faults at the next fetch. -/
def Obligations.Apache16JumpzBranchesOnZero : Prop :=
  ∀ (m : Apache 16 4) (r : BitVec 2) (reg : Fin 4) (addr : BitVec 10),
    decode16 (0b0010#4 ++ r ++ addr) = .jumpz ⟨r.toNat, r.isLt⟩ addr ∧
    exec (.jumpz reg addr) ⟨.a16 m⟩ =
      .next ⟨.a16 (if m.x[reg].toNat = 0 then { m with pc := addr.setWidth 16 } else m)⟩ ∧
    (m.mem.cap ≤ addr.toNat →
      ({ m with pc := addr.setWidth 16 } : Apache 16 4).fetch =
        ({ m with pc := addr.setWidth 16 } : Apache 16 4).afterFault (.outOfBounds .fetch addr.toNat))

/-- R144: ADD Rx, modulo 65536. -/
def Obligations.Apache16AddIsModulo65536 : Prop :=
  ∀ (m : Apache 16 4) (r : BitVec 2) (reg : Fin 4) (addr : BitVec 10),
    decode16 (0b0011#4 ++ r ++ addr) = .add ⟨r.toNat, r.isLt⟩ addr ∧
    (addr.toNat < m.mem.cap →
      ∃ v : BitVec 16, v.toNat = (m.x[reg].toNat + (m.mem.read addr.toNat).toNat) % 65536 ∧
        exec (.add reg addr) ⟨.a16 m⟩ = .next ⟨.a16 { m with x := m.x.set reg v }⟩) ∧
    (m.mem.cap ≤ addr.toNat →
      exec (.add reg addr) ⟨.a16 m⟩ = .next ⟨.a16 (m.afterFault (.outOfBounds .read addr.toNat))⟩)

/-- R145: SUB Rx, the non-negative remainder modulo 65536. -/
def Obligations.Apache16SubIsModulo65536 : Prop :=
  ∀ (m : Apache 16 4) (r : BitVec 2) (reg : Fin 4) (addr : BitVec 10),
    decode16 (0b0100#4 ++ r ++ addr) = .sub ⟨r.toNat, r.isLt⟩ addr ∧
    (addr.toNat < m.mem.cap →
      ∃ v : BitVec 16, (v.toNat : Int) = ((m.x[reg].toNat : Int) - (m.mem.read addr.toNat).toNat) % 65536 ∧
        exec (.sub reg addr) ⟨.a16 m⟩ = .next ⟨.a16 { m with x := m.x.set reg v }⟩) ∧
    (m.mem.cap ≤ addr.toNat →
      exec (.sub reg addr) ⟨.a16 m⟩ = .next ⟨.a16 (m.afterFault (.outOfBounds .read addr.toNat))⟩)

/-- R146: MUL Rx, the low 16 bits of the product. -/
def Obligations.Apache16MulKeepsTheLowWord : Prop :=
  ∀ (m : Apache 16 4) (r : BitVec 2) (reg : Fin 4) (addr : BitVec 10),
    decode16 (0b0101#4 ++ r ++ addr) = .mul ⟨r.toNat, r.isLt⟩ addr ∧
    (addr.toNat < m.mem.cap →
      ∃ v : BitVec 16, v.toNat = (m.x[reg].toNat * (m.mem.read addr.toNat).toNat) % 65536 ∧
        exec (.mul reg addr) ⟨.a16 m⟩ = .next ⟨.a16 { m with x := m.x.set reg v }⟩) ∧
    (m.mem.cap ≤ addr.toNat →
      exec (.mul reg addr) ⟨.a16 m⟩ = .next ⟨.a16 (m.afterFault (.outOfBounds .read addr.toNat))⟩)

/-- DIV Rx: the operand read first, then the zero test, then the quotient (R147, with the spec's own decision D5). -/
def Obligations.Apache16DivDividesOrFaults : Prop :=
  ∀ (m : Apache 16 4) (r : BitVec 2) (reg : Fin 4) (addr : BitVec 10),
    decode16 (0b0110#4 ++ r ++ addr) = .div ⟨r.toNat, r.isLt⟩ addr ∧
    (addr.toNat < m.mem.cap → (m.mem.read addr.toNat).toNat ≠ 0 →
      ∃ v : BitVec 16, v.toNat = m.x[reg].toNat / (m.mem.read addr.toNat).toNat ∧
        exec (.div reg addr) ⟨.a16 m⟩ = .next ⟨.a16 { m with x := m.x.set reg v }⟩) ∧
    (addr.toNat < m.mem.cap → (m.mem.read addr.toNat).toNat = 0 →
      exec (.div reg addr) ⟨.a16 m⟩ = .next ⟨.a16 (m.afterFault .arithmeticFault)⟩) ∧
    (m.mem.cap ≤ addr.toNat →
      exec (.div reg addr) ⟨.a16 m⟩ = .next ⟨.a16 (m.afterFault (.outOfBounds .read addr.toNat))⟩)

/-- SHR Rx and SHL Rx are logical shifts by the `addr` field, 0 from 16 on, whatever the capacity is (R148, R149, with
the spec's own decision D4). With the OPEN parameter SHIFT_BIG at the spec's default `zero` this is every count; the
other value concerns counts of 16 or more only, and `Apache16BigShiftDrawsAFreeValue` says what happens then. -/
def Obligations.Apache16ShiftsAreLogical : Prop :=
  ∀ (m : Apache 16 4) (r : BitVec 2) (reg : Fin 4) (count : BitVec 10),
    (decode16 (0b0111#4 ++ r ++ count) = .shr ⟨r.toNat, r.isLt⟩ count ∧
      decode16 (0b1000#4 ++ r ++ count) = .shl ⟨r.toNat, r.isLt⟩ count) ∧
    (m.params.shiftBig = .zero ∨ count.toNat < 16 →
      (∃ v : BitVec 16, v.toNat = m.x[reg].toNat / 2 ^ count.toNat ∧ (16 ≤ count.toNat → v = 0) ∧
        exec (.shr reg count) ⟨.a16 m⟩ = .next ⟨.a16 { m with x := m.x.set reg v }⟩) ∧
      (∃ v : BitVec 16, v.toNat = (m.x[reg].toNat * 2 ^ count.toNat) % 65536 ∧ (16 ≤ count.toNat → v = 0) ∧
        exec (.shl reg count) ⟨.a16 m⟩ = .next ⟨.a16 { m with x := m.x.set reg v }⟩))

/-- The model's choice of log 11 (92_eei_decisions.md D4): with SHIFT_BIG at `draw`, a shift by 16 or more writes a free
value, of which the statement says nothing (nor that the two shifts draw the same), and changes nothing else but the
model's count of draws. -/
def Obligations.Apache16BigShiftDrawsAFreeValue : Prop :=
  ∀ (m : Apache 16 4) (reg : Fin 4) (count : BitVec 10), m.params.shiftBig = .draw → 16 ≤ count.toNat →
    (∃ v : BitVec 16,
      exec (.shr reg count) ⟨.a16 m⟩ = .next ⟨.a16 { m with x := m.x.set reg v, draws := m.draws + 1 }⟩) ∧
    (∃ v : BitVec 16,
      exec (.shl reg count) ⟨.a16 m⟩ = .next ⟨.a16 { m with x := m.x.set reg v, draws := m.draws + 1 }⟩)

/-- R150: NOT Rx, and NOT twice restores the state. -/
def Obligations.Apache16NotComplements : Prop :=
  ∀ (m : Apache 16 4) (r : BitVec 2) (reg : Fin 4) (addr : BitVec 10),
    decode16 (0b1001#4 ++ r ++ addr) = .not ⟨r.toNat, r.isLt⟩ ∧
    ∃ v : BitVec 16, v.toNat = 65535 - m.x[reg].toNat ∧
      exec (.not reg) ⟨.a16 m⟩ = .next ⟨.a16 { m with x := m.x.set reg v }⟩ ∧
      exec (.not reg) ⟨.a16 { m with x := m.x.set reg v }⟩ = .next ⟨.a16 m⟩

/-- R151: JUMP of Apache-16, the register field without effect. -/
def Obligations.Apache16JumpSetsPc : Prop :=
  ∀ (m : Apache 16 4) (r : BitVec 2) (addr : BitVec 10),
    decode16 (0b1010#4 ++ r ++ addr) = .jump16 addr ∧
    exec (.jump16 addr) ⟨.a16 m⟩ = .next ⟨.a16 { m with pc := addr.setWidth 16 }⟩ ∧
    (m.mem.cap ≤ addr.toNat →
      ({ m with pc := addr.setWidth 16 } : Apache 16 4).fetch =
        ({ m with pc := addr.setWidth 16 } : Apache 16 4).afterFault (.outOfBounds .fetch addr.toNat))

/-- The reserved opcodes are no-ops on every value of the other bits (R152, R153): only the fetch's `cir` write and `pc`
increment take effect, and the cycle is counted (40_cycle.md R94, R95, R98, with the spec's own decisions D2 and D3). STOP
sets the halt flag and nothing else (R154, which `StopEndsTheRun` states whole). That one step is the whole cycle of a
reserved word is the model's inference (log 6). -/
def Obligations.Apache16ReservedAreNoOpsAndStopHalts : Prop :=
  (∀ (m : Apache 16 4) (r : BitVec 2) (addr : BitVec 10),
    (decode16 (0b1011#4 ++ r ++ addr) = .rsvd11 ∧ decode16 (0b1100#4 ++ r ++ addr) = .rsvd12 ∧
      decode16 (0b1101#4 ++ r ++ addr) = .stop16) ∧
    exec .rsvd11 ⟨.a16 m⟩ = .next ⟨.a16 m⟩ ∧
    exec .rsvd12 ⟨.a16 m⟩ = .next ⟨.a16 m⟩ ∧
    exec .stop16 ⟨.a16 m⟩ = .next ⟨.a16 { m with halt := true }⟩) ∧
  (∀ m : Apache 16 4, m.mem.cap ≤ 1024 → m.ctl = .fetch → m.halt = false → 0 < m.budget → m.pc.toNat < m.mem.cap →
    (m.mem.read m.pc.toNat).toNat / 4096 = 11 ∨ (m.mem.read m.pc.toNat).toNat / 4096 = 12 →
    step ⟨.a16 m⟩ = .next ⟨.a16 { m with
      cir := m.mem.read m.pc.toNat, pc := BitVec.ofNat 16 (m.pc.toNat + 1), budget := m.budget - 1 }⟩)

/-- R155: OUT Rx. -/
def Obligations.Apache16OutEmitsTheRegister : Prop :=
  ∀ (m : Apache 16 4) (r : BitVec 2) (reg : Fin 4) (addr : BitVec 10),
    decode16 (0b1110#4 ++ r ++ addr) = .out ⟨r.toNat, r.isLt⟩ ∧
    exec (.out reg) ⟨.a16 m⟩ = .next ⟨.a16 { m with output := m.output ++ [.value m.x[reg].toNat] }⟩

/-- IN of Apache-16: as for Apache-8, the value truncated to 16 bits, the register field without effect (R156, with the
spec's own decisions D6, D7, D8 and D18). -/
def Obligations.Apache16InPromptsReadsAndStores : Prop :=
  ∀ (m : Apache 16 4) (r : BitVec 2) (addr : BitVec 10),
    decode16 (0b1111#4 ++ r ++ addr) = .in16 addr ∧
    (m.input[m.inPos]? = none →
      exec (.in16 addr) ⟨.a16 m⟩ = .next ⟨.a16 { m with output := m.output ++ [.prompt], ctl := .waitIn }⟩) ∧
    (∀ line v, m.input[m.inPos]? = some line → acceptLine m.params line = .ok v → addr.toNat < m.mem.cap →
      ∃ mem', m.mem.StoredAt mem' addr.toNat (BitVec.ofNat 16 v) ∧
        exec (.in16 addr) ⟨.a16 m⟩ =
          .next ⟨.a16 { m with output := m.output ++ [.prompt], inPos := m.inPos + 1, mem := mem' }⟩) ∧
    (∀ line v, m.input[m.inPos]? = some line → acceptLine m.params line = .ok v → m.mem.cap ≤ addr.toNat →
      exec (.in16 addr) ⟨.a16 m⟩ =
        .next ⟨.a16 (({ m with output := m.output ++ [.prompt], inPos := m.inPos + 1 } : Apache 16 4).afterFault
          (.outOfBounds .write addr.toNat))⟩) ∧
    (∀ line f, m.input[m.inPos]? = some line → acceptLine m.params line = .error f →
      exec (.in16 addr) ⟨.a16 m⟩ =
        .next ⟨.a16 (({ m with output := m.output ++ [.prompt], inPos := m.inPos + 1 } : Apache 16 4).afterFault
          (.parseError .input))⟩)

/-! ## The cycle and the run -/

/-- The fetch goes through the address decoder and writes `cir` (R94); beyond the capacity it faults with `pc` and `cir`
unchanged. The increment modulo `2^W` that follows it, with no bound check, is R95 with the spec's own decision D2. -/
def Obligations.FetchLoadsCirAndIncrementsPc : Prop :=
  ∀ (w n : Nat) (m : Apache w n),
    (m.pc.toNat < m.mem.cap →
      ∃ next : BitVec w, next.toNat = (m.pc.toNat + 1) % 2 ^ w ∧
        m.fetch = { m with cir := m.mem.read m.pc.toNat, pc := next, ctl := .execute }) ∧
    (m.mem.cap ≤ m.pc.toNat → m.fetch = m.afterFault (.outOfBounds .fetch m.pc.toNat))

/-- A step runs the decoded instruction (40_cycle.md R92, R94 to R98, R108, with the spec's own decisions D3 and D20;
the joining of FETCH and EXECUTE in one step is the model's, log 6): at a core about to fetch, with a cycle left and
`pc` within the memory, a step is the fetch and the increment, `exec` of the decoded word, and, when the handler
completed, the decrement of the budget and the return to FETCH. -/
def Obligations.StepRunsTheDecodedInstruction : Prop :=
  (∀ m : Apache 8 2, m.ctl = .fetch → m.halt = false → 0 < m.budget → m.pc.toNat < m.mem.cap →
    ∃ t : Apache 8 2,
      exec (decode8 (m.mem.read m.pc.toNat)) ⟨.a8 { m with
        cir := m.mem.read m.pc.toNat, pc := BitVec.ofNat 8 (m.pc.toNat + 1), ctl := .execute }⟩ = .next ⟨.a8 t⟩ ∧
      step ⟨.a8 m⟩ =
        .next ⟨.a8 (if t.ctl = .execute then { t with budget := t.budget - 1, ctl := .fetch } else t)⟩) ∧
  (∀ m : Apache 16 4, m.mem.cap ≤ 1024 → m.ctl = .fetch → m.halt = false → 0 < m.budget → m.pc.toNat < m.mem.cap →
    ∃ t : Apache 16 4,
      exec (decode16 (m.mem.read m.pc.toNat)) ⟨.a16 { m with
        cir := m.mem.read m.pc.toNat, pc := BitVec.ofNat 16 (m.pc.toNat + 1), ctl := .execute }⟩ = .next ⟨.a16 t⟩ ∧
      step ⟨.a16 m⟩ =
        .next ⟨.a16 (if t.ctl = .execute then { t with budget := t.budget - 1, ctl := .fetch } else t)⟩)

/-- The FETCH rows that fetch nothing (R93, R107, with the spec's own decisions D3, D10 and D12): the halt test comes
first and returns HALTED, then the budget test returns EXHAUSTED; with a cycle left and `pc` beyond the memory the core
faults. -/
def Obligations.HaltAndBudgetAreTestedBeforeTheFetch : Prop :=
  (∀ m : Apache 8 2, m.ctl = .fetch →
    (m.halt = true → step ⟨.a8 m⟩ = .next ⟨.a8 { m with ctl := .halted, outcome := some .halted }⟩) ∧
    (m.halt = false → m.budget = 0 → step ⟨.a8 m⟩ = .next ⟨.a8 { m with ctl := .idle, outcome := some .exhausted }⟩) ∧
    (m.halt = false → 0 < m.budget → m.mem.cap ≤ m.pc.toNat →
      step ⟨.a8 m⟩ = .next ⟨.a8 (m.afterFault (.outOfBounds .fetch m.pc.toNat))⟩)) ∧
  (∀ m : Apache 16 4, m.mem.cap ≤ 1024 → m.ctl = .fetch →
    (m.halt = true → step ⟨.a16 m⟩ = .next ⟨.a16 { m with ctl := .halted, outcome := some .halted }⟩) ∧
    (m.halt = false → m.budget = 0 → step ⟨.a16 m⟩ = .next ⟨.a16 { m with ctl := .idle, outcome := some .exhausted }⟩) ∧
    (m.halt = false → 0 < m.budget → m.mem.cap ≤ m.pc.toNat →
      step ⟨.a16 m⟩ = .next ⟨.a16 (m.afterFault (.outOfBounds .fetch m.pc.toNat))⟩))

/-- After STOP no further instruction is fetched or executed, even if cycles remain (R100, R127, R154): the step of a
STOP, whatever its other bits are, leaves `halt = 1` and the incremented `pc`, its cycle counted (40_cycle.md R94, R95,
R98, with the spec's own decisions D2 and D3), and the next step enters HALTED and returns HALTED (R99, R106, R107, with
decision D12) with `cir`, `pc` and all else as STOP left them. That one step is the whole cycle of the STOP is the model's
inference (log 6). -/
def Obligations.StopEndsTheRun : Prop :=
  (∀ m : Apache 8 2, m.ctl = .fetch → m.halt = false → 0 < m.budget → m.pc.toNat < m.mem.cap →
    (m.mem.read m.pc.toNat).toNat / 16 = 7 →
    ∃ t : Apache 8 2,
      t = { m with cir := m.mem.read m.pc.toNat, pc := BitVec.ofNat 8 (m.pc.toNat + 1), halt := true,
                   budget := m.budget - 1 } ∧
      step ⟨.a8 m⟩ = .next ⟨.a8 t⟩ ∧
      step ⟨.a8 t⟩ = .next ⟨.a8 { t with ctl := .halted, outcome := some .halted }⟩) ∧
  (∀ m : Apache 16 4, m.mem.cap ≤ 1024 → m.ctl = .fetch → m.halt = false → 0 < m.budget → m.pc.toNat < m.mem.cap →
    (m.mem.read m.pc.toNat).toNat / 4096 = 13 →
    ∃ t : Apache 16 4,
      t = { m with cir := m.mem.read m.pc.toNat, pc := BitVec.ofNat 16 (m.pc.toNat + 1), halt := true,
                   budget := m.budget - 1 } ∧
      step ⟨.a16 m⟩ = .next ⟨.a16 t⟩ ∧
      step ⟨.a16 t⟩ = .next ⟨.a16 { t with ctl := .halted, outcome := some .halted }⟩)

/-- A cycle that completes is counted, one whose fetch or handler raised a fault is not; nor is a cycle that still waits
for input (R98, with the spec's own decision D3, and R107). That a step from FETCH is a whole cycle is the model's
inference (log 6). -/
def Obligations.CompletedCyclesAreCounted : Prop :=
  ∀ s t : State, s.ctl = .fetch ∨ s.ctl = .waitIn → s.halt = false → 0 < s.budget → step s = .next t →
    (t.ctl = .fetch ∧ t.budget + 1 = s.budget) ∨
    (t.ctl = .faulted ∧ t.status.isSome = true ∧ t.budget = s.budget) ∨
    (t.ctl = .waitIn ∧ t.budget = s.budget)

/-- A handler's step ends back in FETCH or in FAULTED, and only an IN for which no line has come ends it in WAIT_IN (the
part of 40_cycle.md R105 about cycles other than IN, in the control states of R106 and R107). That a step from FETCH is a
whole cycle is the model's inference (log 6). -/
def Obligations.OnlyInBlocks : Prop :=
  ∀ s t : State, s.ctl = .execute ∨ s.ctl = .fetch ∧ s.halt = false ∧ 0 < s.budget → step s = .next t →
    t.ctl = .fetch ∨ t.ctl = .faulted ∨
    (t.ctl = .waitIn ∧ t.decoded.isIn ∧
      match t.inst with
      | .a8 m => m.input[m.inPos]? = none
      | .a16 m => m.input[m.inPos]? = none)

/-- The WAIT_IN rows of R107, with R180 and R189 (the spec's own decisions D6, D8, D12 and D18): with no line the state
stays as it is; when a line has come, the IN in `cir` stores its truncated value and the cycle is counted, or takes the
fault of the parse or of the store. That the address is taken again from `cir` is the model's inference (log 17). -/
def Obligations.WaitingInResumesWhenALineComes : Prop :=
  (∀ m : Apache 8 2, m.ctl = .waitIn →
    (m.input[m.inPos]? = none → step ⟨.a8 m⟩ = .next ⟨.a8 m⟩) ∧
    (∀ line v, m.input[m.inPos]? = some line → acceptLine m.params line = .ok v → m.cir.toNat % 16 < m.mem.cap →
      ∃ mem', m.mem.StoredAt mem' (m.cir.toNat % 16) (BitVec.ofNat 8 v) ∧
        step ⟨.a8 m⟩ =
          .next ⟨.a8 { m with inPos := m.inPos + 1, mem := mem', budget := m.budget - 1, ctl := .fetch }⟩) ∧
    (∀ line v, m.input[m.inPos]? = some line → acceptLine m.params line = .ok v → m.mem.cap ≤ m.cir.toNat % 16 →
      step ⟨.a8 m⟩ = .next ⟨.a8 (({ m with inPos := m.inPos + 1 } : Apache 8 2).afterFault
        (.outOfBounds .write (m.cir.toNat % 16)))⟩) ∧
    (∀ line f, m.input[m.inPos]? = some line → acceptLine m.params line = .error f →
      step ⟨.a8 m⟩ = .next ⟨.a8 (({ m with inPos := m.inPos + 1 } : Apache 8 2).afterFault (.parseError .input))⟩)) ∧
  (∀ m : Apache 16 4, m.mem.cap ≤ 1024 → m.ctl = .waitIn →
    (m.input[m.inPos]? = none → step ⟨.a16 m⟩ = .next ⟨.a16 m⟩) ∧
    (∀ line v, m.input[m.inPos]? = some line → acceptLine m.params line = .ok v → m.cir.toNat % 1024 < m.mem.cap →
      ∃ mem', m.mem.StoredAt mem' (m.cir.toNat % 1024) (BitVec.ofNat 16 v) ∧
        step ⟨.a16 m⟩ =
          .next ⟨.a16 { m with inPos := m.inPos + 1, mem := mem', budget := m.budget - 1, ctl := .fetch }⟩) ∧
    (∀ line v, m.input[m.inPos]? = some line → acceptLine m.params line = .ok v → m.mem.cap ≤ m.cir.toNat % 1024 →
      step ⟨.a16 m⟩ = .next ⟨.a16 (({ m with inPos := m.inPos + 1 } : Apache 16 4).afterFault
        (.outOfBounds .write (m.cir.toNat % 1024)))⟩) ∧
    (∀ line f, m.input[m.inPos]? = some line → acceptLine m.params line = .error f →
      step ⟨.a16 m⟩ = .next ⟨.a16 (({ m with inPos := m.inPos + 1 } : Apache 16 4).afterFault (.parseError .input))⟩))

/-- Run on an idle core loads the budget and continues from the state there is, everything else unchanged; a budget of 0
executes no cycle (R91, R102 and the Run(N) rows of R107, with the spec's own decisions D10 and D12; that the `outcome`
port shows nothing meanwhile is the model's choice, log 9). -/
def Obligations.RunOnAnIdleCoreContinues : Prop :=
  ∀ (w n budget : Nat) (m : Apache w n), m.ctl = .idle → m.status = none →
    m.callRun budget = { m with budget := budget, ctl := .fetch, outcome := none } ∧
    (m.halt = false → (m.callRun 0).beginCycle = { m with budget := 0, ctl := .idle, outcome := some .exhausted })

/-- A halted or faulted core takes no further step, and Run on it returns the same outcome again and changes nothing
else (R101, R103 and the absorbing states of R106, the spec's own inference and decisions D3, D10 and D12; that Run on a
halted core leaves the budget alone is the model's choice between R93 and R107, log 7). -/
def Obligations.HaltedAndFaultedAreAbsorbing : Prop :=
  (∀ s t : State, s.ctl = .halted ∨ s.ctl = .faulted → step s = .next t → t = s) ∧
  (∀ (w n budget : Nat) (m : Apache w n), m.ctl = .halted →
    m.callRun budget = { m with outcome := some .halted }) ∧
  (∀ (w n budget : Nat) (m : Apache w n) (f : FaultRecord), m.ctl = .faulted → m.status = some f →
    m.callRun budget = { m with outcome := some (.faulted f) }) ∧
  (∀ (w n : Nat) (m : Apache w n) (line : Line), (m.deliver line).ctl = m.ctl ∧ (m.deliver line).status = m.status)

/-- A Run ends within its budget (40_cycle.md R92, R99, R105, with the spec's own decisions D3, D8 and D20): from a core
about to fetch with `N` cycles left, `N + 1` steps bring it to the end of the run or to an IN that waits for its line, in
the control states that R106 and R107 give these (decision D12). That a cycle is one step, which the count rests on, is the
model's inference (log 6). -/
def Obligations.RunEndsWithinItsBudget : Prop :=
  ∀ s : State, s.constructed = true → s.ctl = .fetch →
    ∃ t : State, Host.Core.run Sys2Proof.core (s.budget + 1) s = .next t ∧
      (t.ctl = .idle ∨ t.ctl = .halted ∨ t.ctl = .faulted ∨ t.ctl = .waitIn)

/-- The state machine adds no behaviour to the loop (40_cycle.md R106, decision D12): from an idle core, `N + 1` steps
after Run(N) reach the state that the loop of R93, with the Cycle of R108, ends in, with the same outcome. That a cycle is
one step, which the count rests on, is the model's inference (log 6). -/
def Obligations.StateMachineRefinesTheRunLoop : Prop :=
  ∀ (s : State) (budget : Nat), s.constructed = true → s.ctl = .idle →
    ∃ t : State, Host.Core.run Sys2Proof.core (budget + 1) (s.callRun budget) = .next t ∧
      t.visible = (s.runLoop budget).1.visible ∧
      match (s.runLoop budget).2 with
      | .returned o => t.outcome = some o
      | .waiting => t.ctl = .waitIn

/-! ## Memory -/

/-- R50, R51: the read and write control. The round trip, and that a write changes no other word, is R52, which the spec
infers from them. -/
def Obligations.MemoryRoundTrip : Prop :=
  ∀ (w : Nat) (mem : Memory w) (access : Access) (a : Nat) (v : BitVec w),
    (a < mem.cap →
      mem.get access a = .ok (mem.read a) ∧
      ∃ mem', mem.set a v = .ok mem' ∧ mem'.cap = mem.cap ∧ mem'.get access a = .ok v ∧
        ∀ b, b ≠ a → mem'.get access b = mem.get access b) ∧
    (mem.cap ≤ a →
      mem.get access a = .error (.outOfBounds access a) ∧ mem.set a v = .error (.outOfBounds .write a))

/-- The canonical form: two memories in it with equal capacities that read alike are equal data (20_memory.md R45, R58;
the form is the model's, log 4). -/
def Obligations.CanonicalMemoriesThatReadAlikeAreEqual : Prop :=
  ∀ (w : Nat) (a b : Memory w), a.wf → b.wf → a.cap = b.cap → (∀ i, a.read i = b.read i) → a = b

/-- A STORE or IN that writes the address of the next instruction is seen by the very next fetch (R68, R207, which the
spec marks as its own inferences from R55 and R65). -/
def Obligations.StoreIsSeenByTheNextFetch : Prop :=
  (∀ (m : Apache 8 2) (addr : BitVec 4), addr.toNat < m.mem.cap → m.pc.toNat = addr.toNat →
    (∃ t : Apache 8 2, exec (.storeR0 addr) ⟨.a8 m⟩ = .next ⟨.a8 t⟩ ∧ t.fetch.ctl = .execute ∧ t.fetch.cir = m.x[0]) ∧
    (∃ t : Apache 8 2, exec (.storeR1 addr) ⟨.a8 m⟩ = .next ⟨.a8 t⟩ ∧ t.fetch.ctl = .execute ∧ t.fetch.cir = m.x[1]) ∧
    (∀ line v, m.input[m.inPos]? = some line → acceptLine m.params line = .ok v →
      ∃ t : Apache 8 2, exec (.in8 addr) ⟨.a8 m⟩ = .next ⟨.a8 t⟩ ∧ t.fetch.ctl = .execute ∧
        t.fetch.cir = BitVec.ofNat 8 v)) ∧
  (∀ (m : Apache 16 4) (reg : Fin 4) (addr : BitVec 10), addr.toNat < m.mem.cap → m.pc.toNat = addr.toNat →
    (∃ t : Apache 16 4, exec (.store reg addr) ⟨.a16 m⟩ = .next ⟨.a16 t⟩ ∧ t.fetch.ctl = .execute ∧
      t.fetch.cir = m.x[reg]) ∧
    (∀ line v, m.input[m.inPos]? = some line → acceptLine m.params line = .ok v →
      ∃ t : Apache 16 4, exec (.in16 addr) ⟨.a16 m⟩ = .next ⟨.a16 t⟩ ∧ t.fetch.ctl = .execute ∧
        t.fetch.cir = BitVec.ofNat 16 v))

/-- At most one data access per instruction, at the address of the table of 20_memory.md R56 (R112): two cores that
differ only in memory words an instruction does not read come out differing only in memory words, each word but the
written one as it was, the written one alike or as it was. -/
def Obligations.HandlerUsesOneMemoryWord : Prop :=
  (∀ i : Instr, i.readAddress = none ∨ i.writeAddress = none) ∧
  (∀ (i : Instr) (m t t' : Apache 8 2) (mem' : Memory 8), mem'.cap = m.mem.cap →
    (∀ a, i.readAddress = some a → mem'.read a = m.mem.read a) →
    exec i ⟨.a8 m⟩ = .next ⟨.a8 t⟩ → exec i ⟨.a8 { m with mem := mem' }⟩ = .next ⟨.a8 t'⟩ →
    t' = { t with mem := t'.mem } ∧ t.mem.cap = m.mem.cap ∧ t'.mem.cap = m.mem.cap ∧
    ∀ b, (t.mem.read b = m.mem.read b ∧ t'.mem.read b = mem'.read b) ∨
      (i.writeAddress = some b ∧ t.mem.read b = t'.mem.read b)) ∧
  (∀ (i : Instr) (m t t' : Apache 16 4) (mem' : Memory 16), mem'.cap = m.mem.cap →
    (∀ a, i.readAddress = some a → mem'.read a = m.mem.read a) →
    exec i ⟨.a16 m⟩ = .next ⟨.a16 t⟩ → exec i ⟨.a16 { m with mem := mem' }⟩ = .next ⟨.a16 t'⟩ →
    t' = { t with mem := t'.mem } ∧ t.mem.cap = m.mem.cap ∧ t'.mem.cap = m.mem.cap ∧
    ∀ b, (t.mem.read b = m.mem.read b ∧ t'.mem.read b = mem'.read b) ∨
      (i.writeAddress = some b ∧ t.mem.read b = t'.mem.read b))

/-! ## State, reset and faults -/

/-- After construction every piece of core state has its reset value, over a memory that is all zero as it is created
(10_state.md R24, R28, R41, with the spec's own decisions D3, D10 and D15; 20_memory.md R58). -/
def Obligations.ConstructionGivesTheResetValues : Prop :=
  (∀ (mem : Memory 8) (p : Params), ∃ m : Apache 8 2, constructApache8 mem p = .ok ⟨.a8 m⟩ ∧
    (∀ r : Fin 2, m.x[r] = 0) ∧ m.pc = 0 ∧ m.cir = 0 ∧ m.halt = false ∧ m.status = none ∧ m.budget = 0 ∧
    m.mem = mem ∧ m.ctl = .idle) ∧
  (∀ (mem : Memory 16) (p : Params), mem.cap ≤ 1024 → ∃ m : Apache 16 4, constructApache16 mem p = .ok ⟨.a16 m⟩ ∧
    (∀ r : Fin 4, m.x[r] = 0) ∧ m.pc = 0 ∧ m.cir = 0 ∧ m.halt = false ∧ m.status = none ∧ m.budget = 0 ∧
    m.mem = mem ∧ m.ctl = .idle) ∧
  (∀ w cap a : Nat, (Memory.create w cap).cap = cap ∧ (Memory.create w cap).read a = 0)

/-- The reset input gives every component of the core but memory its reset value and enters IDLE, from every state,
HALTED and FAULTED among them; memory stays as it is (R200, R201, with the spec's own decision D22). -/
def Obligations.ResetRestoresTheCoreAndKeepsMemory : Prop :=
  ∀ (w n : Nat) (m : Apache w n),
    (∀ r : Fin n, m.reset.x[r] = 0) ∧ m.reset.pc = 0 ∧ m.reset.cir = 0 ∧ m.reset.halt = false ∧
    m.reset.status = none ∧ m.reset.budget = 0 ∧ m.reset.ctl = .idle ∧ m.reset.mem = m.mem

/-- Construction of an Apache-16 over more than 1024 words fails with ParseError(CONSTRUCT), 1024 words are accepted, an
Apache-8 is not checked (R202, with the spec's own decision D14); and no step of a state with a larger Apache-16 memory
executes anything (how the model holds such a state is its choice, log 13). -/
def Obligations.ConstructionChecksTheCapacity : Prop :=
  (∀ (mem : Memory 16) (p : Params), 1024 < mem.cap → constructApache16 mem p = .error (.parseError .construct)) ∧
  (∀ (mem : Memory 16) (p : Params), mem.cap ≤ 1024 → ∃ m : Apache 16 4, constructApache16 mem p = .ok ⟨.a16 m⟩ ∧
    m.mem = mem) ∧
  (∀ (mem : Memory 8) (p : Params), ∃ m : Apache 8 2, constructApache8 mem p = .ok ⟨.a8 m⟩ ∧ m.mem = mem) ∧
  (∀ m : Apache 16 4, 1024 < m.mem.cap → step ⟨.a16 m⟩ = .fault .constructionFailed)

/-- The machine right after reset meets the invariant (10_state.md R41). Its configuration (log 2), the canonical form of
its memory (log 4), its empty `outcome` port (log 9) and its empty ports (log 14) are the model's choice. -/
def Obligations.ResetMeetsTheInvariant : Prop := State.reset.Inv

/-- The invariant of the machine is kept by every step: the capacity within the variant's limit (70_reset_and_hazards.md
R202), the input position within the stream (10_state.md R38), the fault status one that the rules raise (R35;
60_exceptions.md R170 to R174), and each control state coherent (40_cycle.md R98, R99, R106, R107, with the spec's own
decisions D3, D8 and D12). The model's choice are the canonical form of memory (log 4), that the `outcome` port shows
nothing in FETCH, EXECUTE and WAIT_IN (log 9), and the stream as a list of delivered lines (log 14). -/
def Obligations.EveryStepKeepsTheInvariant : Prop :=
  ∀ s t : State, s.Inv → step s = .next t → t.Inv

/-- The invariant is kept by these operations of the caller (40_cycle.md R111, 70_reset_and_hazards.md R200, R204): Run,
reset, the delivery of a line, the attaching of an input source, a load, a write, and, on an idle core, a memory built
anew; and a core constructed over a memory in canonical form meets it. The model's choice are the canonical form (log 4),
that Run during a Run changes nothing (log 8), that the `outcome` port shows nothing before a Run returns (log 9), the
ports as lists (log 14), what the attaching of the ports does to them (log 25), and the caller's load, write and building
of memory on a constructed core (logs 22 and 23); that reset leaves the ports as they are is its inference (log 15). -/
def Obligations.TheCallerKeepsTheInvariant : Prop :=
  (∀ (s : State) (budget : Nat), s.Inv → (s.callRun budget).Inv) ∧
  (∀ s : State, s.Inv → s.resetCore.Inv) ∧
  (∀ (s : State) (line : Line), s.Inv → (s.deliver line).Inv) ∧
  (∀ (s : State) (lines : List Line), s.Inv → (s.attachInput lines).Inv) ∧
  (∀ (s : State) (text : List Char), s.Inv → (s.loadProgram text).1.Inv) ∧
  (∀ (s t : State) (a v : Nat), s.Inv → s.writeWord a v = .ok t → t.Inv) ∧
  (∀ (s t : State) (cap : Nat), s.Inv → s.ctl = .idle → s.buildMemory cap = .ok t → t.Inv) ∧
  (∀ (mem : Memory 8) (p : Params) (s : State), mem.wf → constructApache8 mem p = .ok s → s.Inv) ∧
  (∀ (mem : Memory 16) (p : Params) (s : State), mem.wf → constructApache16 mem p = .ok s → s.Inv)

/-- What a handler may write: `cir` and the budget never, `pc` only the jumps, `halt` only STOP, and only to 1, a general
register only the one that the table of R23 gives the instruction (10_state.md R23, R27, R30, R32, R40); the capacity
never (00_scope.md R11; 20_memory.md R45). That the parameters are IN_MAX and SHIFT_BIG, held in the state, is the model's
(decisions D6 and D4; logs 10 and 11), and so is that a handler, which consumes lines (R38), leaves the list of those
delivered as it is (log 14). -/
def Obligations.HandlersWriteOnlyWhatTheTablesAllow : Prop :=
  (∀ (i : Instr) (m t : Apache 8 2), exec i ⟨.a8 m⟩ = .next ⟨.a8 t⟩ →
    (t.cir = m.cir ∧ t.budget = m.budget ∧ t.mem.cap = m.mem.cap ∧ t.params = m.params ∧ t.input = m.input) ∧
    (t.pc ≠ m.pc → i.writesPc) ∧ (t.halt ≠ m.halt → i.isStop ∧ t.halt = true) ∧
    (∀ r : Fin 2, i.writesReg ≠ some r.val → t.x[r] = m.x[r])) ∧
  (∀ (i : Instr) (m t : Apache 16 4), exec i ⟨.a16 m⟩ = .next ⟨.a16 t⟩ →
    (t.cir = m.cir ∧ t.budget = m.budget ∧ t.mem.cap = m.mem.cap ∧ t.params = m.params ∧ t.input = m.input) ∧
    (t.pc ≠ m.pc → i.writesPc) ∧ (t.halt ≠ m.halt → i.isStop ∧ t.halt = true) ∧
    (∀ r : Fin 4, i.writesReg ≠ some r.val → t.x[r] = m.x[r]))

/-- The variant, the capacity and the parameters are fixed: no step changes them (00_scope.md R2 with the spec's own
decision D1, R11). That the parameters are IN_MAX and SHIFT_BIG, held in the state, is the model's (decisions D6 and D4;
logs 10 and 11), and so is that a step leaves the lines delivered as they are (log 14). -/
def Obligations.VariantCapacityAndParametersNeverChange : Prop :=
  ∀ s t : State, step s = .next t →
    t.variant = s.variant ∧ t.cap = s.cap ∧
    match s.inst, t.inst with
    | .a8 m, .a8 u => u.params = m.params ∧ u.input = m.input
    | .a16 m, .a16 u => u.params = m.params ∧ u.input = m.input
    | _, _ => False

/-- The output is the ordered list of the events emitted (60_exceptions.md R183): a step only appends, at most one
event; and an input line once consumed stays consumed, at most one a step (10_state.md R38). -/
def Obligations.PortsOnlyMoveForward : Prop :=
  ∀ s t : State, step s = .next t →
    match s.inst, t.inst with
    | .a8 m, .a8 u => (u.output = m.output ∨ ∃ e, u.output = m.output ++ [e]) ∧
        (u.inPos = m.inPos ∨ u.inPos = m.inPos + 1)
    | .a16 m, .a16 u => (u.output = m.output ∨ ∃ e, u.output = m.output ++ [e]) ∧
        (u.inPos = m.inPos ∨ u.inPos = m.inPos + 1)
    | _, _ => False

/-- Faults are precise: of an instruction that faults, exactly the effects of the table of R176 have happened, none but
the fault entry, and for IN the prompt and one consumed line; the cycle is not counted (R175, R176, with the spec's own
decisions D3 and D7). -/
def Obligations.FaultsArePrecise : Prop :=
  (∀ (i : Instr) (m t : Apache 8 2) (f : FaultRecord), m.status = none → exec i ⟨.a8 m⟩ = .next ⟨.a8 t⟩ →
    t.status = some f →
    (¬ i.isIn → t = m.afterFault f) ∧
    (i.isIn → t = ({ m with output := m.output ++ [.prompt], inPos := m.inPos + 1 } : Apache 8 2).afterFault f) ∧
    t.endCycle = t) ∧
  (∀ (i : Instr) (m t : Apache 16 4) (f : FaultRecord), m.status = none → exec i ⟨.a16 m⟩ = .next ⟨.a16 t⟩ →
    t.status = some f →
    (¬ i.isIn → t = m.afterFault f) ∧
    (i.isIn → t = ({ m with output := m.output ++ [.prompt], inPos := m.inPos + 1 } : Apache 16 4).afterFault f) ∧
    t.endCycle = t) ∧
  (∀ (w n : Nat) (m : Apache w n) (f : FaultRecord), m.status = none → m.fetch.status = some f →
    m.fetch = m.afterFault f ∧ m.mem.cap ≤ m.pc.toNat ∧ f = .outOfBounds .fetch m.pc.toNat)

/-- Which instruction can raise which fault, and when, for a running core (60_exceptions.md R171, R172, R173; that
nothing raises UnknownOpcode is R174, decision D19). -/
def Obligations.FaultsAreThoseOfTheTaxonomy : Prop :=
  (∀ (i : Instr) (m t : Apache 8 2) (f : FaultRecord), m.status = none → exec i ⟨.a8 m⟩ = .next ⟨.a8 t⟩ →
    t.status = some f →
    match f with
    | .outOfBounds access a => m.mem.cap ≤ a ∧
        (access = .read ∧ i.readAddress = some a ∨ access = .write ∧ i.writeAddress = some a)
    | .parseError site => site = .input ∧ i.isIn
    | .arithmeticFault => False
    | .unknownOpcode _ => False) ∧
  (∀ (i : Instr) (m t : Apache 16 4) (f : FaultRecord), m.status = none → exec i ⟨.a16 m⟩ = .next ⟨.a16 t⟩ →
    t.status = some f →
    match f with
    | .outOfBounds access a => m.mem.cap ≤ a ∧
        (access = .read ∧ i.readAddress = some a ∨ access = .write ∧ i.writeAddress = some a)
    | .parseError site => site = .input ∧ i.isIn
    | .arithmeticFault => ∃ r addr, i = .div r addr ∧ m.mem.read addr.toNat = 0
    | .unknownOpcode _ => False)

/-- An instruction answers a next state on an instance of its own variant and is refused by name on the other
(00_scope.md R2; the refusal is the model's choice, log 12); so a constructed core always steps: every word has a
meaning (30_encoding.md R80) and every fault is taken (60_exceptions.md R175, log 1). -/
def Obligations.NoInstructionOfACoreIsRefused : Prop :=
  (∀ (i : Instr) (s : State),
    (i.wellFormed s.variant = true → ∃ t : State, exec i s = .next t ∧ t.variant = s.variant) ∧
    (i.wellFormed s.variant = false → exec i s = .refused .otherVariant)) ∧
  (∀ s : State, s.constructed = true → ∃ t : State, step s = .next t)

/-! ## Ports, loader and boot -/

/-- ParseDecimal accepts exactly the non-empty lines of the characters `0` to `9`, a further digit multiplies the value
by ten and adds its own, and a value above IN_MAX, where that is set, is a ParseError(IN) (the part of R180 about
ParseDecimal, with the spec's own decision D6). -/
def Obligations.ParseDecimalReadsDigitLines : Prop :=
  (∀ line : Line, (parseDecimal line).isSome = true ↔
    line ≠ [] ∧ ∀ c ∈ line, '0'.toNat ≤ c.toNat ∧ c.toNat ≤ '9'.toNat) ∧
  (∀ (line : Line) (v : Nat) (c : Char), parseDecimal line = some v → '0'.toNat ≤ c.toNat → c.toNat ≤ '9'.toNat →
    parseDecimal (line ++ [c]) = some (10 * v + (c.toNat - '0'.toNat))) ∧
  (∀ c : Char, '0'.toNat ≤ c.toNat → c.toNat ≤ '9'.toNat → parseDecimal [c] = some (c.toNat - '0'.toNat)) ∧
  (∀ (p : Params) (line : Line) (v : Nat), parseDecimal line = some v →
    (p.inMax = none → acceptLine p line = .ok v) ∧
    (∀ limit, p.inMax = some limit → v ≤ limit → acceptLine p line = .ok v) ∧
    (∀ limit, p.inMax = some limit → limit < v → acceptLine p line = .error (.parseError .input))) ∧
  (∀ (p : Params) (line : Line), parseDecimal line = none → acceptLine p line = .error (.parseError .input))

/-- PROMPT is the text `> `, VALUE(v) the decimal representation and a newline; the representation reads back as the
value and has no leading zero; the sink holds the texts in order (R181, R182, R183, with the spec's own decision D9). -/
def Obligations.OutputTextIsDecimal : Prop :=
  Event.text .prompt = ['>', ' '] ∧
  (∀ v : Nat, Event.text (.value v) = decimalText v ++ ['\n']) ∧
  (∀ v : Nat, parseDecimal (decimalText v) = some v) ∧
  decimalText 0 = ['0'] ∧
  (∀ v : Nat, 0 < v → (decimalText v).head? ≠ some '0') ∧
  (∀ (events : List Event) (e : Event), sinkText (events ++ [e]) = sinkText events ++ e.text)

/-- LoadProgram cuts its text into lines at each newline, a final line without one still a line (R59). Of a text whose
lines are non-blank lines that hold words, then any more once the memory is full, the words are written to consecutive
addresses from 0, as many as the memory holds; no other word changes, and lines past the capacity raise nothing, malformed
or not (R61, R63, with the spec's own decision D13; that other words keep what they hold is the model's inference,
log 18). -/
def Obligations.LoaderPlacesWordsFromZero : Prop :=
  (splitLines [] = [] ∧
    (∀ line text : List Char, '\n' ∉ line → splitLines (line ++ '\n' :: text) = line :: splitLines text) ∧
    (∀ line : List Char, '\n' ∉ line → line ≠ [] → splitLines line = [line])) ∧
  ∀ (w : Nat) (mem : Memory w) (text : List Char) (lines more : List Line) (words : List (BitVec w)),
    splitLines text = lines ++ more →
    (∀ line ∈ lines, isBlank line = false) → lines.map (parseWord w) = words.map some →
    (more = [] ∨ mem.cap ≤ words.length) →
    (mem.loadProgram text).2 = none ∧
    (mem.loadProgram text).1.cap = mem.cap ∧
    ∀ a, (mem.loadProgram text).1.read a =
      if a < mem.cap then (words[a]?).getD (mem.read a) else mem.read a

/-- A blank line is empty or holds only space, tab and carriage return, and takes no address (R60). The digits of a line
are its characters `0` to `9`, in order, and their value is read in base 2 (R61). The first line that is not blank and has
no digit, or a digit above 1, or a value of `2^W` or more, ends the load with ParseError(LOAD) and the memory as it is
(R62, R64); any other is written as a word and the load goes on (with the spec's own decisions D13 and D21). -/
def Obligations.LoaderStopsAtAMalformedLine : Prop :=
  (∀ line : Line, isBlank line = true ↔ ∀ c ∈ line, c = ' ' ∨ c = '\t' ∨ c = '\r') ∧
  (lineDigits [] = [] ∧
    (∀ (c : Char) (line : Line), '0'.toNat ≤ c.toNat → c.toNat ≤ '9'.toNat →
      lineDigits (c :: line) = (c.toNat - '0'.toNat) :: lineDigits line) ∧
    (∀ (c : Char) (line : Line), c.toNat < '0'.toNat ∨ '9'.toNat < c.toNat → lineDigits (c :: line) = lineDigits line)) ∧
  (binaryValue [] = 0 ∧ ∀ (digits : List Nat) (d : Nat), binaryValue (digits ++ [d]) = 2 * binaryValue digits + d) ∧
  ∀ (w : Nat) (mem : Memory w) (before after : List Line) (line : Line) (k : Nat),
    (∀ l ∈ before, ∀ c ∈ l, c = ' ' ∨ c = '\t' ∨ c = '\r') → k < mem.cap →
    (∃ c ∈ line, c ≠ ' ' ∧ c ≠ '\t' ∧ c ≠ '\r') →
    (lineDigits line = [] ∨ (∃ d ∈ lineDigits line, 1 < d) ∨ 2 ^ w ≤ binaryValue (lineDigits line) →
      loadLines (before ++ line :: after) k mem = (mem, some (.parseError .load))) ∧
    (lineDigits line ≠ [] → (∀ d ∈ lineDigits line, d ≤ 1) → binaryValue (lineDigits line) < 2 ^ w →
      loadLines (before ++ line :: after) k mem =
        loadLines after (k + 1) (mem.put k (BitVec.ofNat w (binaryValue (lineDigits line)))))

/-- A line holds a word exactly when its digit characters, whatever stands between them, are a non-empty string of `0` and
`1` whose value `sum d_i * 2^i` is below `2^W`, however many digits they are, and the word is that value; every other line
holds none: one without a digit, one with a digit `2` to `9`, one whose value is too large (R61, R62, with the spec's own
decision D13). So the binary numeral of a word, most significant bit first, after any number of zeros, is that word
(R87). -/
def Obligations.LoaderReadsBinaryNumerals : Prop :=
  (∀ (w : Nat) (line : Line) (bits : List Bool), bits ≠ [] →
    line.filter (fun c => '0'.toNat ≤ c.toNat && c.toNat ≤ '9'.toNat) = bits.map (fun b => if b then '1' else '0') →
    let value := (bits.reverse.zipIdx.map (fun b => if b.1 then 2 ^ b.2 else 0)).sum
    (value < 2 ^ w → parseWord w line = some (BitVec.ofNat w value)) ∧ (2 ^ w ≤ value → parseWord w line = none)) ∧
  (∀ (w : Nat) (line : Line), (∀ c ∈ line, c.toNat < '0'.toNat ∨ '9'.toNat < c.toNat) → parseWord w line = none) ∧
  (∀ (w : Nat) (line : Line), (∃ c ∈ line, '2'.toNat ≤ c.toNat ∧ c.toNat ≤ '9'.toNat) → parseWord w line = none) ∧
  (∀ (w zeros : Nat) (v : BitVec w) (line : Line), 0 < w →
    line.filter (fun c => (digitValue c).isSome) =
      List.replicate zeros '0' ++ (List.range w).reverse.map (fun i => if v.getLsbD i then '1' else '0') →
    parseWord w line = some v)

/-- After the boot sequence the first instruction executed is `M[0]`: the first step fetches it (70_reset_and_hazards.md
R203). The boot sequence gives the core of R204's list, loaded before it is constructed; a failed load ends it with its
error, and an Apache-16 over more than 1024 words ends it with ParseError(CONSTRUCT), whatever the text (60_exceptions.md
R177; that construction goes first, as R204 allows, is the model's choice, log 21). The memory of a constructed core can
also be built anew, loaded and written by the caller, all else as it was (R204 with the spec's own decision D21; logs 22
and 23). -/
def Obligations.BootFetchesWordZeroFirst : Prop :=
  (∀ (cap budget : Nat) (text : List Char) (lines : List Line) (p : Params) (mem : Memory 8),
    (Memory.create 8 cap).loadProgram text = (mem, none) →
    (∃ s : State, constructApache8 mem p = .ok s ∧
      bootApache8 cap text lines p budget = .ok ((s.attachInput lines).callRun budget)) ∧
    (0 < cap → 0 < budget →
      ∃ (s : State) (t : Apache 8 2), bootApache8 cap text lines p budget = .ok s ∧ step s = .next ⟨.a8 t⟩ ∧
        t.cir = mem.read 0)) ∧
  (∀ (cap budget : Nat) (text : List Char) (lines : List Line) (p : Params) (mem : Memory 16),
    (Memory.create 16 cap).loadProgram text = (mem, none) → cap ≤ 1024 →
    (∃ s : State, constructApache16 mem p = .ok s ∧
      bootApache16 cap text lines p budget = .ok ((s.attachInput lines).callRun budget)) ∧
    (0 < cap → 0 < budget →
      ∃ (s : State) (t : Apache 16 4), bootApache16 cap text lines p budget = .ok s ∧ step s = .next ⟨.a16 t⟩ ∧
        t.cir = mem.read 0)) ∧
  (∀ (cap budget : Nat) (text : List Char) (lines : List Line) (p : Params) (f : FaultRecord),
    (((Memory.create 8 cap).loadProgram text).2 = some f → bootApache8 cap text lines p budget = .error f) ∧
    (cap ≤ 1024 → ((Memory.create 16 cap).loadProgram text).2 = some f →
      bootApache16 cap text lines p budget = .error f) ∧
    (1024 < cap → bootApache16 cap text lines p budget = .error (.parseError .construct))) ∧
  (∀ (m : Apache 8 2) (text : List Char) (cap a : Nat) (v : BitVec 8),
    State.loadProgram text ⟨.a8 m⟩ = (⟨.a8 { m with mem := (m.mem.loadProgram text).1 }⟩, (m.mem.loadProgram text).2) ∧
    State.buildMemory cap ⟨.a8 m⟩ = .ok ⟨.a8 { m with mem := Memory.create 8 cap }⟩ ∧
    (a < m.mem.cap → ∃ mem', m.mem.StoredAt mem' a v ∧
      State.writeWord a v.toNat ⟨.a8 m⟩ = .ok ⟨.a8 { m with mem := mem' }⟩) ∧
    (m.mem.cap ≤ a → State.writeWord a v.toNat ⟨.a8 m⟩ = .error (.outOfBounds .write a))) ∧
  (∀ (m : Apache 16 4) (text : List Char) (cap a : Nat) (v : BitVec 16),
    State.loadProgram text ⟨.a16 m⟩ = (⟨.a16 { m with mem := (m.mem.loadProgram text).1 }⟩, (m.mem.loadProgram text).2) ∧
    (cap ≤ 1024 → State.buildMemory cap ⟨.a16 m⟩ = .ok ⟨.a16 { m with mem := Memory.create 16 cap }⟩) ∧
    (1024 < cap → State.buildMemory cap ⟨.a16 m⟩ = .error (.parseError .construct)) ∧
    (a < m.mem.cap → ∃ mem', m.mem.StoredAt mem' a v ∧
      State.writeWord a v.toNat ⟨.a16 m⟩ = .ok ⟨.a16 { m with mem := mem' }⟩) ∧
    (m.mem.cap ≤ a → State.writeWord a v.toNat ⟨.a16 m⟩ = .error (.outOfBounds .write a)))
end

