-- ==== Sys2Proof/Laws/Alu.lean ====
section
/-! SUPPORT. The arithmetic in terms of numbers, and as the bit vector operations of the same names. -/

namespace Sys2Proof.Machine

variable {w : Nat}

@[simp] theorem trunc_toNat (v : Nat) : (trunc w v).toNat = v % 2 ^ w := by simp [trunc]

theorem aluAdd_toNat (a b : BitVec w) : (aluAdd a b).toNat = (a.toNat + b.toNat) % 2 ^ w := by simp [aluAdd]

theorem aluAdd_eq (a b : BitVec w) : aluAdd a b = a + b := BitVec.eq_of_toNat_eq (by simp [aluAdd])

/-- The difference is the non-negative remainder (R14, R145). -/
theorem aluSub_toNat (a b : BitVec w) : ((aluSub a b).toNat : Int) = ((a.toNat : Int) - b.toNat) % (2 ^ w : Nat) := by
  rw [aluSub, BitVec.toNat_ofInt, Int.toNat_of_nonneg]
  exact Int.emod_nonneg _ (by simp)

theorem aluSub_eq (a b : BitVec w) : aluSub a b = a - b := by
  have h := aluSub_toNat a b
  have e := BitVec.toNat_sub a b
  apply BitVec.eq_of_toNat_eq
  have hb := b.isLt
  rw [e]
  zify [Nat.le_of_lt hb] at *
  rw [h]
  have : ((2 : Int) ^ w - b.toNat + a.toNat) = ((a.toNat : Int) - b.toNat) + 2 ^ w := by ring
  rw [this, Int.add_emod_right]

theorem aluMul_toNat (a b : BitVec w) : (aluMul a b).toNat = (a.toNat * b.toNat) % 2 ^ w := by simp [aluMul]

theorem aluMul_eq (a b : BitVec w) : aluMul a b = a * b := BitVec.eq_of_toNat_eq (by simp [aluMul])

/-- The quotient always fits (R157). -/
theorem aluDiv_toNat (a b : BitVec w) : (aluDiv a b).toNat = a.toNat / b.toNat := by
  rw [aluDiv, trunc_toNat]
  exact Nat.mod_eq_of_lt (Nat.lt_of_le_of_lt (Nat.div_le_self _ _) a.isLt)

theorem aluShl_toNat (a : BitVec w) (k : Nat) : (aluShl a k).toNat = (a.toNat * 2 ^ k) % 2 ^ w := by
  unfold aluShl
  split
  · simp
  · next h =>
    obtain ⟨j, rfl⟩ := Nat.exists_eq_add_of_le (Nat.not_lt.1 h)
    rw [Nat.pow_add, Nat.mul_left_comm, Nat.mul_mod_right]
    rfl

theorem aluShr_toNat (a : BitVec w) (k : Nat) : (aluShr a k).toNat = a.toNat / 2 ^ k := by
  unfold aluShr
  split
  · rw [trunc_toNat]
    exact Nat.mod_eq_of_lt (Nat.lt_of_le_of_lt (Nat.div_le_self _ _) a.isLt)
  · next h =>
    rw [Nat.div_eq_of_lt (Nat.lt_of_lt_of_le a.isLt (Nat.pow_le_pow_right (by decide) (Nat.not_lt.1 h)))]
    rfl

theorem aluNot_toNat (a : BitVec w) : (aluNot a).toNat = 2 ^ w - 1 - a.toNat := by
  rw [aluNot, trunc_toNat]
  exact Nat.mod_eq_of_lt (by have := Nat.two_pow_pos w; omega)

theorem aluNot_eq (a : BitVec w) : aluNot a = ~~~a := BitVec.eq_of_toNat_eq (by rw [aluNot_toNat, BitVec.toNat_not])

end Sys2Proof.Machine
end

