-- ==== Sys2Proof/Laws/Memory.lean ====
section
/-! SUPPORT. The laws of memory: what a read gives after a write (spec/20_memory.md R52), and that every memory operation
keeps the canonical form. -/

namespace Sys2Proof.Machine

variable {w : Nat}

/-! ## Lookup in a list of cells -/

@[simp] theorem lookupCell_nil (a : Nat) : lookupCell ([] : List (Cell w)) a = 0 := rfl

theorem lookupCell_cons (b : Nat) (v : BitVec w) (cells : List (Cell w)) (a : Nat) :
    lookupCell ((b, v) :: cells) a = if b = a then v else lookupCell cells a := rfl

/-- An address no cell has reads as 0. -/
theorem lookupCell_of_absent {cells : List (Cell w)} {a : Nat} (h : ∀ c ∈ cells, c.1 ≠ a) : lookupCell cells a = 0 := by
  induction cells with
  | nil => rfl
  | cons c cells ih =>
    obtain ⟨b, v⟩ := c
    rw [lookupCell_cons, if_neg (h (b, v) (by simp))]
    exact ih fun d hd => h d (by simp [hd])

/-- A list whose cells are all elsewhere does not matter in front. -/
theorem lookupCell_append_of_absent {front : List (Cell w)} (back : List (Cell w)) {a : Nat}
    (h : ∀ c ∈ front, c.1 ≠ a) : lookupCell (front ++ back) a = lookupCell back a := by
  induction front with
  | nil => rfl
  | cons c front ih =>
    obtain ⟨b, v⟩ := c
    rw [List.cons_append, lookupCell_cons, if_neg (h (b, v) (by simp))]
    exact ih fun d hd => h d (by simp [hd])

/-- A list whose cells are all elsewhere does not matter behind. -/
theorem lookupCell_append_absent (front : List (Cell w)) {back : List (Cell w)} {a : Nat}
    (h : ∀ c ∈ back, c.1 ≠ a) : lookupCell (front ++ back) a = lookupCell front a := by
  induction front with
  | nil => simpa using lookupCell_of_absent h
  | cons c front ih =>
    obtain ⟨b, v⟩ := c
    rw [List.cons_append, lookupCell_cons, lookupCell_cons, ih]

/-- Cells of other addresses can be filtered away. -/
theorem lookupCell_filter {cells : List (Cell w)} {a : Nat} {keep : Cell w → Bool} (h : ∀ v, keep (a, v) = true) :
    lookupCell (cells.filter keep) a = lookupCell cells a := by
  induction cells with
  | nil => rfl
  | cons c cells ih =>
    obtain ⟨b, v⟩ := c
    by_cases hb : b = a
    · subst hb; simp [h, lookupCell_cons]
    · cases hk : keep (b, v) <;> simp [hk, lookupCell_cons, hb, ih]

theorem cellFor_addr {a : Nat} {v : BitVec w} {c : Cell w} (h : c ∈ cellFor a v) : c = (a, v) ∧ v ≠ 0 := by
  unfold cellFor at h
  split at h
  · simp at h
  · exact ⟨by simpa using h, ‹_›⟩

@[simp] theorem lookupCell_cellFor (a : Nat) (v : BitVec w) : lookupCell (cellFor a v) a = v := by
  unfold cellFor
  split
  · next h => simp [h]
  · simp [lookupCell_cons]

/-! ## Reads after a write -/

@[simp] theorem Memory.put_cap (mem : Memory w) (a : Nat) (v : BitVec w) : (mem.put a v).cap = mem.cap := rfl

@[simp] theorem Memory.create_cap (cap : Nat) : (Memory.create w cap).cap = cap := rfl

/-- A memory as it is created reads 0 everywhere (R58). -/
@[simp] theorem Memory.create_read (cap a : Nat) : (Memory.create w cap).read a = 0 := rfl

/-- The word written is the word read (R52). -/
@[simp] theorem Memory.put_read_self (mem : Memory w) (a : Nat) (v : BitVec w) : (mem.put a v).read a = v := by
  unfold Memory.read Memory.put
  rw [lookupCell_append_of_absent, lookupCell_append_absent, lookupCell_cellFor]
  · intro c hc; simp at hc; omega
  · intro c hc; simp at hc; omega

/-- A write leaves every other word alone (R52). -/
theorem Memory.put_read_ne (mem : Memory w) {a b : Nat} (v : BitVec w) (h : b ≠ a) :
    (mem.put a v).read b = mem.read b := by
  unfold Memory.read Memory.put
  have other : ∀ c ∈ cellFor a v, c.1 ≠ b := fun c hc => by
    rw [(cellFor_addr hc).1]; exact fun e => h e.symm
  rcases Nat.lt_or_gt_of_ne h with hlt | hgt
  · rw [lookupCell_append_absent, lookupCell_filter (fun v => by simpa using hlt)]
    intro c hc
    rcases List.mem_append.1 hc with hc | hc
    · exact other c hc
    · simp at hc; omega
  · rw [lookupCell_append_of_absent, lookupCell_append_of_absent _ other,
      lookupCell_filter (fun v => by simpa using hgt)]
    intro c hc; simp at hc; omega

theorem Memory.put_read (mem : Memory w) (a b : Nat) (v : BitVec w) :
    (mem.put a v).read b = if b = a then v else mem.read b := by
  split
  · next h => rw [h, put_read_self]
  · next h => exact put_read_ne mem v h

/-! ## The read and write control -/

theorem Memory.get_valid {mem : Memory w} {a : Nat} (access : Access) (h : a < mem.cap) :
    mem.get access a = .ok (mem.read a) := if_pos h

theorem Memory.get_invalid {mem : Memory w} {a : Nat} (access : Access) (h : mem.cap ≤ a) :
    mem.get access a = .error (.outOfBounds access a) := if_neg (Nat.not_lt.2 h)

theorem Memory.set_valid {mem : Memory w} {a : Nat} (v : BitVec w) (h : a < mem.cap) :
    mem.set a v = .ok (mem.put a v) := if_pos h

theorem Memory.set_invalid {mem : Memory w} {a : Nat} (v : BitVec w) (h : mem.cap ≤ a) :
    mem.set a v = .error (.outOfBounds .write a) := if_neg (Nat.not_lt.2 h)

/-! ## The canonical form -/

theorem Memory.create_wf (cap : Nat) : (Memory.create w cap).wf :=
  ⟨List.Pairwise.nil, fun _ h => absurd h List.not_mem_nil⟩

/-- The memory of the machine right after reset is in the canonical form. -/
theorem State.reset_memory_wf :
    match State.reset.inst with
    | .a8 m => m.mem.wf
    | .a16 m => m.mem.wf :=
  Memory.create_wf _

/-- A write to a valid address keeps the canonical form. -/
theorem Memory.put_wf {mem : Memory w} {a : Nat} (v : BitVec w) (hm : mem.wf) (ha : a < mem.cap) : (mem.put a v).wf := by
  obtain ⟨hs, hc⟩ := hm
  constructor
  · unfold Memory.put
    refine List.pairwise_append.2 ⟨hs.filter _, List.pairwise_append.2 ⟨?_, hs.filter _, ?_⟩, ?_⟩
    · unfold cellFor; split <;> simp
    · intro c hcc d hd
      rw [(cellFor_addr hcc).1]
      simpa using (List.mem_filter.1 hd).2
    · intro c hcc d hd
      have hlt : c.1 < a := by simpa using (List.mem_filter.1 hcc).2
      rcases List.mem_append.1 hd with hd | hd
      · rw [(cellFor_addr hd).1]; exact hlt
      · have : a < d.1 := by simpa using (List.mem_filter.1 hd).2
        omega
  · intro c hcc
    rcases List.mem_append.1 hcc with h | h
    · exact hc c (List.mem_filter.1 h).1
    · rcases List.mem_append.1 h with h | h
      · obtain ⟨he, hv⟩ := cellFor_addr h
        rw [he]; exact ⟨hv, ha⟩
      · exact hc c (List.mem_filter.1 h).1

theorem Memory.set_wf {mem mem' : Memory w} {a : Nat} {v : BitVec w} (hm : mem.wf) (h : mem.set a v = .ok mem') :
    mem'.wf := by
  by_cases ha : a < mem.cap
  · rw [Memory.set_valid v ha] at h
    injection h with h
    exact h ▸ put_wf v hm ha
  · rw [Memory.set_invalid v (Nat.not_lt.1 ha)] at h
    cases h

theorem Memory.set_cap {mem mem' : Memory w} {a : Nat} {v : BitVec w} (h : mem.set a v = .ok mem') :
    mem'.cap = mem.cap := by
  by_cases ha : a < mem.cap
  · rw [Memory.set_valid v ha] at h
    injection h with h
    exact h ▸ rfl
  · rw [Memory.set_invalid v (Nat.not_lt.1 ha)] at h
    cases h

/-- Loading keeps the canonical form (R59 to R63). -/
theorem loadLines_wf (lines : List Line) (k : Nat) {mem : Memory w} (h : mem.wf) : (loadLines lines k mem).1.wf := by
  induction lines generalizing k mem with
  | nil => exact h
  | cons line lines ih =>
    unfold loadLines
    split
    · exact h
    · next hk =>
      split
      · exact ih k h
      · split
        · exact ih (k + 1) (Memory.put_wf _ h (Nat.not_le.1 hk))
        · exact h

theorem Memory.loadProgram_wf {mem : Memory w} (text : List Char) (h : mem.wf) : (mem.loadProgram text).1.wf :=
  loadLines_wf _ _ h

end Sys2Proof.Machine
end

