-- ==== Sys2Proof/Laws/State.lean ====
section
/-! SUPPORT. One lemma per field per update of a core, true by rfl, so that no proof unfolds a record update; and the
two variants under `State.lift`. -/

namespace Sys2Proof.Machine

variable {w n : Nat}

/-! ## A write to a general register (R15) -/

@[simp] theorem Apache.writeReg_x (m : Apache w n) (r : Fin n) (v : BitVec w) : (m.writeReg r v).x = m.x.set r v := rfl
@[simp] theorem Apache.writeReg_pc (m : Apache w n) (r : Fin n) (v : BitVec w) : (m.writeReg r v).pc = m.pc := rfl
@[simp] theorem Apache.writeReg_cir (m : Apache w n) (r : Fin n) (v : BitVec w) : (m.writeReg r v).cir = m.cir := rfl
@[simp] theorem Apache.writeReg_halt (m : Apache w n) (r : Fin n) (v : BitVec w) : (m.writeReg r v).halt = m.halt := rfl
@[simp] theorem Apache.writeReg_status (m : Apache w n) (r : Fin n) (v : BitVec w) : (m.writeReg r v).status = m.status := rfl
@[simp] theorem Apache.writeReg_budget (m : Apache w n) (r : Fin n) (v : BitVec w) : (m.writeReg r v).budget = m.budget := rfl
@[simp] theorem Apache.writeReg_mem (m : Apache w n) (r : Fin n) (v : BitVec w) : (m.writeReg r v).mem = m.mem := rfl
@[simp] theorem Apache.writeReg_ctl (m : Apache w n) (r : Fin n) (v : BitVec w) : (m.writeReg r v).ctl = m.ctl := rfl
@[simp] theorem Apache.writeReg_outcome (m : Apache w n) (r : Fin n) (v : BitVec w) : (m.writeReg r v).outcome = m.outcome := rfl
@[simp] theorem Apache.writeReg_input (m : Apache w n) (r : Fin n) (v : BitVec w) : (m.writeReg r v).input = m.input := rfl
@[simp] theorem Apache.writeReg_inPos (m : Apache w n) (r : Fin n) (v : BitVec w) : (m.writeReg r v).inPos = m.inPos := rfl
@[simp] theorem Apache.writeReg_output (m : Apache w n) (r : Fin n) (v : BitVec w) : (m.writeReg r v).output = m.output := rfl
@[simp] theorem Apache.writeReg_params (m : Apache w n) (r : Fin n) (v : BitVec w) : (m.writeReg r v).params = m.params := rfl
@[simp] theorem Apache.writeReg_draws (m : Apache w n) (r : Fin n) (v : BitVec w) : (m.writeReg r v).draws = m.draws := rfl

/-! ## A write to `pc` (R15) -/

@[simp] theorem Apache.setPc_x (m : Apache w n) (target : BitVec w) : (m.setPc target).x = m.x := rfl
@[simp] theorem Apache.setPc_pc (m : Apache w n) (target : BitVec w) : (m.setPc target).pc = target := rfl
@[simp] theorem Apache.setPc_cir (m : Apache w n) (target : BitVec w) : (m.setPc target).cir = m.cir := rfl
@[simp] theorem Apache.setPc_halt (m : Apache w n) (target : BitVec w) : (m.setPc target).halt = m.halt := rfl
@[simp] theorem Apache.setPc_status (m : Apache w n) (target : BitVec w) : (m.setPc target).status = m.status := rfl
@[simp] theorem Apache.setPc_budget (m : Apache w n) (target : BitVec w) : (m.setPc target).budget = m.budget := rfl
@[simp] theorem Apache.setPc_mem (m : Apache w n) (target : BitVec w) : (m.setPc target).mem = m.mem := rfl
@[simp] theorem Apache.setPc_ctl (m : Apache w n) (target : BitVec w) : (m.setPc target).ctl = m.ctl := rfl
@[simp] theorem Apache.setPc_outcome (m : Apache w n) (target : BitVec w) : (m.setPc target).outcome = m.outcome := rfl
@[simp] theorem Apache.setPc_input (m : Apache w n) (target : BitVec w) : (m.setPc target).input = m.input := rfl
@[simp] theorem Apache.setPc_inPos (m : Apache w n) (target : BitVec w) : (m.setPc target).inPos = m.inPos := rfl
@[simp] theorem Apache.setPc_output (m : Apache w n) (target : BitVec w) : (m.setPc target).output = m.output := rfl
@[simp] theorem Apache.setPc_params (m : Apache w n) (target : BitVec w) : (m.setPc target).params = m.params := rfl
@[simp] theorem Apache.setPc_draws (m : Apache w n) (target : BitVec w) : (m.setPc target).draws = m.draws := rfl

/-! ## The write to `halt` (R32) -/

@[simp] theorem Apache.setHalt_x (m : Apache w n) : (m.setHalt).x = m.x := rfl
@[simp] theorem Apache.setHalt_pc (m : Apache w n) : (m.setHalt).pc = m.pc := rfl
@[simp] theorem Apache.setHalt_cir (m : Apache w n) : (m.setHalt).cir = m.cir := rfl
@[simp] theorem Apache.setHalt_halt (m : Apache w n) : (m.setHalt).halt = true := rfl
@[simp] theorem Apache.setHalt_status (m : Apache w n) : (m.setHalt).status = m.status := rfl
@[simp] theorem Apache.setHalt_budget (m : Apache w n) : (m.setHalt).budget = m.budget := rfl
@[simp] theorem Apache.setHalt_mem (m : Apache w n) : (m.setHalt).mem = m.mem := rfl
@[simp] theorem Apache.setHalt_ctl (m : Apache w n) : (m.setHalt).ctl = m.ctl := rfl
@[simp] theorem Apache.setHalt_outcome (m : Apache w n) : (m.setHalt).outcome = m.outcome := rfl
@[simp] theorem Apache.setHalt_input (m : Apache w n) : (m.setHalt).input = m.input := rfl
@[simp] theorem Apache.setHalt_inPos (m : Apache w n) : (m.setHalt).inPos = m.inPos := rfl
@[simp] theorem Apache.setHalt_output (m : Apache w n) : (m.setHalt).output = m.output := rfl
@[simp] theorem Apache.setHalt_params (m : Apache w n) : (m.setHalt).params = m.params := rfl
@[simp] theorem Apache.setHalt_draws (m : Apache w n) : (m.setHalt).draws = m.draws := rfl

/-! ## Fault entry (R175) -/

@[simp] theorem Apache.raise_x (m : Apache w n) (f : FaultRecord) : (m.raise f).x = m.x := rfl
@[simp] theorem Apache.raise_pc (m : Apache w n) (f : FaultRecord) : (m.raise f).pc = m.pc := rfl
@[simp] theorem Apache.raise_cir (m : Apache w n) (f : FaultRecord) : (m.raise f).cir = m.cir := rfl
@[simp] theorem Apache.raise_halt (m : Apache w n) (f : FaultRecord) : (m.raise f).halt = m.halt := rfl
@[simp] theorem Apache.raise_status (m : Apache w n) (f : FaultRecord) : (m.raise f).status = some f := rfl
@[simp] theorem Apache.raise_budget (m : Apache w n) (f : FaultRecord) : (m.raise f).budget = m.budget := rfl
@[simp] theorem Apache.raise_mem (m : Apache w n) (f : FaultRecord) : (m.raise f).mem = m.mem := rfl
@[simp] theorem Apache.raise_ctl (m : Apache w n) (f : FaultRecord) : (m.raise f).ctl = .faulted := rfl
@[simp] theorem Apache.raise_outcome (m : Apache w n) (f : FaultRecord) : (m.raise f).outcome = some (.faulted f) := rfl
@[simp] theorem Apache.raise_input (m : Apache w n) (f : FaultRecord) : (m.raise f).input = m.input := rfl
@[simp] theorem Apache.raise_inPos (m : Apache w n) (f : FaultRecord) : (m.raise f).inPos = m.inPos := rfl
@[simp] theorem Apache.raise_output (m : Apache w n) (f : FaultRecord) : (m.raise f).output = m.output := rfl
@[simp] theorem Apache.raise_params (m : Apache w n) (f : FaultRecord) : (m.raise f).params = m.params := rfl
@[simp] theorem Apache.raise_draws (m : Apache w n) (f : FaultRecord) : (m.raise f).draws = m.draws := rfl

/-! ## An output event (R183) -/

@[simp] theorem Apache.emit_x (m : Apache w n) (e : Event) : (m.emit e).x = m.x := rfl
@[simp] theorem Apache.emit_pc (m : Apache w n) (e : Event) : (m.emit e).pc = m.pc := rfl
@[simp] theorem Apache.emit_cir (m : Apache w n) (e : Event) : (m.emit e).cir = m.cir := rfl
@[simp] theorem Apache.emit_halt (m : Apache w n) (e : Event) : (m.emit e).halt = m.halt := rfl
@[simp] theorem Apache.emit_status (m : Apache w n) (e : Event) : (m.emit e).status = m.status := rfl
@[simp] theorem Apache.emit_budget (m : Apache w n) (e : Event) : (m.emit e).budget = m.budget := rfl
@[simp] theorem Apache.emit_mem (m : Apache w n) (e : Event) : (m.emit e).mem = m.mem := rfl
@[simp] theorem Apache.emit_ctl (m : Apache w n) (e : Event) : (m.emit e).ctl = m.ctl := rfl
@[simp] theorem Apache.emit_outcome (m : Apache w n) (e : Event) : (m.emit e).outcome = m.outcome := rfl
@[simp] theorem Apache.emit_input (m : Apache w n) (e : Event) : (m.emit e).input = m.input := rfl
@[simp] theorem Apache.emit_inPos (m : Apache w n) (e : Event) : (m.emit e).inPos = m.inPos := rfl
@[simp] theorem Apache.emit_output (m : Apache w n) (e : Event) : (m.emit e).output = m.output ++ [e] := rfl
@[simp] theorem Apache.emit_params (m : Apache w n) (e : Event) : (m.emit e).params = m.params := rfl
@[simp] theorem Apache.emit_draws (m : Apache w n) (e : Event) : (m.emit e).draws = m.draws := rfl

/-! ## The return of Run (R107) -/

@[simp] theorem Apache.endRun_x (m : Apache w n) (c : Control) (o : RunOutcome) : (m.endRun c o).x = m.x := rfl
@[simp] theorem Apache.endRun_pc (m : Apache w n) (c : Control) (o : RunOutcome) : (m.endRun c o).pc = m.pc := rfl
@[simp] theorem Apache.endRun_cir (m : Apache w n) (c : Control) (o : RunOutcome) : (m.endRun c o).cir = m.cir := rfl
@[simp] theorem Apache.endRun_halt (m : Apache w n) (c : Control) (o : RunOutcome) : (m.endRun c o).halt = m.halt := rfl
@[simp] theorem Apache.endRun_status (m : Apache w n) (c : Control) (o : RunOutcome) : (m.endRun c o).status = m.status := rfl
@[simp] theorem Apache.endRun_budget (m : Apache w n) (c : Control) (o : RunOutcome) : (m.endRun c o).budget = m.budget := rfl
@[simp] theorem Apache.endRun_mem (m : Apache w n) (c : Control) (o : RunOutcome) : (m.endRun c o).mem = m.mem := rfl
@[simp] theorem Apache.endRun_ctl (m : Apache w n) (c : Control) (o : RunOutcome) : (m.endRun c o).ctl = c := rfl
@[simp] theorem Apache.endRun_outcome (m : Apache w n) (c : Control) (o : RunOutcome) : (m.endRun c o).outcome = some o := rfl
@[simp] theorem Apache.endRun_input (m : Apache w n) (c : Control) (o : RunOutcome) : (m.endRun c o).input = m.input := rfl
@[simp] theorem Apache.endRun_inPos (m : Apache w n) (c : Control) (o : RunOutcome) : (m.endRun c o).inPos = m.inPos := rfl
@[simp] theorem Apache.endRun_output (m : Apache w n) (c : Control) (o : RunOutcome) : (m.endRun c o).output = m.output := rfl
@[simp] theorem Apache.endRun_params (m : Apache w n) (c : Control) (o : RunOutcome) : (m.endRun c o).params = m.params := rfl
@[simp] theorem Apache.endRun_draws (m : Apache w n) (c : Control) (o : RunOutcome) : (m.endRun c o).draws = m.draws := rfl

/-! ## The handler of a waiting IN taken up again (R107) -/

@[simp] theorem Apache.wake_x (m : Apache w n) : (m.wake).x = m.x := rfl
@[simp] theorem Apache.wake_pc (m : Apache w n) : (m.wake).pc = m.pc := rfl
@[simp] theorem Apache.wake_cir (m : Apache w n) : (m.wake).cir = m.cir := rfl
@[simp] theorem Apache.wake_halt (m : Apache w n) : (m.wake).halt = m.halt := rfl
@[simp] theorem Apache.wake_status (m : Apache w n) : (m.wake).status = m.status := rfl
@[simp] theorem Apache.wake_budget (m : Apache w n) : (m.wake).budget = m.budget := rfl
@[simp] theorem Apache.wake_mem (m : Apache w n) : (m.wake).mem = m.mem := rfl
@[simp] theorem Apache.wake_ctl (m : Apache w n) : (m.wake).ctl = .execute := rfl
@[simp] theorem Apache.wake_outcome (m : Apache w n) : (m.wake).outcome = m.outcome := rfl
@[simp] theorem Apache.wake_input (m : Apache w n) : (m.wake).input = m.input := rfl
@[simp] theorem Apache.wake_inPos (m : Apache w n) : (m.wake).inPos = m.inPos := rfl
@[simp] theorem Apache.wake_output (m : Apache w n) : (m.wake).output = m.output := rfl
@[simp] theorem Apache.wake_params (m : Apache w n) : (m.wake).params = m.params := rfl
@[simp] theorem Apache.wake_draws (m : Apache w n) : (m.wake).draws = m.draws := rfl

/-! ## The delivery of an input line (R180) -/

@[simp] theorem Apache.deliver_x (m : Apache w n) (line : Line) : (m.deliver line).x = m.x := rfl
@[simp] theorem Apache.deliver_pc (m : Apache w n) (line : Line) : (m.deliver line).pc = m.pc := rfl
@[simp] theorem Apache.deliver_cir (m : Apache w n) (line : Line) : (m.deliver line).cir = m.cir := rfl
@[simp] theorem Apache.deliver_halt (m : Apache w n) (line : Line) : (m.deliver line).halt = m.halt := rfl
@[simp] theorem Apache.deliver_status (m : Apache w n) (line : Line) : (m.deliver line).status = m.status := rfl
@[simp] theorem Apache.deliver_budget (m : Apache w n) (line : Line) : (m.deliver line).budget = m.budget := rfl
@[simp] theorem Apache.deliver_mem (m : Apache w n) (line : Line) : (m.deliver line).mem = m.mem := rfl
@[simp] theorem Apache.deliver_ctl (m : Apache w n) (line : Line) : (m.deliver line).ctl = m.ctl := rfl
@[simp] theorem Apache.deliver_outcome (m : Apache w n) (line : Line) : (m.deliver line).outcome = m.outcome := rfl
@[simp] theorem Apache.deliver_input (m : Apache w n) (line : Line) : (m.deliver line).input = m.input ++ [line] := rfl
@[simp] theorem Apache.deliver_inPos (m : Apache w n) (line : Line) : (m.deliver line).inPos = m.inPos := rfl
@[simp] theorem Apache.deliver_output (m : Apache w n) (line : Line) : (m.deliver line).output = m.output := rfl
@[simp] theorem Apache.deliver_params (m : Apache w n) (line : Line) : (m.deliver line).params = m.params := rfl
@[simp] theorem Apache.deliver_draws (m : Apache w n) (line : Line) : (m.deliver line).draws = m.draws := rfl

/-! ## A fresh core (R41) -/

@[simp] theorem Apache.fresh_x (mem : Memory w) (p : Params) : (Apache.fresh w n mem p).x = Vector.replicate n 0 := rfl
@[simp] theorem Apache.fresh_pc (mem : Memory w) (p : Params) : (Apache.fresh w n mem p).pc = 0 := rfl
@[simp] theorem Apache.fresh_cir (mem : Memory w) (p : Params) : (Apache.fresh w n mem p).cir = 0 := rfl
@[simp] theorem Apache.fresh_halt (mem : Memory w) (p : Params) : (Apache.fresh w n mem p).halt = false := rfl
@[simp] theorem Apache.fresh_status (mem : Memory w) (p : Params) : (Apache.fresh w n mem p).status = none := rfl
@[simp] theorem Apache.fresh_budget (mem : Memory w) (p : Params) : (Apache.fresh w n mem p).budget = 0 := rfl
@[simp] theorem Apache.fresh_mem (mem : Memory w) (p : Params) : (Apache.fresh w n mem p).mem = mem := rfl
@[simp] theorem Apache.fresh_ctl (mem : Memory w) (p : Params) : (Apache.fresh w n mem p).ctl = .idle := rfl
@[simp] theorem Apache.fresh_outcome (mem : Memory w) (p : Params) : (Apache.fresh w n mem p).outcome = none := rfl
@[simp] theorem Apache.fresh_input (mem : Memory w) (p : Params) : (Apache.fresh w n mem p).input = [] := rfl
@[simp] theorem Apache.fresh_inPos (mem : Memory w) (p : Params) : (Apache.fresh w n mem p).inPos = 0 := rfl
@[simp] theorem Apache.fresh_output (mem : Memory w) (p : Params) : (Apache.fresh w n mem p).output = [] := rfl
@[simp] theorem Apache.fresh_params (mem : Memory w) (p : Params) : (Apache.fresh w n mem p).params = p := rfl
@[simp] theorem Apache.fresh_draws (mem : Memory w) (p : Params) : (Apache.fresh w n mem p).draws = 0 := rfl

/-! ## The reset input (R200, R201) -/

@[simp] theorem Apache.reset_x (m : Apache w n) : m.reset.x = Vector.replicate n 0 := rfl
@[simp] theorem Apache.reset_pc (m : Apache w n) : m.reset.pc = 0 := rfl
@[simp] theorem Apache.reset_cir (m : Apache w n) : m.reset.cir = 0 := rfl
@[simp] theorem Apache.reset_halt (m : Apache w n) : m.reset.halt = false := rfl
@[simp] theorem Apache.reset_status (m : Apache w n) : m.reset.status = none := rfl
@[simp] theorem Apache.reset_budget (m : Apache w n) : m.reset.budget = 0 := rfl
@[simp] theorem Apache.reset_mem (m : Apache w n) : m.reset.mem = m.mem := rfl
@[simp] theorem Apache.reset_ctl (m : Apache w n) : m.reset.ctl = .idle := rfl
@[simp] theorem Apache.reset_outcome (m : Apache w n) : m.reset.outcome = none := rfl
@[simp] theorem Apache.reset_input (m : Apache w n) : m.reset.input = m.input := rfl
@[simp] theorem Apache.reset_inPos (m : Apache w n) : m.reset.inPos = m.inPos := rfl
@[simp] theorem Apache.reset_output (m : Apache w n) : m.reset.output = m.output := rfl
@[simp] theorem Apache.reset_params (m : Apache w n) : m.reset.params = m.params := rfl
@[simp] theorem Apache.reset_draws (m : Apache w n) : m.reset.draws = m.draws := rfl

/-! ## The two variants -/

@[simp] theorem State.lift_a8 (f : (w n : Nat) → Apache w n → Apache w n) (m : Apache 8 2) :
    State.lift f ⟨.a8 m⟩ = ⟨.a8 (f 8 2 m)⟩ := rfl

@[simp] theorem State.lift_a16 (f : (w n : Nat) → Apache w n → Apache w n) (m : Apache 16 4) :
    State.lift f ⟨.a16 m⟩ = ⟨.a16 (f 16 4 m)⟩ := rfl

@[simp] theorem State.variant_a8 (m : Apache 8 2) : State.variant ⟨.a8 m⟩ = .a8 := rfl
@[simp] theorem State.variant_a16 (m : Apache 16 4) : State.variant ⟨.a16 m⟩ = .a16 := rfl
@[simp] theorem State.ctl_a8 (m : Apache 8 2) : State.ctl ⟨.a8 m⟩ = m.ctl := rfl
@[simp] theorem State.ctl_a16 (m : Apache 16 4) : State.ctl ⟨.a16 m⟩ = m.ctl := rfl
@[simp] theorem State.cap_a8 (m : Apache 8 2) : State.cap ⟨.a8 m⟩ = m.mem.cap := rfl
@[simp] theorem State.cap_a16 (m : Apache 16 4) : State.cap ⟨.a16 m⟩ = m.mem.cap := rfl
@[simp] theorem State.halt_a8 (m : Apache 8 2) : State.halt ⟨.a8 m⟩ = m.halt := rfl
@[simp] theorem State.halt_a16 (m : Apache 16 4) : State.halt ⟨.a16 m⟩ = m.halt := rfl
@[simp] theorem State.status_a8 (m : Apache 8 2) : State.status ⟨.a8 m⟩ = m.status := rfl
@[simp] theorem State.status_a16 (m : Apache 16 4) : State.status ⟨.a16 m⟩ = m.status := rfl
@[simp] theorem State.budget_a8 (m : Apache 8 2) : State.budget ⟨.a8 m⟩ = m.budget := rfl
@[simp] theorem State.budget_a16 (m : Apache 16 4) : State.budget ⟨.a16 m⟩ = m.budget := rfl
@[simp] theorem State.outcome_a8 (m : Apache 8 2) : State.outcome ⟨.a8 m⟩ = m.outcome := rfl
@[simp] theorem State.outcome_a16 (m : Apache 16 4) : State.outcome ⟨.a16 m⟩ = m.outcome := rfl
@[simp] theorem State.decoded_a8 (m : Apache 8 2) : State.decoded ⟨.a8 m⟩ = decode8 m.cir := rfl
@[simp] theorem State.decoded_a16 (m : Apache 16 4) : State.decoded ⟨.a16 m⟩ = decode16 m.cir := rfl
@[simp] theorem State.constructed_a8 (m : Apache 8 2) : State.constructed ⟨.a8 m⟩ = true := rfl

@[simp] theorem State.constructed_a16 (m : Apache 16 4) :
    State.constructed ⟨.a16 m⟩ = decide (m.mem.cap ≤ 1024) := rfl

@[simp] theorem onApache8_a8 (f : Apache 8 2 → Apache 8 2) (m : Apache 8 2) :
    onApache8 f ⟨.a8 m⟩ = .next ⟨.a8 (f m)⟩ := rfl

@[simp] theorem onApache8_a16 (f : Apache 8 2 → Apache 8 2) (m : Apache 16 4) :
    onApache8 f ⟨.a16 m⟩ = .refused .otherVariant := rfl

@[simp] theorem onApache16_a16 (f : Apache 16 4 → Apache 16 4) (m : Apache 16 4) :
    onApache16 f ⟨.a16 m⟩ = .next ⟨.a16 (f m)⟩ := rfl

@[simp] theorem onApache16_a8 (f : Apache 16 4 → Apache 16 4) (m : Apache 8 2) :
    onApache16 f ⟨.a8 m⟩ = .refused .otherVariant := rfl

end Sys2Proof.Machine
end

