-- ==== Sys2Proof/Laws/Ops.lean ====
section
/-! SUPPORT. What each shared operation does, said once: the proofs cite these lemmas and unfold no operation. -/

namespace Sys2Proof.Machine

variable {w n : Nat}

/-! ## Operands -/

@[simp] theorem wordAddress_eq {k : Nat} (addr : BitVec k) : wordAddress addr = addr.toNat := rfl

@[simp] theorem shiftCount_eq (count : BitVec 10) : shiftCount count = count.toNat := rfl

/-- A jump target is the field's value (R75, R76). -/
theorem jumpTarget_toNat {k : Nat} (addr : BitVec k) (h : k ≤ w) : (jumpTarget w addr).toNat = addr.toNat := by
  simp only [jumpTarget, BitVec.toNat_ofNat]
  exact Nat.mod_eq_of_lt (Nat.lt_of_lt_of_le addr.isLt (Nat.pow_le_pow_right (by decide) h))

theorem jumpTarget_eq_setWidth {k : Nat} (addr : BitVec k) : jumpTarget w addr = addr.setWidth w := by
  simp [jumpTarget]

theorem withOperand_valid {m : Apache w n} {a : Nat} (rest : BitVec w → Apache w n → Apache w n) (h : a < m.mem.cap) :
    m.withOperand a rest = rest (m.mem.read a) m := by
  simp [Apache.withOperand, Memory.get_valid _ h]

theorem withOperand_invalid {m : Apache w n} {a : Nat} (rest : BitVec w → Apache w n → Apache w n)
    (h : m.mem.cap ≤ a) : m.withOperand a rest = m.raise (.outOfBounds .read a) := by
  simp [Apache.withOperand, Memory.get_invalid _ h]

theorem storeOperand_valid {m : Apache w n} {a : Nat} (v : BitVec w) (h : a < m.mem.cap) :
    m.storeOperand a v = { m with mem := m.mem.put a v } := by
  simp [Apache.storeOperand, Memory.set_valid _ h]

theorem storeOperand_invalid {m : Apache w n} {a : Nat} (v : BitVec w) (h : m.mem.cap ≤ a) :
    m.storeOperand a v = m.raise (.outOfBounds .write a) := by
  simp [Apache.storeOperand, Memory.set_invalid _ h]

/-- An operand read either runs the rest of the handler or takes the fault (R16, R50). -/
theorem withOperand_cases (m : Apache w n) (a : Nat) (rest : BitVec w → Apache w n → Apache w n) :
    (a < m.mem.cap ∧ m.withOperand a rest = rest (m.mem.read a) m) ∨
    (m.mem.cap ≤ a ∧ m.withOperand a rest = m.raise (.outOfBounds .read a)) :=
  (Nat.lt_or_ge a m.mem.cap).imp (fun h => ⟨h, withOperand_valid rest h⟩) (fun h => ⟨h, withOperand_invalid rest h⟩)

/-- An operand write either writes the one word or takes the fault (R51). -/
theorem storeOperand_cases (m : Apache w n) (a : Nat) (v : BitVec w) :
    (a < m.mem.cap ∧ m.storeOperand a v = { m with mem := m.mem.put a v }) ∨
    (m.mem.cap ≤ a ∧ m.storeOperand a v = m.raise (.outOfBounds .write a)) :=
  (Nat.lt_or_ge a m.mem.cap).imp (fun h => ⟨h, storeOperand_valid v h⟩) (fun h => ⟨h, storeOperand_invalid v h⟩)

/-! ## Input (R180) -/

theorem acceptLine_of_none {params : Params} {line : Line} (h : parseDecimal line = none) :
    acceptLine params line = .error (.parseError .input) := by
  simp [acceptLine, h]

/-- The only error of a line is ParseError(IN). -/
theorem acceptLine_error {params : Params} {line : Line} {f : FaultRecord} (h : acceptLine params line = .error f) :
    f = .parseError .input := by
  unfold acceptLine at h
  split at h
  · injection h with h; exact h.symm
  · split at h
    · cases h
    · split at h
      · cases h
      · injection h with h; exact h.symm

theorem resumeIn_waits {m : Apache w n} (a : Nat) (h : m.input[m.inPos]? = none) :
    m.resumeIn a = { m with ctl := .waitIn } := by
  simp [Apache.resumeIn, h]

theorem resumeIn_accepts {m : Apache w n} (a : Nat) {line : Line} {v : Nat} (h : m.input[m.inPos]? = some line)
    (hv : acceptLine m.params line = .ok v) :
    m.resumeIn a = ({ m with inPos := m.inPos + 1 } : Apache w n).storeOperand a (trunc w v) := by
  simp [Apache.resumeIn, h, hv]

theorem resumeIn_rejects {m : Apache w n} (a : Nat) {line : Line} {f : FaultRecord} (h : m.input[m.inPos]? = some line)
    (hf : acceptLine m.params line = .error f) :
    m.resumeIn a = ({ m with inPos := m.inPos + 1 } : Apache w n).raise f := by
  simp [Apache.resumeIn, h, hf]

/-! ## Handlers -/

theorem isZero_iff (v : BitVec w) : isZero v = true ↔ v = 0 := beq_iff_eq

theorem isZero_of_ne {v : BitVec w} (h : v ≠ 0) : ¬ isZero v = true := fun e => h ((isZero_iff v).1 e)

theorem jumpz_taken {m : Apache w n} {r : Fin n} (target : BitVec w) (h : m.x[r] = 0) :
    m.jumpz r target = m.setPc target :=
  if_pos ((isZero_iff _).2 h)

theorem jumpz_not_taken {m : Apache w n} {r : Fin n} (target : BitVec w) (h : m.x[r] ≠ 0) :
    m.jumpz r target = m :=
  if_neg (isZero_of_ne h)

theorem div_valid {m : Apache w n} (r : Fin n) {a : Nat} (h : a < m.mem.cap) (hd : m.mem.read a ≠ 0) :
    m.div r a = m.writeReg r (aluDiv m.x[r] (m.mem.read a)) := by
  rw [Apache.div, withOperand_valid _ h]
  exact if_neg (isZero_of_ne hd)

theorem div_by_zero {m : Apache w n} (r : Fin n) {a : Nat} (h : a < m.mem.cap) (hd : m.mem.read a = 0) :
    m.div r a = m.raise .arithmeticFault := by
  rw [Apache.div, withOperand_valid _ h]
  exact if_pos ((isZero_iff _).2 hd)

theorem div_invalid {m : Apache w n} (r : Fin n) {a : Nat} (h : m.mem.cap ≤ a) :
    m.div r a = m.raise (.outOfBounds .read a) :=
  withOperand_invalid _ h

theorem writeShift_plain {m : Apache 16 4} (r : Fin 4) {k : Nat} (v : BitVec 16)
    (h : m.params.shiftBig = .zero ∨ k < 16) : m.writeShift r k v = m.writeReg r v := by
  unfold Apache.writeShift
  rcases h with h | h
  · simp [h]
  · cases m.params.shiftBig <;> simp [h]

theorem writeShift_draw {m : Apache 16 4} (r : Fin 4) {k : Nat} (v : BitVec 16)
    (h : m.params.shiftBig = .draw) (hk : 16 ≤ k) :
    m.writeShift r k v = { m.writeReg r (Config.shiftDraw m.draws) with draws := m.draws + 1 } := by
  simp [Apache.writeShift, h, Nat.not_lt.2 hk]

/-! ## The cycle -/

theorem fetch_valid {m : Apache w n} (h : m.pc.toNat < m.mem.cap) :
    m.fetch = { m with cir := m.mem.read m.pc.toNat, pc := nextPc m.pc, ctl := .execute } := by
  simp [Apache.fetch, Memory.get_valid _ h]

theorem fetch_invalid {m : Apache w n} (h : m.mem.cap ≤ m.pc.toNat) :
    m.fetch = m.raise (.outOfBounds .fetch m.pc.toNat) := by
  simp [Apache.fetch, Memory.get_invalid _ h]

theorem nextPc_toNat (pc : BitVec w) : (nextPc pc).toNat = (pc.toNat + 1) % 2 ^ w := by simp [nextPc]

theorem beginCycle_halted {m : Apache w n} (h : m.halt = true) : m.beginCycle = m.endRun .halted .halted := by
  simp [Apache.beginCycle, h]

theorem beginCycle_exhausted {m : Apache w n} (h : m.halt = false) (hb : m.budget = 0) :
    m.beginCycle = m.endRun .idle .exhausted := by
  simp [Apache.beginCycle, h, hb]

theorem beginCycle_fetch {m : Apache w n} (h : m.halt = false) (hb : 0 < m.budget) : m.beginCycle = m.fetch := by
  simp [Apache.beginCycle, h, Nat.ne_of_gt hb]

theorem endCycle_completed {m : Apache w n} (h : m.ctl = .execute) :
    m.endCycle = { m with budget := m.budget - 1, ctl := .fetch } := by
  simp [Apache.endCycle, h]

theorem endCycle_other {m : Apache w n} (h : m.ctl ≠ .execute) : m.endCycle = m := by
  unfold Apache.endCycle
  split
  · exact absurd ‹_› h
  all_goals rfl

/-! ## IN after its prompt -/

/-- The ways an IN continues after its prompt (R107, R180): it waits, the line is rejected, its address is out of bounds, or
its value is stored. -/
theorem resumeIn_cases (m : Apache w n) (a : Nat) :
    (m.input[m.inPos]? = none ∧ m.resumeIn a = { m with ctl := .waitIn }) ∨
    (∃ line, m.input[m.inPos]? = some line ∧ acceptLine m.params line = .error (.parseError .input) ∧
      m.resumeIn a = ({ m with inPos := m.inPos + 1 } : Apache w n).raise (.parseError .input)) ∨
    (∃ line v, m.input[m.inPos]? = some line ∧ acceptLine m.params line = .ok v ∧ m.mem.cap ≤ a ∧
      m.resumeIn a = ({ m with inPos := m.inPos + 1 } : Apache w n).raise (.outOfBounds .write a)) ∨
    (∃ line v, m.input[m.inPos]? = some line ∧ acceptLine m.params line = .ok v ∧ a < m.mem.cap ∧
      m.resumeIn a = { m with inPos := m.inPos + 1, mem := m.mem.put a (trunc w v) }) := by
  cases hl : m.input[m.inPos]? with
  | none => exact .inl ⟨rfl, resumeIn_waits a hl⟩
  | some line =>
    refine .inr ?_
    cases hv : acceptLine m.params line with
    | error f =>
      have hf := acceptLine_error hv
      subst hf
      exact .inl ⟨line, rfl, hv, resumeIn_rejects a hl hv⟩
    | ok v =>
      refine .inr ?_
      by_cases ha : a < m.mem.cap
      · exact .inr ⟨line, v, rfl, hv, ha, by rw [resumeIn_accepts a hl hv, storeOperand_valid _ (by exact ha)]⟩
      · have ha := Nat.not_lt.1 ha
        exact .inl ⟨line, v, rfl, hv, ha, by rw [resumeIn_accepts a hl hv, storeOperand_invalid _ (by exact ha)]⟩

end Sys2Proof.Machine
end

