-- ==== Sys2Proof/Laws/Effect.lean ====
section
/-! SUPPORT. What the meaning of an instruction can do to a core, said once for all instructions: the forms a next state
can take. A proof about every instruction goes by cases on these forms instead of on the thirty-two meanings. -/

namespace Sys2Proof.Machine

/-- Why an instruction that is no IN raises record `f` on core `m` (60_exceptions.md R171, R173). -/
def RaisedBy {w n : Nat} (i : Instr) (m : Apache w n) (f : FaultRecord) : Prop :=
  (∃ a, i.readAddress = some a ∧ m.mem.cap ≤ a ∧ f = .outOfBounds .read a) ∨
  (∃ a, i.writeAddress = some a ∧ m.mem.cap ≤ a ∧ f = .outOfBounds .write a) ∨
  (f = .arithmeticFault ∧ ∃ r addr, i = .div r addr ∧ m.mem.read addr.toNat = 0)

/-- The forms of the core after a handler. -/
inductive Effect {w n : Nat} (i : Instr) (m : Apache w n) : Apache w n → Prop where
  | nothing (h : ¬ i.isIn) : Effect i m m
  | writesReg (r : Fin n) (v : BitVec w) (h : i.writesReg = some r.val) (hi : ¬ i.isIn) : Effect i m (m.writeReg r v)
  | draws (r : Fin n) (v : BitVec w) (h : i.writesReg = some r.val) (hi : ¬ i.isIn) :
      Effect i m { m.writeReg r v with draws := m.draws + 1 }
  | stores (a : Nat) (v : BitVec w) (h : i.writeAddress = some a) (ha : a < m.mem.cap) (hi : ¬ i.isIn) :
      Effect i m { m with mem := m.mem.put a v }
  | jumps (target : BitVec w) (h : i.writesPc) (hi : ¬ i.isIn) : Effect i m (m.setPc target)
  | halts (h : i.isStop) (hi : ¬ i.isIn) : Effect i m m.setHalt
  | emits (v : Nat) (hi : ¬ i.isIn) : Effect i m (m.emit (.value v))
  | faults (f : FaultRecord) (h : RaisedBy i m f) (hi : ¬ i.isIn) : Effect i m (m.raise f)
  | reads (a : Nat) (h : i.writeAddress = some a) (hi : i.isIn) : Effect i m ((m.emit .prompt).resumeIn a)

variable {w n : Nat}

/-- A handler that reads an operand and then writes one register. -/
theorem Effect.of_operand {i : Instr} {m : Apache w n} {a : Nat} {rest : BitVec w → Apache w n → Apache w n}
    (r : Fin n) (f : BitVec w → BitVec w) (ha : i.readAddress = some a) (hr : i.writesReg = some r.val)
    (hi : ¬ i.isIn) (hrest : ∀ v, rest v m = m.writeReg r (f v)) : Effect i m (m.withOperand a rest) := by
  rcases withOperand_cases m a rest with ⟨_, e⟩ | ⟨h, e⟩
  · rw [e, hrest]; exact .writesReg r _ hr hi
  · rw [e]; exact .faults _ (.inl ⟨a, ha, h, rfl⟩) hi

theorem Effect.of_store {i : Instr} {m : Apache w n} {a : Nat} (v : BitVec w) (ha : i.writeAddress = some a)
    (hi : ¬ i.isIn) : Effect i m (m.storeOperand a v) := by
  rcases storeOperand_cases m a v with ⟨h, e⟩ | ⟨h, e⟩
  · rw [e]; exact .stores a v ha h hi
  · rw [e]; exact .faults _ (.inr (.inl ⟨a, ha, h, rfl⟩)) hi

theorem Effect.of_jumpz {i : Instr} {m : Apache w n} (r : Fin n) (target : BitVec w) (h : i.writesPc)
    (hi : ¬ i.isIn) : Effect i m (m.jumpz r target) := by
  by_cases hz : m.x[r] = 0
  · rw [jumpz_taken target hz]; exact .jumps target h hi
  · rw [jumpz_not_taken target hz]; exact .nothing hi

theorem Effect.of_div {m : Apache 16 4} (r : Fin 4) (addr : BitVec 10) (hi : ¬ (Instr.div r addr).isIn) :
    Effect (.div r addr) m (m.div r addr.toNat) := by
  rcases Nat.lt_or_ge addr.toNat m.mem.cap with h | h
  · by_cases hd : m.mem.read addr.toNat = 0
    · rw [div_by_zero r h hd]; exact .faults _ (.inr (.inr ⟨rfl, r, addr, rfl, hd⟩)) hi
    · rw [div_valid r h hd]; exact .writesReg r _ rfl hi
  · rw [div_invalid r h]; exact .faults _ (.inl ⟨_, rfl, h, rfl⟩) hi

theorem Effect.of_shift {i : Instr} {m : Apache 16 4} (r : Fin 4) (k : Nat) (v : BitVec 16)
    (hr : i.writesReg = some r.val) (hi : ¬ i.isIn) : Effect i m (m.writeShift r k v) := by
  unfold Apache.writeShift
  split
  · exact .writesReg r _ hr hi
  · split
    · exact .writesReg r _ hr hi
    · exact .draws r _ hr hi

/-- What `exec` can answer on an Apache-8: the instruction is one of its own, and the next state has one of the forms. -/
theorem exec_apache8 {i : Instr} {m : Apache 8 2} {s : State} (h : exec i ⟨.a8 m⟩ = .next s) :
    i.variant = .a8 ∧ ∃ t, s = ⟨.a8 t⟩ ∧ Effect i m t := by
  cases i with
  | loadR0 addr => cases h; exact ⟨rfl, _, rfl, .of_operand 0 id rfl rfl (by simp [Instr.isIn]) fun _ => rfl⟩
  | storeR0 addr => cases h; exact ⟨rfl, _, rfl, .of_store _ rfl (by simp [Instr.isIn])⟩
  | jumpzR0 addr => cases h; exact ⟨rfl, _, rfl, .of_jumpz 0 _ (by simp [Instr.writesPc]) (by simp [Instr.isIn])⟩
  | addR0 addr => cases h; exact ⟨rfl, _, rfl, .of_operand 0 (aluAdd m.x[0]) rfl rfl (by simp [Instr.isIn]) fun _ => rfl⟩
  | shlR0 => cases h; exact ⟨rfl, _, rfl, .writesReg 0 _ rfl (by simp [Instr.isIn])⟩
  | notR0 => cases h; exact ⟨rfl, _, rfl, .writesReg 0 _ rfl (by simp [Instr.isIn])⟩
  | loadR1 addr => cases h; exact ⟨rfl, _, rfl, .of_operand 1 id rfl rfl (by simp [Instr.isIn]) fun _ => rfl⟩
  | storeR1 addr => cases h; exact ⟨rfl, _, rfl, .of_store _ rfl (by simp [Instr.isIn])⟩
  | jumpzR1 addr => cases h; exact ⟨rfl, _, rfl, .of_jumpz 1 _ (by simp [Instr.writesPc]) (by simp [Instr.isIn])⟩
  | addR1 addr => cases h; exact ⟨rfl, _, rfl, .of_operand 1 (aluAdd m.x[1]) rfl rfl (by simp [Instr.isIn]) fun _ => rfl⟩
  | shlR1 => cases h; exact ⟨rfl, _, rfl, .writesReg 1 _ rfl (by simp [Instr.isIn])⟩
  | notR1 => cases h; exact ⟨rfl, _, rfl, .writesReg 1 _ rfl (by simp [Instr.isIn])⟩
  | jump8 addr => cases h; exact ⟨rfl, _, rfl, .jumps _ (by simp [Instr.writesPc]) (by simp [Instr.isIn])⟩
  | stop8 => cases h; exact ⟨rfl, _, rfl, .halts (.inl rfl) (by simp [Instr.isIn])⟩
  | outR0 => cases h; exact ⟨rfl, _, rfl, .emits _ (by simp [Instr.isIn])⟩
  | in8 addr => cases h; exact ⟨rfl, _, rfl, .reads _ rfl (.inl ⟨_, rfl⟩)⟩
  | load _ _ => cases h
  | store _ _ => cases h
  | jumpz _ _ => cases h
  | add _ _ => cases h
  | sub _ _ => cases h
  | mul _ _ => cases h
  | div _ _ => cases h
  | shr _ _ => cases h
  | shl _ _ => cases h
  | not _ => cases h
  | jump16 _ => cases h
  | rsvd11 => cases h
  | rsvd12 => cases h
  | stop16 => cases h
  | out _ => cases h
  | in16 _ => cases h

/-- What `exec` can answer on an Apache-16: the instruction is one of its own, and the next state has one of the forms. -/
theorem exec_apache16 {i : Instr} {m : Apache 16 4} {s : State} (h : exec i ⟨.a16 m⟩ = .next s) :
    i.variant = .a16 ∧ ∃ t, s = ⟨.a16 t⟩ ∧ Effect i m t := by
  cases i with
  | load reg addr => cases h; exact ⟨rfl, _, rfl, .of_operand reg id rfl rfl (by simp [Instr.isIn]) fun _ => rfl⟩
  | store reg addr => cases h; exact ⟨rfl, _, rfl, .of_store _ rfl (by simp [Instr.isIn])⟩
  | jumpz reg addr => cases h; exact ⟨rfl, _, rfl, .of_jumpz reg _ (by simp [Instr.writesPc]) (by simp [Instr.isIn])⟩
  | add reg addr => cases h; exact ⟨rfl, _, rfl, .of_operand reg (aluAdd m.x[reg]) rfl rfl (by simp [Instr.isIn]) fun _ => rfl⟩
  | sub reg addr => cases h; exact ⟨rfl, _, rfl, .of_operand reg (aluSub m.x[reg]) rfl rfl (by simp [Instr.isIn]) fun _ => rfl⟩
  | mul reg addr => cases h; exact ⟨rfl, _, rfl, .of_operand reg (aluMul m.x[reg]) rfl rfl (by simp [Instr.isIn]) fun _ => rfl⟩
  | div reg addr => cases h; exact ⟨rfl, _, rfl, .of_div reg addr (by simp [Instr.isIn])⟩
  | shr reg count => cases h; exact ⟨rfl, _, rfl, .of_shift reg _ _ rfl (by simp [Instr.isIn])⟩
  | shl reg count => cases h; exact ⟨rfl, _, rfl, .of_shift reg _ _ rfl (by simp [Instr.isIn])⟩
  | not reg => cases h; exact ⟨rfl, _, rfl, .writesReg reg _ rfl (by simp [Instr.isIn])⟩
  | jump16 addr => cases h; exact ⟨rfl, _, rfl, .jumps _ (by simp [Instr.writesPc]) (by simp [Instr.isIn])⟩
  | rsvd11 => cases h; exact ⟨rfl, _, rfl, .nothing (by simp [Instr.isIn])⟩
  | rsvd12 => cases h; exact ⟨rfl, _, rfl, .nothing (by simp [Instr.isIn])⟩
  | stop16 => cases h; exact ⟨rfl, _, rfl, .halts (.inr rfl) (by simp [Instr.isIn])⟩
  | out reg => cases h; exact ⟨rfl, _, rfl, .emits _ (by simp [Instr.isIn])⟩
  | in16 addr => cases h; exact ⟨rfl, _, rfl, .reads _ rfl (.inr ⟨_, rfl⟩)⟩
  | loadR0 _ => cases h
  | storeR0 _ => cases h
  | jumpzR0 _ => cases h
  | addR0 _ => cases h
  | shlR0 => cases h
  | notR0 => cases h
  | loadR1 _ => cases h
  | storeR1 _ => cases h
  | jumpzR1 _ => cases h
  | addR1 _ => cases h
  | shlR1 => cases h
  | notR1 => cases h
  | jump8 _ => cases h
  | stop8 => cases h
  | outR0 => cases h
  | in8 _ => cases h

end Sys2Proof.Machine
end

