-- ==== Sys2Proof/Laws/Encoding.lean ====
section
/-! SUPPORT. The fields of a word written as its fields side by side (spec/30_encoding.md R71 to R74). -/

namespace Sys2Proof

/-- The one opcode value left when the fifteen others are excluded: the last arm of both decoders. -/
theorem opcode_last : ∀ op : BitVec 4, (op = 0#4 → False) → (op = 1#4 → False) → (op = 2#4 → False) →
    (op = 3#4 → False) → (op = 4#4 → False) → (op = 5#4 → False) → (op = 6#4 → False) → (op = 7#4 → False) →
    (op = 8#4 → False) → (op = 9#4 → False) → (op = 10#4 → False) → (op = 11#4 → False) → (op = 12#4 → False) →
    (op = 13#4 → False) → (op = 14#4 → False) → op = 15#4 := by decide

@[simp] theorem opField8_append (op addr : BitVec 4) : opField8 (op ++ addr) = op := by
  unfold opField8
  exact BitVec.extractLsb'_append_eq_left

@[simp] theorem addrField8_append (op addr : BitVec 4) : addrField8 (op ++ addr) = addr := by
  unfold addrField8
  exact BitVec.extractLsb'_append_eq_right

/-- The value of a format F16 word (R72). -/
theorem word16_toNat (op : BitVec 4) (reg : BitVec 2) (addr : BitVec 10) :
    (op ++ reg ++ addr : BitVec 16).toNat = op.toNat * 4096 + reg.toNat * 1024 + addr.toNat := by
  rw [BitVec.toNat_append, BitVec.toNat_append, ← Nat.shiftLeft_add_eq_or_of_lt addr.isLt,
    ← Nat.shiftLeft_add_eq_or_of_lt reg.isLt, Nat.shiftLeft_eq, Nat.shiftLeft_eq]
  ring

@[simp] theorem opField16_append (op : BitVec 4) (reg : BitVec 2) (addr : BitVec 10) :
    opField16 (op ++ reg ++ addr : BitVec 16) = op := by
  apply BitVec.eq_of_toNat_eq
  rw [opField16, BitVec.extractLsb'_toNat, word16_toNat, Nat.shiftRight_eq_div_pow]
  have := op.isLt; have := reg.isLt; have := addr.isLt
  omega

@[simp] theorem regField16_append (op : BitVec 4) (reg : BitVec 2) (addr : BitVec 10) :
    regField16 (op ++ reg ++ addr : BitVec 16) = ⟨reg.toNat, reg.isLt⟩ := by
  apply Fin.ext
  change (BitVec.extractLsb' 10 2 (op ++ reg ++ addr : BitVec 16)).toNat = reg.toNat
  rw [BitVec.extractLsb'_toNat, word16_toNat, Nat.shiftRight_eq_div_pow]
  have := op.isLt; have := reg.isLt; have := addr.isLt
  omega

@[simp] theorem addrField16_append (op : BitVec 4) (reg : BitVec 2) (addr : BitVec 10) :
    addrField16 (op ++ reg ++ addr : BitVec 16) = addr := by
  apply BitVec.eq_of_toNat_eq
  rw [addrField16, BitVec.extractLsb'_toNat, word16_toNat, Nat.shiftRight_eq_div_pow]
  have := op.isLt; have := reg.isLt; have := addr.isLt
  omega

/-- The register index read from its own field. -/
@[simp] theorem regField16_format16 (op : BitVec 4) (reg : Fin 4) (addr : BitVec 10) :
    regField16 (format16 op reg addr) = reg := by
  unfold format16
  rw [regField16_append]
  rfl

@[simp] theorem opField16_format16 (op : BitVec 4) (reg : Fin 4) (addr : BitVec 10) :
    opField16 (format16 op reg addr) = op := opField16_append _ _ _

@[simp] theorem addrField16_format16 (op : BitVec 4) (reg : Fin 4) (addr : BitVec 10) :
    addrField16 (format16 op reg addr) = addr := addrField16_append _ _ _

@[simp] theorem opField8_format8 (op addr : BitVec 4) : opField8 (format8 op addr) = op := opField8_append _ _

@[simp] theorem addrField8_format8 (op addr : BitVec 4) : addrField8 (format8 op addr) = addr := addrField8_append _ _

end Sys2Proof
end

