-- ==== Sys2Proof/Laws/PerInstr.lean ====
section
/-! SUPPORT. Statements about every instruction as syntax, one lemma per constructor. -/

/-- The encoding of an instruction carries its row's opcode in the opcode field of its variant's format, and it has an
encoding in that format only (spec/30_encoding.md R71, R72, R78, R79). -/
def Sys2Proof.Laws.OpcodeField.Statement (i : Sys2Proof.Instr) : Prop :=
  (∀ w, Sys2Proof.encode8 i = some w → Sys2Proof.opField8 w = Sys2Proof.opcodeOf i ∧ i.variant = .a8) ∧
  (∀ w, Sys2Proof.encode16 i = some w → Sys2Proof.opField16 w = Sys2Proof.opcodeOf i ∧ i.variant = .a16)

namespace Sys2Proof.Laws.OpcodeField

theorem of8 {i : Instr} {u : BitVec 8} (h : encode8 i = some u) (h16 : encode16 i = none)
    (ho : opField8 u = opcodeOf i) (hv : i.variant = .a8) : Statement i :=
  ⟨fun w hw => by rw [h] at hw; injection hw with hw; exact hw ▸ ⟨ho, hv⟩, fun w hw => by rw [h16] at hw; cases hw⟩

theorem of16 {i : Instr} {u : BitVec 16} (h : encode16 i = some u) (h8 : encode8 i = none)
    (ho : opField16 u = opcodeOf i) (hv : i.variant = .a16) : Statement i :=
  ⟨fun w hw => (by rw [h8] at hw; cases hw), fun w hw => by rw [h] at hw; injection hw with hw; exact hw ▸ ⟨ho, hv⟩⟩

theorem loadR0 (addr : BitVec 4) : Statement (.loadR0 addr) := of8 rfl rfl (opField8_format8 _ _) rfl
theorem storeR0 (addr : BitVec 4) : Statement (.storeR0 addr) := of8 rfl rfl (opField8_format8 _ _) rfl
theorem jumpzR0 (addr : BitVec 4) : Statement (.jumpzR0 addr) := of8 rfl rfl (opField8_format8 _ _) rfl
theorem addR0 (addr : BitVec 4) : Statement (.addR0 addr) := of8 rfl rfl (opField8_format8 _ _) rfl
theorem shlR0 : Statement .shlR0 := of8 rfl rfl (opField8_format8 _ _) rfl
theorem notR0 : Statement .notR0 := of8 rfl rfl (opField8_format8 _ _) rfl
theorem jump8 (addr : BitVec 4) : Statement (.jump8 addr) := of8 rfl rfl (opField8_format8 _ _) rfl
theorem stop8 : Statement .stop8 := of8 rfl rfl (opField8_format8 _ _) rfl
theorem loadR1 (addr : BitVec 4) : Statement (.loadR1 addr) := of8 rfl rfl (opField8_format8 _ _) rfl
theorem storeR1 (addr : BitVec 4) : Statement (.storeR1 addr) := of8 rfl rfl (opField8_format8 _ _) rfl
theorem jumpzR1 (addr : BitVec 4) : Statement (.jumpzR1 addr) := of8 rfl rfl (opField8_format8 _ _) rfl
theorem addR1 (addr : BitVec 4) : Statement (.addR1 addr) := of8 rfl rfl (opField8_format8 _ _) rfl
theorem shlR1 : Statement .shlR1 := of8 rfl rfl (opField8_format8 _ _) rfl
theorem notR1 : Statement .notR1 := of8 rfl rfl (opField8_format8 _ _) rfl
theorem outR0 : Statement .outR0 := of8 rfl rfl (opField8_format8 _ _) rfl
theorem in8 (addr : BitVec 4) : Statement (.in8 addr) := of8 rfl rfl (opField8_format8 _ _) rfl
theorem load (reg : Fin 4) (addr : BitVec 10) : Statement (.load reg addr) := of16 rfl rfl (opField16_format16 _ _ _) rfl
theorem store (reg : Fin 4) (addr : BitVec 10) : Statement (.store reg addr) := of16 rfl rfl (opField16_format16 _ _ _) rfl
theorem jumpz (reg : Fin 4) (addr : BitVec 10) : Statement (.jumpz reg addr) := of16 rfl rfl (opField16_format16 _ _ _) rfl
theorem add (reg : Fin 4) (addr : BitVec 10) : Statement (.add reg addr) := of16 rfl rfl (opField16_format16 _ _ _) rfl
theorem sub (reg : Fin 4) (addr : BitVec 10) : Statement (.sub reg addr) := of16 rfl rfl (opField16_format16 _ _ _) rfl
theorem mul (reg : Fin 4) (addr : BitVec 10) : Statement (.mul reg addr) := of16 rfl rfl (opField16_format16 _ _ _) rfl
theorem div (reg : Fin 4) (addr : BitVec 10) : Statement (.div reg addr) := of16 rfl rfl (opField16_format16 _ _ _) rfl
theorem shr (reg : Fin 4) (count : BitVec 10) : Statement (.shr reg count) := of16 rfl rfl (opField16_format16 _ _ _) rfl
theorem shl (reg : Fin 4) (count : BitVec 10) : Statement (.shl reg count) := of16 rfl rfl (opField16_format16 _ _ _) rfl
theorem not (reg : Fin 4) : Statement (.not reg) := of16 rfl rfl (opField16_format16 _ _ _) rfl
theorem jump16 (addr : BitVec 10) : Statement (.jump16 addr) := of16 rfl rfl (opField16_format16 _ _ _) rfl
theorem rsvd11 : Statement .rsvd11 := of16 rfl rfl (opField16_format16 _ _ _) rfl
theorem rsvd12 : Statement .rsvd12 := of16 rfl rfl (opField16_format16 _ _ _) rfl
theorem stop16 : Statement .stop16 := of16 rfl rfl (opField16_format16 _ _ _) rfl
theorem out (reg : Fin 4) : Statement (.out reg) := of16 rfl rfl (opField16_format16 _ _ _) rfl
theorem in16 (addr : BitVec 10) : Statement (.in16 addr) := of16 rfl rfl (opField16_format16 _ _ _) rfl

end Sys2Proof.Laws.OpcodeField
end

