-- ==== Sys2Proof/Laws/Run.lean ====
section
/-! SUPPORT. What the loader's parser answers, and what the caller's operations on the memory of a constructed core do
(spec/20_memory.md R59 to R64; spec/70_reset_and_hazards.md R204), said once. -/

namespace Sys2Proof.Machine

variable {w n : Nat}

/-! ## The parser and the loader -/

/-- A line holds a word: it has a digit, its digits are 0 and 1, and their value fits (R61, R62). -/
theorem parseWord_of_value {line : Line} (hd : lineDigits line ≠ []) (hb : ∀ d ∈ lineDigits line, d ≤ 1)
    (hv : binaryValue (lineDigits line) < 2 ^ w) :
    parseWord w line = some (BitVec.ofNat w (binaryValue (lineDigits line))) := by
  have hany : ¬ (lineDigits line).any (fun d => decide (1 < d)) = true := by
    simpa using hb
  simp only [parseWord, if_neg hd, if_neg hany, if_pos hv]

/-- A line holds no word: it has no digit, or a digit above 1, or a value that does not fit (R62). -/
theorem parseWord_of_malformed {line : Line}
    (h : lineDigits line = [] ∨ (∃ d ∈ lineDigits line, 1 < d) ∨ 2 ^ w ≤ binaryValue (lineDigits line)) :
    parseWord w line = none := by
  unfold parseWord
  dsimp only
  split
  · rfl
  · next hd =>
    split
    · rfl
    · next hb =>
      rcases h with h | h | h
      · exact absurd h hd
      · exact absurd (by simpa using h) hb
      · exact if_neg (Nat.not_lt.2 h)

/-- Loading keeps the capacity (R45, R63). -/
theorem loadLines_cap (lines : List Line) (k : Nat) (mem : Memory w) : (loadLines lines k mem).1.cap = mem.cap := by
  induction lines generalizing k mem with
  | nil => rfl
  | cons line lines ih =>
    unfold loadLines
    split
    · rfl
    · split
      · exact ih k mem
      · split
        · exact ih (k + 1) (mem.put k _)
        · rfl

@[simp] theorem Memory.loadProgram_cap (mem : Memory w) (text : List Char) : (mem.loadProgram text).1.cap = mem.cap :=
  loadLines_cap _ _ _

/-! ## The memory of a constructed core -/

theorem Apache.loadProgram_eq (m : Apache w n) (text : List Char) :
    m.loadProgram text = ({ m with mem := (m.mem.loadProgram text).1 }, (m.mem.loadProgram text).2) := rfl

theorem State.loadProgram_a8 (m : Apache 8 2) (text : List Char) :
    State.loadProgram text ⟨.a8 m⟩ = (⟨.a8 (m.loadProgram text).1⟩, (m.loadProgram text).2) := rfl

theorem State.loadProgram_a16 (m : Apache 16 4) (text : List Char) :
    State.loadProgram text ⟨.a16 m⟩ = (⟨.a16 (m.loadProgram text).1⟩, (m.loadProgram text).2) := rfl

theorem writeWord_valid {m : Apache w n} {a : Nat} (v : BitVec w) (h : a < m.mem.cap) :
    m.writeWord a v = .ok { m with mem := m.mem.put a v } := by
  simp [Apache.writeWord, Memory.set_valid _ h]

theorem writeWord_invalid {m : Apache w n} {a : Nat} (v : BitVec w) (h : m.mem.cap ≤ a) :
    m.writeWord a v = .error (.outOfBounds .write a) := by
  simp [Apache.writeWord, Memory.set_invalid _ h]

/-- A write that succeeds wrote one word at a valid address. -/
theorem writeWord_ok {m t : Apache w n} {a : Nat} {v : BitVec w} (h : m.writeWord a v = .ok t) :
    a < m.mem.cap ∧ t = { m with mem := m.mem.put a v } := by
  rcases Nat.lt_or_ge a m.mem.cap with ha | ha
  · rw [writeWord_valid v ha] at h
    injection h with h
    exact ⟨ha, h.symm⟩
  · rw [writeWord_invalid v ha] at h
    cases h

/-- The word of a word's value is that word. -/
@[simp] theorem trunc_of_toNat (v : BitVec w) : trunc w v.toNat = v := by simp [trunc]

/-! ## Boot -/

/-- A launch whose load succeeds (R204). -/
theorem launch_of_load {s t : State} {text : List Char} (lines : List Line) (budget : Nat)
    (h : s.loadProgram text = (t, none)) : s.launch text lines budget = .ok ((t.attachInput lines).callRun budget) := by
  simp [State.launch, h]

/-- A launch whose load fails ends with the load's error (R64, R204). -/
theorem launch_of_failure {s t : State} {text : List Char} {f : FaultRecord} (lines : List Line) (budget : Nat)
    (h : s.loadProgram text = (t, some f)) : s.launch text lines budget = .error f := by
  simp [State.launch, h]

end Sys2Proof.Machine
end

