-- ==== Sys2Proof/Laws/Step.lean ====
section
/-! SUPPORT. What a step can do, said once: the transitions of spec/40_cycle.md R107 as the forms of the core after a
step. A proof about every step goes by cases on these forms, and, where a handler ran, on those of `Effect`. -/

namespace Sys2Proof.Machine

/-! ## Every decoded word has its meaning -/

theorem decode8_variant (word : BitVec 8) : (decode8 word).variant = .a8 := by
  unfold decode8
  dsimp only
  split <;> rfl

theorem decode16_variant (word : BitVec 16) : (decode16 word).variant = .a16 := by
  unfold decode16
  dsimp only
  split <;> rfl

theorem exec_next_apache8 {i : Instr} (h : i.variant = .a8) (m : Apache 8 2) :
    ∃ t, exec i ⟨.a8 m⟩ = .next ⟨.a8 t⟩ := by
  cases i <;> first | exact ⟨_, rfl⟩ | cases h

theorem exec_next_apache16 {i : Instr} (h : i.variant = .a16) (m : Apache 16 4) :
    ∃ t, exec i ⟨.a16 m⟩ = .next ⟨.a16 t⟩ := by
  cases i <;> first | exact ⟨_, rfl⟩ | cases h

/-- `exec_apache8` where the next state is already an Apache-8. -/
theorem effect_of_exec8 {i : Instr} {m t : Apache 8 2} (h : exec i ⟨.a8 m⟩ = .next ⟨.a8 t⟩) :
    i.variant = .a8 ∧ Effect i m t := by
  obtain ⟨hv, u, e, he⟩ := exec_apache8 h
  cases e
  exact ⟨hv, he⟩

/-- `exec_apache16` where the next state is already an Apache-16. -/
theorem effect_of_exec16 {i : Instr} {m t : Apache 16 4} (h : exec i ⟨.a16 m⟩ = .next ⟨.a16 t⟩) :
    i.variant = .a16 ∧ Effect i m t := by
  obtain ⟨hv, u, e, he⟩ := exec_apache16 h
  cases e
  exact ⟨hv, he⟩

/-! ## The forms of a step -/

/-- The core after a fetch that succeeds (R94, R95). -/
def fetched {w n : Nat} (m : Apache w n) : Apache w n :=
  { m with cir := m.mem.read m.pc.toNat, pc := nextPc m.pc, ctl := .execute }

/-- The forms of the core after a step, over the decoder and the address field of the variant and over `run i m t`, which
says that the meaning of `i` takes `m` to `t`. -/
inductive Transition {w n : Nat} (decode : BitVec w → Instr) (addr : BitVec w → Nat)
    (run : Instr → Apache w n → Apache w n → Prop) (m : Apache w n) : Apache w n → Prop where
  | stays (h : m.ctl = .idle ∨ m.ctl = .halted ∨ m.ctl = .faulted) : Transition decode addr run m m
  | halts (hc : m.ctl = .fetch) (hh : m.halt = true) : Transition decode addr run m (m.endRun .halted .halted)
  | exhausts (hc : m.ctl = .fetch) (hh : m.halt = false) (hb : m.budget = 0) :
      Transition decode addr run m (m.endRun .idle .exhausted)
  | fetchFaults (hc : m.ctl = .fetch) (hh : m.halt = false) (hb : 0 < m.budget) (hp : m.mem.cap ≤ m.pc.toNat) :
      Transition decode addr run m (m.raise (.outOfBounds .fetch m.pc.toNat))
  | cycles (t : Apache w n) (hc : m.ctl = .fetch) (hh : m.halt = false) (hb : 0 < m.budget)
      (hp : m.pc.toNat < m.mem.cap) (ht : run (decode (m.mem.read m.pc.toNat)) (fetched m) t) :
      Transition decode addr run m t.endCycle
  | handles (t : Apache w n) (hc : m.ctl = .execute) (ht : run (decode m.cir) m t) :
      Transition decode addr run m t.endCycle
  | resumes (hc : m.ctl = .waitIn) : Transition decode addr run m (m.wake.resumeIn (addr m.cir)).endCycle

/-- The meaning of `i` takes an Apache-8 to an Apache-8. -/
def Runs8 (i : Instr) (m t : Apache 8 2) : Prop := exec i ⟨.a8 m⟩ = .next ⟨.a8 t⟩

/-- The meaning of `i` takes an Apache-16 to an Apache-16. -/
def Runs16 (i : Instr) (m t : Apache 16 4) : Prop := exec i ⟨.a16 m⟩ = .next ⟨.a16 t⟩

/-- The transitions of an Apache-8. -/
abbrev Transition8 : Apache 8 2 → Apache 8 2 → Prop := Transition decode8 (fun c => (addrField8 c).toNat) Runs8

/-- The transitions of an Apache-16. -/
abbrev Transition16 : Apache 16 4 → Apache 16 4 → Prop := Transition decode16 (fun c => (addrField16 c).toNat) Runs16

theorem runHandler_apache8 (m : Apache 8 2) :
    ∃ t, Runs8 (decode8 m.cir) m t ∧ State.runHandler ⟨.a8 m⟩ = .next ⟨.a8 t.endCycle⟩ := by
  obtain ⟨t, ht⟩ := exec_next_apache8 (decode8_variant m.cir) m
  exact ⟨t, ht, by simp [State.runHandler, ht]⟩

theorem runHandler_apache16 (m : Apache 16 4) :
    ∃ t, Runs16 (decode16 m.cir) m t ∧ State.runHandler ⟨.a16 m⟩ = .next ⟨.a16 t.endCycle⟩ := by
  obtain ⟨t, ht⟩ := exec_next_apache16 (decode16_variant m.cir) m
  exact ⟨t, ht, by simp [State.runHandler, ht]⟩

/-- A step of an Apache-8 is one of the transitions. -/
theorem step_apache8 (m : Apache 8 2) : ∃ t, step ⟨.a8 m⟩ = .next ⟨.a8 t⟩ ∧ Transition8 m t := by
  simp only [step, State.constructed_a8, if_true, State.advance, State.ctl_a8]
  cases hc : m.ctl with
  | idle => exact ⟨m, rfl, .stays (.inl hc)⟩
  | halted => exact ⟨m, rfl, .stays (.inr (.inl hc))⟩
  | faulted => exact ⟨m, rfl, .stays (.inr (.inr hc))⟩
  | execute =>
    obtain ⟨t, ht, e⟩ := runHandler_apache8 m
    exact ⟨_, e, .handles t hc ht⟩
  | waitIn => exact ⟨_, rfl, .resumes hc⟩
  | fetch =>
    simp only [State.runCycle, State.lift_a8, State.ctl_a8]
    cases hh : m.halt with
    | true => rw [beginCycle_halted hh]; exact ⟨_, rfl, .halts hc hh⟩
    | false =>
      rcases Nat.eq_zero_or_pos m.budget with hb | hb
      · rw [beginCycle_exhausted hh hb]; exact ⟨_, rfl, .exhausts hc hh hb⟩
      · rw [beginCycle_fetch hh hb]
        rcases Nat.lt_or_ge m.pc.toNat m.mem.cap with hp | hp
        · rw [fetch_valid hp]
          obtain ⟨t, ht, e⟩ := runHandler_apache8 (fetched m)
          exact ⟨_, e, .cycles t hc hh hb hp ht⟩
        · rw [fetch_invalid hp]; exact ⟨_, rfl, .fetchFaults hc hh hb hp⟩

/-- A step of a constructed Apache-16 is one of the transitions. -/
theorem step_apache16 (m : Apache 16 4) (hcap : m.mem.cap ≤ 1024) :
    ∃ t, step ⟨.a16 m⟩ = .next ⟨.a16 t⟩ ∧ Transition16 m t := by
  simp only [step, State.constructed_a16, hcap, decide_true, if_true, State.advance, State.ctl_a16]
  cases hc : m.ctl with
  | idle => exact ⟨m, rfl, .stays (.inl hc)⟩
  | halted => exact ⟨m, rfl, .stays (.inr (.inl hc))⟩
  | faulted => exact ⟨m, rfl, .stays (.inr (.inr hc))⟩
  | execute =>
    obtain ⟨t, ht, e⟩ := runHandler_apache16 m
    exact ⟨_, e, .handles t hc ht⟩
  | waitIn => exact ⟨_, rfl, .resumes hc⟩
  | fetch =>
    simp only [State.runCycle, State.lift_a16, State.ctl_a16]
    cases hh : m.halt with
    | true => rw [beginCycle_halted hh]; exact ⟨_, rfl, .halts hc hh⟩
    | false =>
      rcases Nat.eq_zero_or_pos m.budget with hb | hb
      · rw [beginCycle_exhausted hh hb]; exact ⟨_, rfl, .exhausts hc hh hb⟩
      · rw [beginCycle_fetch hh hb]
        rcases Nat.lt_or_ge m.pc.toNat m.mem.cap with hp | hp
        · rw [fetch_valid hp]
          obtain ⟨t, ht, e⟩ := runHandler_apache16 (fetched m)
          exact ⟨_, e, .cycles t hc hh hb hp ht⟩
        · rw [fetch_invalid hp]; exact ⟨_, rfl, .fetchFaults hc hh hb hp⟩

/-- Inversion of a step of an Apache-8. -/
theorem transition_of_step8 {m : Apache 8 2} {s : State} (h : step ⟨.a8 m⟩ = .next s) :
    ∃ t, s = ⟨.a8 t⟩ ∧ Transition8 m t := by
  obtain ⟨t, e, ht⟩ := step_apache8 m
  rw [e] at h
  cases h
  exact ⟨t, rfl, ht⟩

/-- Inversion of a step of an Apache-16: its memory is within the limit (R202). -/
theorem transition_of_step16 {m : Apache 16 4} {s : State} (h : step ⟨.a16 m⟩ = .next s) :
    m.mem.cap ≤ 1024 ∧ ∃ t, s = ⟨.a16 t⟩ ∧ Transition16 m t := by
  by_cases hcap : m.mem.cap ≤ 1024
  · obtain ⟨t, e, ht⟩ := step_apache16 m hcap
    rw [e] at h
    cases h
    exact ⟨hcap, t, rfl, ht⟩
  · simp [step, hcap] at h

end Sys2Proof.Machine
end

