-- ==== Sys2Proof/Tests/Slice0.lean ====
section
/-! SUPPORT. The author's own tests: the smoke test of the well-formedness check, the decoding of words written out from
the spec's encodings, one step on the spec's vectors (spec/95_test_vectors.md, cited by their ids), and a witness for
every statement that has hypotheses. -/

namespace Sys2Proof.Tests

open Sys2Proof Sys2Proof.Machine

/-! ## Helpers: a small core about to fetch, and the core after one step -/

def start8 (cap : Nat) (cells : List (Cell 8)) (x : Vector (BitVec 8) 2) (pc : BitVec 8) (lines : List Line) : Apache 8 2 :=
  { Apache.fresh 8 2 { cap := cap, cells := cells } {} with x := x, pc := pc, input := lines, ctl := .fetch, budget := 10 }

def start16 (cap : Nat) (cells : List (Cell 16)) (x : Vector (BitVec 16) 4) (pc : BitVec 16) (lines : List Line) :
    Apache 16 4 :=
  { Apache.fresh 16 4 { cap := cap, cells := cells } {} with x := x, pc := pc, input := lines, ctl := .fetch, budget := 10 }

/-- The Apache-8 after one step. -/
def stepped8 (s : State) : Option (Apache 8 2) :=
  match step s with
  | .next t =>
    match t.inst with
    | .a8 m => some m
    | .a16 _ => none
  | .fault _ => none
  | .refused _ => none

/-- The Apache-16 after one step. -/
def stepped16 (s : State) : Option (Apache 16 4) :=
  match step s with
  | .next t =>
    match t.inst with
    | .a8 _ => none
    | .a16 m => some m
  | .fault _ => none
  | .refused _ => none

def after8 (m : Apache 8 2) : Option (Apache 8 2) := stepped8 ⟨.a8 m⟩

def after16 (m : Apache 16 4) : Option (Apache 16 4) := stepped16 ⟨.a16 m⟩

/-! ## Well-formedness: the check refuses an instruction of the other variant (R2) -/

theorem test_wellFormed_own8 : (Instr.addR1 15).wellFormed .a8 = true := by decide
theorem test_wellFormed_own16 : (Instr.div 3 1023).wellFormed .a16 = true := by decide
theorem test_illFormed_16_on_8 : (Instr.mul 2 17).wellFormed .a8 = false := by decide
theorem test_illFormed_8_on_16 : (Instr.outR0).wellFormed .a16 = false := by decide

/-! ## Decoding: words from the encodings of R78 and R79, every constructor, ignored bits set where there are any -/

theorem test_decode_loadR0 : decode8 0x05 = .loadR0 5 := by decide
theorem test_decode_storeR0 : decode8 0x13 = .storeR0 3 := by decide
theorem test_decode_jumpzR0 : decode8 0x29 = .jumpzR0 9 := by decide
theorem test_decode_addR0 : decode8 0x37 = .addR0 7 := by decide
theorem test_decode_shlR0 : decode8 0x4F = .shlR0 := by decide
theorem test_decode_notR0 : decode8 0x50 = .notR0 := by decide
theorem test_decode_jump8 : decode8 0x6F = .jump8 15 := by decide
theorem test_decode_stop8 : decode8 0x7F = .stop8 := by decide
theorem test_decode_loadR1 : decode8 0x8D = .loadR1 13 := by decide
theorem test_decode_storeR1 : decode8 0x9E = .storeR1 14 := by decide
theorem test_decode_jumpzR1 : decode8 0xA7 = .jumpzR1 7 := by decide
theorem test_decode_addR1 : decode8 0xBF = .addR1 15 := by decide
theorem test_decode_shlR1 : decode8 0xC5 = .shlR1 := by decide
theorem test_decode_notR1 : decode8 0xDA = .notR1 := by decide
theorem test_decode_outR0 : decode8 0xEF = .outR0 := by decide
theorem test_decode_in8 : decode8 0xF6 = .in8 6 := by decide
theorem test_decode_load : decode16 0b0000100000010000 = .load 2 16 := by decide
theorem test_decode_store : decode16 0b0001110000010100 = .store 3 20 := by decide
theorem test_decode_jumpz : decode16 0b0010100000001101 = .jumpz 2 13 := by decide
theorem test_decode_add : decode16 0b0011010000001000 = .add 1 8 := by decide
theorem test_decode_sub : decode16 0b0100110000001001 = .sub 3 9 := by decide
theorem test_decode_mul : decode16 0b0101100000010001 = .mul 2 17 := by decide
theorem test_decode_div : decode16 0b0110010000000100 = .div 1 4 := by decide
theorem test_decode_shr : decode16 0b0111001111111111 = .shr 0 1023 := by decide
theorem test_decode_shl : decode16 0b1000110000000100 = .shl 3 4 := by decide
theorem test_decode_not : decode16 0b1001011111111111 = .not 1 := by decide
theorem test_decode_jump16 : decode16 0b1010110000000101 = .jump16 5 := by decide
theorem test_decode_rsvd11 : decode16 0b1011000000000000 = .rsvd11 := by decide
theorem test_decode_rsvd12 : decode16 0b1100001111111111 = .rsvd12 := by decide
theorem test_decode_stop16 : decode16 0b1101111111111111 = .stop16 := by decide
theorem test_decode_out : decode16 0b1110100000000000 = .out 2 := by decide
theorem test_decode_in16 : decode16 0b1111110000010100 = .in16 20 := by decide
theorem test_encode_load : encode (.load 2 16) = [(16, 0x0810)] := by decide
theorem test_encode_addR1 : encode (.addR1 15) = [(8, 0xBF)] := by decide
theorem test_tableWord8 : decodeTableWord 8 0x37 = some (.addR0 7) := by decide
theorem test_tableWord16 : decodeTableWord 16 0x6404 = some (.div 1 4) := by decide
theorem test_tableWord_width : decodeTableWord 12 0 = none := by decide

/-! ## One step, the vectors of spec/95_test_vectors.md -/

/-- V1. -/
theorem test_loadR0 : (after8 (start8 16 [(0, 0x05), (5, 0xA7)] #v[0, 0] 0 [])).map (fun t => (t.x, t.pc)) =
    some (#v[0xA7, 0], 1) := by decide
/-- V4a. -/
theorem test_loadR0_bound : (after8 (start8 3 [(0, 0x03)] #v[9, 0] 0 [])).map (fun t => (t.x, t.status)) =
    some (#v[9, 0], some (.outOfBounds .read 3)) := by decide
/-- V2. -/
theorem test_loadR1 : (after8 (start8 16 [(0, 0x8D), (13, 5)] #v[8, 0] 0 [])).map (fun t => t.x) =
    some #v[8, 5] := by decide
/-- V3. -/
theorem test_storeR0 : (after8 (start8 16 [(0, 0x13)] #v[0x2A, 0] 0 [])).map (fun t => t.mem.cells) =
    some [(0, 0x13), (3, 0x2A)] := by decide
/-- V4b. -/
theorem test_storeR0_bound : (after8 (start8 3 [(0, 0x1F)] #v[1, 0] 0 [])).map (fun t => (t.mem.cells, t.status)) =
    some ([(0, 0x1F)], some (.outOfBounds .write 15)) := by decide
/-- V4. -/
theorem test_storeR1 : (after8 (start8 16 [(0, 0x9E), (14, 1)] #v[0, 7] 0 [])).map (fun t => t.mem.cells) =
    some [(0, 0x9E), (14, 7)] := by decide
/-- a stored 0 leaves no entry (R58). -/
theorem test_storeR1_zero : (after8 (start8 16 [(0, 0x9E), (14, 1)] #v[7, 0] 0 [])).map (fun t => t.mem.cells) =
    some [(0, 0x9E)] := by decide
/-- V5. -/
theorem test_jumpzR0_taken : (after8 (start8 16 [(2, 0x29)] #v[0, 1] 2 [])).map (fun t => t.pc) =
    some 9 := by decide
/-- V6. -/
theorem test_jumpzR0_not : (after8 (start8 16 [(2, 0x29)] #v[1, 0] 2 [])).map (fun t => t.pc) =
    some 3 := by decide
/-- V7. -/
theorem test_jumpzR1_taken : (after8 (start8 16 [(3, 0xA7)] #v[9, 0] 3 [])).map (fun t => t.pc) =
    some 7 := by decide
/-- V8. -/
theorem test_jumpzR1_not : (after8 (start8 16 [(3, 0xA7)] #v[0, 0x80] 3 [])).map (fun t => t.pc) =
    some 4 := by decide
/-- V14. -/
theorem test_addR0 : (after8 (start8 16 [(0, 0x37), (7, 2)] #v[255, 0] 0 [])).map (fun t => t.x) =
    some #v[1, 0] := by decide
/-- V16a. -/
theorem test_addR0_self : (after8 (start8 16 [(0, 0x30)] #v[0x40, 0] 0 [])).map (fun t => t.x) =
    some #v[0x70, 0] := by decide
/-- V16. -/
theorem test_addR1 : (after8 (start8 16 [(0, 0xBF), (15, 255)] #v[0, 5] 0 [])).map (fun t => t.x) =
    some #v[0, 4] := by decide
/-- V17. -/
theorem test_shlR0 : (after8 (start8 16 [(0, 0x40)] #v[0x81, 0] 0 [])).map (fun t => t.x) =
    some #v[0x02, 0] := by decide
/-- V18. -/
theorem test_shlR0_ignored : (after8 (start8 16 [(0, 0x4F)] #v[0x80, 0] 0 [])).map (fun t => t.x) =
    some #v[0, 0] := by decide
/-- V19. -/
theorem test_shlR1 : (after8 (start8 16 [(0, 0xC0)] #v[0, 0xC0] 0 [])).map (fun t => t.x) =
    some #v[0, 0x80] := by decide
/-- V21. -/
theorem test_notR0 : (after8 (start8 16 [(0, 0x50)] #v[0x5A, 0] 0 [])).map (fun t => t.x) =
    some #v[0xA5, 0] := by decide
/-- V22. -/
theorem test_notR1 : (after8 (start8 16 [(0, 0xD0)] #v[1, 0xFF] 0 [])).map (fun t => t.x) =
    some #v[1, 0] := by decide
/-- V9. -/
theorem test_jump8 : (after8 (start8 16 [(0, 0x6F)] #v[1, 1] 0 [])).map (fun t => (t.pc, t.ctl)) =
    some (15, .fetch) := by decide
/-- V12a. -/
theorem test_stop8 : (after8 (start8 16 [(5, 0x7F)] #v[1, 1] 5 [])).map (fun t => (t.halt, t.pc, t.budget)) =
    some (true, 6, 9) := by decide
/-- V24. -/
theorem test_outR0 : (after8 (start8 16 [(0, 0xE0)] #v[0, 9] 0 [])).map (fun t => t.output) =
    some [.value 0] := by decide
/-- V25. -/
theorem test_outR0_ignored : (after8 (start8 16 [(0, 0xEF)] #v[255, 9] 0 [])).map (fun t => t.output) =
    some [.value 255] := by decide
/-- V27. -/
theorem test_in8 : (after8 (start8 16 [(0, 0xF6)] #v[0, 0] 0 [['3', '0', '0']])).map (fun t => (t.mem.read 6, t.output, t.inPos)) =
    some (44, [.prompt], 1) := by decide
/-- V29. -/
theorem test_in8_malformed : (after8 (start8 16 [(0, 0xF6)] #v[0, 0] 0 [['-', '1']])).map (fun t => (t.status, t.inPos, t.budget)) =
    some (some (.parseError .input), 1, 10) := by decide
/-- L5. -/
theorem test_pc_wraps : (after8 (start8 256 [(255, 0x50)] #v[0, 0] 255 [])).map (fun t => t.pc) =
    some 0 := by decide
/-- L3. -/
theorem test_fetch_bound : (after8 (start8 16 [] #v[0, 0] 16 [])).map (fun t => (t.status, t.pc, t.budget)) =
    some (some (.outOfBounds .fetch 16), 16, 10) := by decide
/-- W1. -/
theorem test_load : (after16 (start16 32 [(0, 0x0810), (16, 300)] #v[0, 0, 0, 0] 0 [])).map (fun t => t.x) =
    some #v[0, 0, 300, 0] := by decide
/-- W3. -/
theorem test_load_bound : (after16 (start16 32 [(0, 0x03FF)] #v[0, 0, 0, 0] 0 [])).map (fun t => t.status) =
    some (some (.outOfBounds .read 1023)) := by decide
/-- W2. -/
theorem test_store : (after16 (start16 32 [(0, 0x1C14)] #v[0, 0, 0, 20] 0 [])).map (fun t => t.mem.cells) =
    some [(0, 0x1C14), (20, 20)] := by decide
/-- W4. -/
theorem test_store_last : (after16 (start16 1024 [(0, 0x17FF)] #v[0, 5, 0, 0] 0 [])).map (fun t => t.mem.cells) =
    some [(0, 0x17FF), (1023, 5)] := by decide
/-- W32. -/
theorem test_jumpz_taken : (after16 (start16 32 [(0, 0x280D)] #v[5, 1, 0, 1] 0 [])).map (fun t => t.pc) =
    some 13 := by decide
/-- W31. -/
theorem test_jumpz_not : (after16 (start16 32 [(11, 0x200D)] #v[1, 0, 0, 0] 11 [])).map (fun t => t.pc) =
    some 12 := by decide
/-- W5. -/
theorem test_add : (after16 (start16 32 [(0, 0x3408), (8, 30000)] #v[0, 40000, 0, 0] 0 [])).map (fun t => t.x) =
    some #v[0, 4464, 0, 0] := by decide
/-- W8. -/
theorem test_sub : (after16 (start16 32 [(0, 0x4008), (8, 65535)] #v[3, 0, 0, 0] 0 [])).map (fun t => t.x) =
    some #v[4, 0, 0, 0] := by decide
/-- W18. -/
theorem test_sub_equal : (after16 (start16 32 [(0, 0x4C09), (9, 9)] #v[0, 0, 0, 9] 0 [])).map (fun t => t.x) =
    some #v[0, 0, 0, 0] := by decide
/-- W9. -/
theorem test_mul : (after16 (start16 32 [(0, 0x5811), (17, 300)] #v[0, 0, 300, 0] 0 [])).map (fun t => t.x) =
    some #v[0, 0, 24464, 0] := by decide
/-- W11. -/
theorem test_mul_high : (after16 (start16 32 [(0, 0x5008), (8, 65535)] #v[65535, 0, 0, 0] 0 [])).map (fun t => t.x) =
    some #v[1, 0, 0, 0] := by decide
/-- W13. -/
theorem test_div : (after16 (start16 32 [(0, 0x6008), (8, 2)] #v[7, 0, 0, 0] 0 [])).map (fun t => t.x) =
    some #v[3, 0, 0, 0] := by decide
/-- W16. -/
theorem test_div_zero : (after16 (start16 32 [(0, 0x6404)] #v[0, 7, 0, 0] 0 [])).map (fun t => (t.x, t.status)) =
    some (#v[0, 7, 0, 0], some .arithmeticFault) := by decide
/-- W20. -/
theorem test_shr : (after16 (start16 32 [(0, 0x700F)] #v[0x8000, 0, 0, 0] 0 [])).map (fun t => t.x) =
    some #v[1, 0, 0, 0] := by decide
/-- W22. -/
theorem test_shr_big : (after16 (start16 32 [(0, 0x73FF)] #v[0xFFFF, 0, 0, 0] 0 [])).map (fun t => t.x) =
    some #v[0, 0, 0, 0] := by decide
/-- W27. -/
theorem test_shl : (after16 (start16 32 [(0, 0x8001)] #v[0xC001, 0, 0, 0] 0 [])).map (fun t => t.x) =
    some #v[0x8002, 0, 0, 0] := by decide
/-- W26. -/
theorem test_shl_16 : (after16 (start16 32 [(0, 0x8010)] #v[1, 0, 0, 0] 0 [])).map (fun t => t.x) =
    some #v[0, 0, 0, 0] := by decide
/-- W29. -/
theorem test_not : (after16 (start16 32 [(0, 0x97FF)] #v[0, 0x0F0F, 0, 0] 0 [])).map (fun t => t.x) =
    some #v[0, 0xF0F0, 0, 0] := by decide
/-- W33. -/
theorem test_jump16 : (after16 (start16 32 [(0, 0xAC05)] #v[0, 0, 0, 0] 0 [])).map (fun t => t.pc) =
    some 5 := by decide
/-- W34. -/
theorem test_rsvd11 : (after16 (start16 32 [(5, 0xB000)] #v[1, 2, 3, 4] 5 [])).map (fun t => (t.x, t.pc, t.cir, t.budget)) =
    some (#v[1, 2, 3, 4], 6, 0xB000, 9) := by decide
/-- W35. -/
theorem test_rsvd12 : (after16 (start16 32 [(0, 0xC3FF)] #v[1, 2, 3, 4] 0 [])).map (fun t => (t.x, t.pc, t.mem.cells)) =
    some (#v[1, 2, 3, 4], 1, [(0, 0xC3FF)]) := by decide
/-- W37. -/
theorem test_stop16 : (after16 (start16 32 [(14, 0xDFFF)] #v[0, 0, 0, 0] 14 [])).map (fun t => (t.halt, t.pc)) =
    some (true, 15) := by decide
/-- W41. -/
theorem test_out : (after16 (start16 32 [(0, 0xE800)] #v[0, 0, 2000, 0] 0 [])).map (fun t => t.output) =
    some [.value 2000] := by decide
/-- W44. -/
theorem test_in16 : (after16 (start16 32 [(0, 0xFC14)] #v[0, 0, 0, 0] 0 [['7', '0', '0', '0', '0']])).map (fun t => (t.mem.read 20, t.output)) =
    some (4464, [.prompt]) := by decide
/-- W46. -/
theorem test_in16_bound : (after16 (start16 16 [(0, 0xF014)] #v[0, 0, 0, 0] 0 [['1']])).map (fun t => (t.status, t.output, t.inPos)) =
    some (some (.outOfBounds .write 20), [.prompt], 1) := by decide

/-! ## The loader, the output text, the memory and the reset state -/


/-- S8 and T2: the fourth line is not read. -/
theorem test_load_full : (Memory.create 8 3).loadProgram
    ['0', '1', '\n', '1', '0', '\n', '1', '1', '\n', 'x'] = ({ cap := 3, cells := [(0, 1), (1, 2), (2, 3)] }, none) := by
  decide
/-- T4: a digit other than 0 and 1. -/
theorem test_load_digit : ((Memory.create 8 16).loadProgram ['0', ' ', '2', '1']).2 = some (.parseError .load) := by decide
/-- T3: blank lines take no address. -/
theorem test_load_blank : ((Memory.create 8 16).loadProgram ['1', '\n', '\n', ' ', '\n', '1', '0']).1.cells =
    [(0, 1), (1, 2)] := by decide
/-- P1: the sink text of two prompts and the value 50. -/
theorem test_sinkText : sinkText [.prompt, .prompt, .value 50] = ['>', ' ', '>', ' ', '5', '0', '\n'] := by decide
/-- S12: 1025 words are refused, 1024 accepted. -/
theorem test_construct_1025 : constructApache16 (Memory.create 16 1025) {} = .error (.parseError .construct) := rfl
theorem test_construct_1024 : withinMaxCap .a16 (Memory.create 16 1024).cap = true := by decide
/-- An Apache-8 cell is the host's cell of one byte (log 4). -/
theorem test_cell_is_host_cell : Cell 8 = Host.Cell := rfl
/-- A word placed by `withFetchWord` after reset is the one the next step runs. -/
theorem test_withFetchWord8 : (stepped8 (State.reset.withFetchWord 8 0x50)).map (fun t => (t.x, t.cir)) =
    some (#v[0xFF, 0], 0x50) := by decide
theorem test_withFetchWord16 : (stepped16 (State.reset.withFetchWord 16 0x9400)).map (fun t => (t.x, t.cir)) =
    some (#v[0, 0xFFFF, 0, 0], 0x9400) := by decide


/-! ## Witnesses: for every statement with hypotheses, states and operands that meet them, clause by clause, at the
boundary of each range -/

/-- An Apache-8 of 16 words about to fetch from its last word. -/
def w8 : Apache 8 2 := start8 16 [(15, 0x50)] #v[0, 1] 15 []
/-- An Apache-8 of 3 words whose `pc` has left the memory. -/
def b8 : Apache 8 2 := start8 3 [] #v[0, 1] 3 []
/-- An Apache-16 of 1024 words about to fetch from its last word. -/
def w16 : Apache 16 4 := start16 1024 [(1023, 0xB000)] #v[0, 1, 2, 3] 1023 []
/-- An Apache-16 of 1023 words whose `pc` has left the memory. -/
def b16 : Apache 16 4 := start16 1023 [] #v[0, 1, 2, 3] 1023 []
/-- A line that is accepted, and one that is not. -/
def goodLine : Line := ['2', '5', '5']
def badLine : Line := ['-', '1']
/-- Program lines: eight ones, the greatest value 8 bits hold; the next value; and a line with a digit 2. -/
def line255 : Line := ['1', '1', '1', '1', '1', '1', '1', '1']
def line256 : Line := ['1', '0', '0', '0', '0', '0', '0', '0', '0']
def bits256 : List Bool := [true, false, false, false, false, false, false, false, false]
def badDigit : Line := ['0', '2']
/-- An Apache-8 with one line to give. -/
def l8 (cap : Nat) (line : Line) : Apache 8 2 := start8 cap [] #v[0, 1] 0 [line]
/-- An Apache-16 with one line to give. -/
def l16 (cap : Nat) (line : Line) : Apache 16 4 := start16 cap [] #v[0, 1, 2, 3] 0 [line]
/-- A core in WAIT_IN on the word of IN 3, and of IN 20. -/
def wait8 (cap : Nat) (lines : List Line) : Apache 8 2 :=
  { start8 cap [] #v[0, 1] 1 lines with ctl := .waitIn, cir := 0xF3, output := [.prompt] }
def wait16 (cap : Nat) (lines : List Line) : Apache 16 4 :=
  { start16 cap [] #v[0, 1, 2, 3] 1 lines with ctl := .waitIn, cir := 0xF014, output := [.prompt] }

theorem witness_DecodeOfEncodeIsTheInstruction :
    (Instr.in8 15).wellFormed .a8 = true ∧ (Instr.in16 1023).wellFormed .a16 = true :=
  by decide
theorem witness_IgnoredBitsHaveNoEffect :
    (0b1110#4 ++ 0#4 ≠ 0b1110#4 ++ 15#4 ∧ decode8 (0b1110#4 ++ 0#4) = decode8 (0b1110#4 ++ 15#4)) ∧
    decode16 (0b1110#4 ++ 3#2 ++ 0#10) = decode16 (0b1110#4 ++ 3#2 ++ 1023#10) ∧
    decode16 (0b1111#4 ++ 0#2 ++ 1023#10) = decode16 (0b1111#4 ++ 3#2 ++ 1023#10) ∧
    decode16 (0b1101#4 ++ 0#2 ++ 0#10) = decode16 (0b1101#4 ++ 3#2 ++ 1023#10) :=
  by decide
theorem witness_Apache8LoadCopiesAMemoryWord :
    (15#4).toNat < w8.mem.cap ∧ b8.mem.cap ≤ (3#4).toNat :=
  by decide
theorem witness_Apache8StoreWritesAMemoryWord :
    (15#4).toNat < w8.mem.cap ∧ b8.mem.cap ≤ (3#4).toNat :=
  by decide
theorem witness_Apache8AddIsModulo256 :
    (15#4).toNat < w8.mem.cap ∧ b8.mem.cap ≤ (3#4).toNat :=
  by decide
theorem witness_Apache8JumpzBranchesOnZero :
    b8.mem.cap ≤ (3#4).toNat ∧ b8.x[0].toNat = 0 ∧ b8.x[1].toNat ≠ 0 :=
  by decide
theorem witness_Apache8JumpAndStop :
    b8.mem.cap ≤ (3#4).toNat ∧ b8.x[0].toNat = 0 ∧ b8.x[1].toNat ≠ 0 :=
  by decide
theorem witness_Apache8InPromptsReadsAndStores_waits :
    (l8 16 goodLine).input[1]? = none ∧ w8.input[w8.inPos]? = none :=
  by decide
theorem witness_Apache8InPromptsReadsAndStores_stores :
    (l8 16 goodLine).input[(l8 16 goodLine).inPos]? = some goodLine ∧
    acceptLine (l8 16 goodLine).params goodLine = .ok 255 ∧ (15#4).toNat < (l8 16 goodLine).mem.cap :=
  ⟨rfl, rfl, by decide⟩
theorem witness_Apache8InPromptsReadsAndStores_outOfBounds :
    (l8 3 goodLine).input[(l8 3 goodLine).inPos]? = some goodLine ∧
    acceptLine (l8 3 goodLine).params goodLine = .ok 255 ∧ (l8 3 goodLine).mem.cap ≤ (3#4).toNat :=
  ⟨rfl, rfl, by decide⟩
theorem witness_Apache8InPromptsReadsAndStores_rejects :
    (l8 16 badLine).input[(l8 16 badLine).inPos]? = some badLine ∧
    acceptLine (l8 16 badLine).params badLine = .error (.parseError .input) :=
  ⟨rfl, rfl⟩
theorem witness_Apache16LoadCopiesAMemoryWord :
    (1023#10).toNat < w16.mem.cap ∧ b16.mem.cap ≤ (1023#10).toNat :=
  by decide
theorem witness_Apache16StoreWritesAMemoryWord :
    (1023#10).toNat < w16.mem.cap ∧ b16.mem.cap ≤ (1023#10).toNat :=
  by decide
theorem witness_Apache16AddIsModulo65536 :
    (1023#10).toNat < w16.mem.cap ∧ b16.mem.cap ≤ (1023#10).toNat :=
  by decide
theorem witness_Apache16SubIsModulo65536 :
    (1023#10).toNat < w16.mem.cap ∧ b16.mem.cap ≤ (1023#10).toNat :=
  by decide
theorem witness_Apache16MulKeepsTheLowWord :
    (1023#10).toNat < w16.mem.cap ∧ b16.mem.cap ≤ (1023#10).toNat :=
  by decide
theorem witness_Apache16JumpzBranchesOnZero :
    b16.mem.cap ≤ (1023#10).toNat ∧ b16.x[0].toNat = 0 ∧ b16.x[3].toNat ≠ 0 :=
  by decide
theorem witness_Apache16JumpSetsPc :
    b16.mem.cap ≤ (1023#10).toNat ∧ b16.x[0].toNat = 0 ∧ b16.x[3].toNat ≠ 0 :=
  by decide
theorem witness_Apache16DivDividesOrFaults :
    ((1023#10).toNat < w16.mem.cap ∧ (w16.mem.read (1023#10).toNat).toNat ≠ 0) ∧
    ((1022#10).toNat < w16.mem.cap ∧ (w16.mem.read (1022#10).toNat).toNat = 0) ∧ b16.mem.cap ≤ (1023#10).toNat :=
  by decide
theorem witness_Apache16ShiftsAreLogical :
    (w16.params.shiftBig = .zero ∧ 16 ≤ (1023#10).toNat) ∧
    ({ w16 with params := { shiftBig := .draw } }.params.shiftBig = .draw ∧ (15#10).toNat < 16) :=
  by decide
theorem witness_Apache16BigShiftDrawsAFreeValue :
    ({ w16 with params := { shiftBig := .draw } }.params.shiftBig = .draw ∧ 16 ≤ (16#10).toNat) :=
  by decide
theorem witness_Apache16InPromptsReadsAndStores_waits :
    (l16 1024 goodLine).input[1]? = none ∧ w16.input[w16.inPos]? = none :=
  by decide
theorem witness_Apache16InPromptsReadsAndStores_stores :
    (l16 1024 goodLine).input[(l16 1024 goodLine).inPos]? = some goodLine ∧
    acceptLine (l16 1024 goodLine).params goodLine = .ok 255 ∧ (1023#10).toNat < (l16 1024 goodLine).mem.cap :=
  ⟨rfl, rfl, by decide⟩
theorem witness_Apache16InPromptsReadsAndStores_outOfBounds :
    (l16 1023 goodLine).input[(l16 1023 goodLine).inPos]? = some goodLine ∧
    acceptLine (l16 1023 goodLine).params goodLine = .ok 255 ∧ (l16 1023 goodLine).mem.cap ≤ (1023#10).toNat :=
  ⟨rfl, rfl, by decide⟩
theorem witness_Apache16InPromptsReadsAndStores_rejects :
    (l16 1024 badLine).input[(l16 1024 badLine).inPos]? = some badLine ∧
    acceptLine (l16 1024 badLine).params badLine = .error (.parseError .input) :=
  ⟨rfl, rfl⟩
theorem witness_Apache16ReservedAreNoOpsAndStopHalts :
    (w16.mem.cap ≤ 1024 ∧ w16.ctl = .fetch ∧ w16.halt = false ∧ 0 < w16.budget ∧ w16.pc.toNat < w16.mem.cap ∧
      w16.pc.toNat + 1 = w16.mem.cap ∧ (w16.mem.read w16.pc.toNat).toNat / 4096 = 11) ∧
    ((start16 1 [(0, 0xCFFF)] #v[0, 0, 0, 0] 0 []).ctl = .fetch ∧
      (start16 1 [(0, 0xCFFF)] #v[0, 0, 0, 0] 0 []).halt = false ∧
      0 < (start16 1 [(0, 0xCFFF)] #v[0, 0, 0, 0] 0 []).budget ∧
      ((start16 1 [(0, 0xCFFF)] #v[0, 0, 0, 0] 0 []).mem.read 0).toNat / 4096 = 12) :=
  by decide
theorem witness_FetchLoadsCirAndIncrementsPc :
    (w8.pc.toNat < w8.mem.cap ∧ w8.pc.toNat + 1 = w8.mem.cap) ∧ (b8.mem.cap ≤ b8.pc.toNat ∧ b8.pc.toNat = b8.mem.cap) :=
  by decide
theorem witness_StepRunsTheDecodedInstruction :
    (w8.ctl = .fetch ∧ w8.halt = false ∧ 0 < w8.budget ∧ w8.pc.toNat < w8.mem.cap) ∧
    (w16.mem.cap ≤ 1024 ∧ w16.ctl = .fetch ∧ w16.halt = false ∧ 0 < w16.budget ∧ w16.pc.toNat < w16.mem.cap) :=
  by decide
theorem witness_HaltAndBudgetAreTestedBeforeTheFetch_8 :
    ({ w8 with halt := true, budget := 0 }.ctl = .fetch ∧ { w8 with halt := true, budget := 0 }.halt = true) ∧
    ({ w8 with budget := 0 }.ctl = .fetch ∧ { w8 with budget := 0 }.halt = false ∧ { w8 with budget := 0 }.budget = 0) ∧
    (b8.ctl = .fetch ∧ b8.halt = false ∧ 0 < b8.budget ∧ b8.mem.cap ≤ b8.pc.toNat) :=
  by decide
theorem witness_HaltAndBudgetAreTestedBeforeTheFetch_16 :
    w16.mem.cap ≤ 1024 ∧ b16.mem.cap ≤ 1024 ∧
    ({ w16 with halt := true, budget := 0 }.ctl = .fetch ∧ { w16 with halt := true, budget := 0 }.halt = true) ∧
    ({ w16 with budget := 0 }.ctl = .fetch ∧ { w16 with budget := 0 }.halt = false ∧ { w16 with budget := 0 }.budget = 0) ∧
    (b16.ctl = .fetch ∧ b16.halt = false ∧ 0 < b16.budget ∧ b16.mem.cap ≤ b16.pc.toNat) :=
  by decide
theorem witness_StopEndsTheRun_8 :
    (start8 16 [(15, 0x7F)] #v[0, 1] 15 []).ctl = .fetch ∧ (start8 16 [(15, 0x7F)] #v[0, 1] 15 []).halt = false ∧
    0 < (start8 16 [(15, 0x7F)] #v[0, 1] 15 []).budget ∧ (15#8).toNat < 16 ∧
    ((start8 16 [(15, 0x7F)] #v[0, 1] 15 []).mem.read 15).toNat / 16 = 7 :=
  by decide
theorem witness_StopEndsTheRun_16 :
    (start16 1024 [(1023, 0xDFFF)] #v[0, 1, 2, 3] 1023 []).mem.cap ≤ 1024 ∧
    (start16 1024 [(1023, 0xDFFF)] #v[0, 1, 2, 3] 1023 []).ctl = .fetch ∧
    (start16 1024 [(1023, 0xDFFF)] #v[0, 1, 2, 3] 1023 []).halt = false ∧
    0 < (start16 1024 [(1023, 0xDFFF)] #v[0, 1, 2, 3] 1023 []).budget ∧ (1023#16).toNat < 1024 ∧
    ((start16 1024 [(1023, 0xDFFF)] #v[0, 1, 2, 3] 1023 []).mem.read 1023).toNat / 4096 = 13 :=
  by decide
theorem witness_CompletedCyclesAreCounted :
    ∃ t u : State, (State.ctl ⟨.a8 w8⟩ = .fetch ∧ State.halt ⟨.a8 w8⟩ = false ∧ 0 < State.budget ⟨.a8 w8⟩ ∧
      step ⟨.a8 w8⟩ = .next t) ∧
    (State.ctl ⟨.a16 (wait16 32 [])⟩ = .waitIn ∧ State.halt ⟨.a16 (wait16 32 [])⟩ = false ∧
      0 < State.budget ⟨.a16 (wait16 32 [])⟩ ∧ step ⟨.a16 (wait16 32 [])⟩ = .next u) :=
  ⟨_, _, ⟨rfl, rfl, by decide, rfl⟩, ⟨rfl, rfl, by decide, rfl⟩⟩
theorem witness_OnlyInBlocks :
    ∃ t u : State, (State.ctl ⟨.a8 { w8 with ctl := .execute }⟩ = .execute ∧
      step ⟨.a8 { w8 with ctl := .execute }⟩ = .next t) ∧
    (State.ctl ⟨.a16 w16⟩ = .fetch ∧ State.halt ⟨.a16 w16⟩ = false ∧ 0 < State.budget ⟨.a16 w16⟩ ∧
      step ⟨.a16 w16⟩ = .next u) :=
  ⟨_, _, ⟨rfl, rfl⟩, ⟨rfl, rfl, by decide, rfl⟩⟩
theorem witness_WaitingInResumesWhenALineComes_8_waits :
    (wait8 4 []).mem.cap ≤ 1024 ∧ (wait8 4 []).ctl = .waitIn ∧ (wait8 4 []).input[(wait8 4 []).inPos]? = none :=
  by decide
theorem witness_WaitingInResumesWhenALineComes_8_stores :
    (wait8 4 [goodLine]).ctl = .waitIn ∧ (wait8 4 [goodLine]).mem.cap ≤ 1024 ∧ (wait8 4 [goodLine]).input[(wait8 4 [goodLine]).inPos]? = some goodLine ∧
    acceptLine (wait8 4 [goodLine]).params goodLine = .ok 255 ∧ (wait8 4 [goodLine]).cir.toNat % 16 < (wait8 4 [goodLine]).mem.cap :=
  ⟨rfl, by decide, rfl, rfl, by decide⟩
theorem witness_WaitingInResumesWhenALineComes_8_outOfBounds :
    (wait8 3 [goodLine]).ctl = .waitIn ∧ (wait8 3 [goodLine]).mem.cap ≤ 1024 ∧ (wait8 3 [goodLine]).input[(wait8 3 [goodLine]).inPos]? = some goodLine ∧
    acceptLine (wait8 3 [goodLine]).params goodLine = .ok 255 ∧ (wait8 3 [goodLine]).mem.cap ≤ (wait8 3 [goodLine]).cir.toNat % 16 :=
  ⟨rfl, by decide, rfl, rfl, by decide⟩
theorem witness_WaitingInResumesWhenALineComes_8_rejects :
    (wait8 4 [badLine]).ctl = .waitIn ∧ (wait8 4 [badLine]).mem.cap ≤ 1024 ∧ (wait8 4 [badLine]).input[(wait8 4 [badLine]).inPos]? = some badLine ∧
    acceptLine (wait8 4 [badLine]).params badLine = .error (.parseError .input) :=
  ⟨rfl, by decide, rfl, rfl⟩
theorem witness_WaitingInResumesWhenALineComes_16_waits :
    (wait16 21 []).mem.cap ≤ 1024 ∧ (wait16 21 []).ctl = .waitIn ∧ (wait16 21 []).input[(wait16 21 []).inPos]? = none :=
  by decide
theorem witness_WaitingInResumesWhenALineComes_16_stores :
    (wait16 21 [goodLine]).ctl = .waitIn ∧ (wait16 21 [goodLine]).mem.cap ≤ 1024 ∧ (wait16 21 [goodLine]).input[(wait16 21 [goodLine]).inPos]? = some goodLine ∧
    acceptLine (wait16 21 [goodLine]).params goodLine = .ok 255 ∧ (wait16 21 [goodLine]).cir.toNat % 1024 < (wait16 21 [goodLine]).mem.cap :=
  ⟨rfl, by decide, rfl, rfl, by decide⟩
theorem witness_WaitingInResumesWhenALineComes_16_outOfBounds :
    (wait16 20 [goodLine]).ctl = .waitIn ∧ (wait16 20 [goodLine]).mem.cap ≤ 1024 ∧ (wait16 20 [goodLine]).input[(wait16 20 [goodLine]).inPos]? = some goodLine ∧
    acceptLine (wait16 20 [goodLine]).params goodLine = .ok 255 ∧ (wait16 20 [goodLine]).mem.cap ≤ (wait16 20 [goodLine]).cir.toNat % 1024 :=
  ⟨rfl, by decide, rfl, rfl, by decide⟩
theorem witness_WaitingInResumesWhenALineComes_16_rejects :
    (wait16 21 [badLine]).ctl = .waitIn ∧ (wait16 21 [badLine]).mem.cap ≤ 1024 ∧ (wait16 21 [badLine]).input[(wait16 21 [badLine]).inPos]? = some badLine ∧
    acceptLine (wait16 21 [badLine]).params badLine = .error (.parseError .input) :=
  ⟨rfl, by decide, rfl, rfl⟩
theorem witness_RunOnAnIdleCoreContinues :
    { w8 with ctl := .idle }.ctl = .idle ∧ { w8 with ctl := .idle }.status = none ∧ { w8 with ctl := .idle }.halt = false :=
  by decide
theorem witness_HaltedAndFaultedAreAbsorbing :
    ∃ t u : State, (State.ctl ⟨.a8 { w8 with ctl := .halted }⟩ = .halted ∧ step ⟨.a8 { w8 with ctl := .halted }⟩ = .next t) ∧
    (State.ctl ⟨.a16 (w16.raise .arithmeticFault)⟩ = .faulted ∧ step ⟨.a16 (w16.raise .arithmeticFault)⟩ = .next u) ∧
    { w8 with ctl := .halted }.ctl = .halted ∧
    (w16.raise .arithmeticFault).ctl = .faulted ∧ (w16.raise .arithmeticFault).status = some .arithmeticFault :=
  ⟨_, _, ⟨rfl, rfl⟩, ⟨rfl, rfl⟩, rfl, rfl, rfl⟩
theorem witness_RunEndsWithinItsBudget :
    State.constructed ⟨.a16 w16⟩ = true ∧ State.ctl ⟨.a16 w16⟩ = .fetch :=
  by decide
theorem witness_StateMachineRefinesTheRunLoop :
    State.constructed State.reset = true ∧ State.ctl State.reset = .idle :=
  by decide
theorem witness_MemoryRoundTrip :
    (15 < w8.mem.cap ∧ 14 ≠ 15) ∧ w8.mem.cap ≤ 16 :=
  by decide
theorem witness_CanonicalMemoriesThatReadAlikeAreEqual :
    ∃ a b : Memory 16, a.wf ∧ b.wf ∧ a.cap = b.cap ∧ ∀ i, a.read i = b.read i :=
  ⟨w16.mem, w16.mem, by decide, by decide, rfl, fun _ => rfl⟩
theorem witness_StoreIsSeenByTheNextFetch_8 :
    ∃ m : Apache 8 2, (15#4).toNat < m.mem.cap ∧ m.pc.toNat = (15#4).toNat ∧ m.input[m.inPos]? = some goodLine ∧
    acceptLine m.params goodLine = .ok 255 :=
  ⟨{ l8 16 goodLine with pc := 15 }, by decide, by decide, rfl, rfl⟩
theorem witness_StoreIsSeenByTheNextFetch_16 :
    ∃ m : Apache 16 4, (1023#10).toNat < m.mem.cap ∧ m.pc.toNat = (1023#10).toNat ∧ m.input[m.inPos]? = some goodLine ∧
    acceptLine m.params goodLine = .ok 255 :=
  ⟨{ l16 1024 goodLine with pc := 1023 }, by decide, by decide, rfl, rfl⟩
theorem witness_HandlerUsesOneMemoryWord_8 :
    ∃ (t t' : Apache 8 2) (mem' : Memory 8), mem' ≠ w8.mem ∧ mem'.cap = w8.mem.cap ∧
    (∀ a, (Instr.addR0 15).readAddress = some a → mem'.read a = w8.mem.read a) ∧
    exec (.addR0 15) ⟨.a8 w8⟩ = .next ⟨.a8 t⟩ ∧ exec (.addR0 15) ⟨.a8 { w8 with mem := mem' }⟩ = .next ⟨.a8 t'⟩ :=
  ⟨_, _, { cap := 16, cells := [(0, 1), (15, 0x50)] }, by decide, rfl, fun _ h => by cases h; rfl, rfl, rfl⟩
theorem witness_HandlerUsesOneMemoryWord_16 :
    ∃ (t t' : Apache 16 4) (mem' : Memory 16), mem' ≠ w16.mem ∧ mem'.cap = w16.mem.cap ∧
    (∀ a, (Instr.div 1 1023).readAddress = some a → mem'.read a = w16.mem.read a) ∧
    exec (.div 1 1023) ⟨.a16 w16⟩ = .next ⟨.a16 t⟩ ∧ exec (.div 1 1023) ⟨.a16 { w16 with mem := mem' }⟩ = .next ⟨.a16 t'⟩ :=
  ⟨_, _, { cap := 1024, cells := [(0, 1), (1023, 0xB000)] }, by decide, rfl, fun _ h => by cases h; rfl, rfl, rfl⟩
theorem witness_ConstructionGivesTheResetValues :
    (Memory.create 16 1024).cap ≤ 1024 :=
  by decide
theorem witness_ConstructionChecksTheCapacity :
    1024 < (Memory.create 16 1025).cap ∧ (Memory.create 16 1024).cap ≤ 1024 ∧ 1024 < (start16 1025 [] #v[0, 0, 0, 0] 0 []).mem.cap :=
  by decide
theorem w8_inv : State.Inv ⟨.a8 w8⟩ :=
  ⟨rfl, by decide, by decide, fun _ h => (by cases h), rfl, rfl⟩
theorem w16_inv : State.Inv ⟨.a16 w16⟩ :=
  ⟨by decide, by decide, by decide, fun _ h => (by cases h), rfl, rfl⟩
theorem witness_EveryStepKeepsTheInvariant :
    ∃ t u : State, (State.Inv ⟨.a8 w8⟩ ∧ step ⟨.a8 w8⟩ = .next t) ∧ (State.Inv ⟨.a16 w16⟩ ∧ step ⟨.a16 w16⟩ = .next u) :=
  ⟨_, _, ⟨w8_inv, rfl⟩, ⟨w16_inv, rfl⟩⟩
theorem witness_TheCallerKeepsTheInvariant :
    ∃ s t u : State, State.Inv ⟨.a16 w16⟩ ∧ w8.mem.wf ∧
    constructApache8 w8.mem {} = .ok ⟨.a8 (Apache.fresh 8 2 w8.mem {})⟩ ∧
    w16.mem.wf ∧ constructApache16 w16.mem {} = .ok s ∧ State.writeWord 1023 65535 ⟨.a16 w16⟩ = .ok t ∧
    State.Inv ⟨.a8 { w8 with ctl := .idle, outcome := some .exhausted, budget := 0 }⟩ ∧
    State.buildMemory 1025 ⟨.a8 { w8 with ctl := .idle, outcome := some .exhausted, budget := 0 }⟩ = .ok u :=
  ⟨_, _, _, w16_inv, by decide, rfl, by decide, rfl, rfl, ⟨rfl, by decide, by decide, fun _ h => (by cases h), rfl, rfl, rfl, .inr rfl⟩, rfl⟩
theorem witness_TheCallerKeepsTheInvariant_16 :
    ∃ t : State, State.Inv ⟨.a16 (Apache.fresh 16 4 w16.mem {})⟩ ∧
    State.buildMemory 1024 ⟨.a16 (Apache.fresh 16 4 w16.mem {})⟩ = .ok t :=
  ⟨_, ⟨by decide, by decide, by decide, fun _ h => (by cases h), rfl, rfl, rfl, .inl rfl⟩, rfl⟩
theorem witness_HandlersWriteOnlyWhatTheTablesAllow_8 :
    ∃ t u : Apache 8 2, (exec (.jump8 3) ⟨.a8 w8⟩ = .next ⟨.a8 t⟩ ∧ t.pc ≠ w8.pc) ∧
    (exec .stop8 ⟨.a8 w8⟩ = .next ⟨.a8 u⟩ ∧ u.halt ≠ w8.halt) ∧ (Instr.jump8 3).writesReg ≠ some (1 : Fin 2).val :=
  ⟨_, _, ⟨rfl, by decide⟩, ⟨rfl, by decide⟩, by decide⟩
theorem witness_HandlersWriteOnlyWhatTheTablesAllow_16 :
    ∃ t u : Apache 16 4, (exec (.jump16 3) ⟨.a16 w16⟩ = .next ⟨.a16 t⟩ ∧ t.pc ≠ w16.pc) ∧
    (exec .stop16 ⟨.a16 w16⟩ = .next ⟨.a16 u⟩ ∧ u.halt ≠ w16.halt) ∧ (Instr.not 2).writesReg ≠ some (3 : Fin 4).val :=
  ⟨_, _, ⟨rfl, by decide⟩, ⟨rfl, by decide⟩, by decide⟩
theorem witness_VariantCapacityAndParametersNeverChange :
    ∃ t u : State, step ⟨.a8 (l8 16 goodLine)⟩ = .next t ∧ step ⟨.a16 w16⟩ = .next u :=
  ⟨_, _, rfl, rfl⟩
theorem witness_PortsOnlyMoveForward :
    ∃ t u : State, step ⟨.a8 (l8 16 goodLine)⟩ = .next t ∧ step ⟨.a16 w16⟩ = .next u :=
  ⟨_, _, rfl, rfl⟩
theorem witness_FaultsArePrecise_8 :
    ∃ t u : Apache 8 2, (b8.status = none ∧ exec (.storeR1 3) ⟨.a8 b8⟩ = .next ⟨.a8 t⟩ ∧
      t.status = some (.outOfBounds .write 3) ∧ ¬ (Instr.storeR1 3).isIn) ∧
    ((l8 16 badLine).status = none ∧ exec (.in8 15) ⟨.a8 (l8 16 badLine)⟩ = .next ⟨.a8 u⟩ ∧
      u.status = some (.parseError .input) ∧ (Instr.in8 15).isIn) :=
  ⟨_, _, ⟨rfl, rfl, rfl, by simp [Instr.isIn]⟩, ⟨rfl, rfl, rfl, .inl ⟨15, rfl⟩⟩⟩
theorem witness_FaultsArePrecise_16 :
    ∃ t u : Apache 16 4, (w16.status = none ∧ exec (.div 1 1022) ⟨.a16 w16⟩ = .next ⟨.a16 t⟩ ∧
      t.status = some .arithmeticFault ∧ ¬ (Instr.div 1 1022).isIn) ∧
    ((l16 1023 goodLine).status = none ∧ exec (.in16 1023) ⟨.a16 (l16 1023 goodLine)⟩ = .next ⟨.a16 u⟩ ∧
      u.status = some (.outOfBounds .write 1023) ∧ (Instr.in16 1023).isIn) :=
  ⟨_, _, ⟨rfl, rfl, rfl, by simp [Instr.isIn]⟩, ⟨rfl, rfl, rfl, .inr ⟨1023, rfl⟩⟩⟩
theorem witness_FaultsAreThoseOfTheTaxonomy_8 :
    ∃ t u : Apache 8 2, (b8.status = none ∧ exec (.storeR1 3) ⟨.a8 b8⟩ = .next ⟨.a8 t⟩ ∧
      t.status = some (.outOfBounds .write 3) ∧ ¬ (Instr.storeR1 3).isIn) ∧
    ((l8 16 badLine).status = none ∧ exec (.in8 15) ⟨.a8 (l8 16 badLine)⟩ = .next ⟨.a8 u⟩ ∧
      u.status = some (.parseError .input) ∧ (Instr.in8 15).isIn) :=
  ⟨_, _, ⟨rfl, rfl, rfl, by simp [Instr.isIn]⟩, ⟨rfl, rfl, rfl, .inl ⟨15, rfl⟩⟩⟩
theorem witness_FaultsAreThoseOfTheTaxonomy_16 :
    ∃ t u : Apache 16 4, (w16.status = none ∧ exec (.div 1 1022) ⟨.a16 w16⟩ = .next ⟨.a16 t⟩ ∧
      t.status = some .arithmeticFault ∧ ¬ (Instr.div 1 1022).isIn) ∧
    ((l16 1023 goodLine).status = none ∧ exec (.in16 1023) ⟨.a16 (l16 1023 goodLine)⟩ = .next ⟨.a16 u⟩ ∧
      u.status = some (.outOfBounds .write 1023) ∧ (Instr.in16 1023).isIn) :=
  ⟨_, _, ⟨rfl, rfl, rfl, by simp [Instr.isIn]⟩, ⟨rfl, rfl, rfl, .inr ⟨1023, rfl⟩⟩⟩
theorem witness_FaultsArePrecise_fetch :
    b8.status = none ∧ b8.fetch.status = some (.outOfBounds .fetch 3) :=
  by decide
theorem witness_NoInstructionOfACoreIsRefused :
    (Instr.in8 15).wellFormed (State.variant ⟨.a8 w8⟩) = true ∧ (Instr.in16 15).wellFormed (State.variant ⟨.a8 w8⟩) = false ∧
    State.constructed ⟨.a16 w16⟩ = true :=
  by decide
theorem witness_ParseDecimalReadsDigitLines :
    (parseDecimal goodLine = some 255 ∧ '0'.toNat ≤ '9'.toNat ∧ '9'.toNat ≤ '9'.toNat) ∧
    ((({ inMax := none } : Params).inMax = none) ∧ ({ inMax := some 255 } : Params).inMax = some 255 ∧ 255 ≤ 255) ∧
    (({ inMax := some 254 } : Params).inMax = some 254 ∧ 254 < 255) ∧ parseDecimal badLine = none ∧ parseDecimal [] = none :=
  by decide
theorem witness_OutputTextIsDecimal :
    0 < 1 ∧ decimalText 1 = ['1'] ∧ decimalText 10 = ['1', '0'] :=
  by decide
theorem witness_LoaderPlacesWordsFromZero :
    (splitLines ['1', '\n', '1', ' ', '0', '\n', '-', '1'] = [['1'], ['1', ' ', '0']] ++ [badLine] ∧
    (∀ line ∈ [['1'], ['1', ' ', '0']], isBlank line = false) ∧
    [['1'], ['1', ' ', '0']].map (parseWord 8) = [1#8, 2#8].map some ∧ (Memory.create 8 2).cap ≤ [1#8, 2#8].length) ∧
    (splitLines ['1', '\n'] = [['1']] ++ [] ∧ [['1']].map (parseWord 8) = [1#8].map some) ∧
    ('\n' ∉ ([] : List Char) ∧ '\n' ∉ badLine ∧ badLine ≠ []) :=
  by decide
theorem witness_LoaderStopsAtAMalformedLine :
    (∀ l ∈ [[], [' ', '\t', '\r']], ∀ c ∈ l, c = ' ' ∨ c = '\t' ∨ c = '\r') ∧ 15 < (Memory.create 8 16).cap ∧
    ((∃ c ∈ ['x'], c ≠ ' ' ∧ c ≠ '\t' ∧ c ≠ '\r') ∧ lineDigits ['x'] = []) ∧
    ((∃ c ∈ ['1', '2'], c ≠ ' ' ∧ c ≠ '\t' ∧ c ≠ '\r') ∧ (∃ d ∈ lineDigits ['1', '2'], 1 < d)) ∧
    ((∃ c ∈ line256, c ≠ ' ' ∧ c ≠ '\t' ∧ c ≠ '\r') ∧ 2 ^ 8 ≤ binaryValue (lineDigits line256)) ∧
    ((∃ c ∈ line255, c ≠ ' ' ∧ c ≠ '\t' ∧ c ≠ '\r') ∧ lineDigits line255 ≠ [] ∧ (∀ d ∈ lineDigits line255, d ≤ 1) ∧
      binaryValue (lineDigits line255) < 2 ^ 8) :=
  ⟨by simp, by decide, ⟨⟨_, .head _, by decide⟩, by decide⟩, ⟨⟨_, .head _, by decide⟩, 2, by decide, by decide⟩,
    ⟨⟨_, .head _, by decide⟩, by decide⟩, ⟨_, .head _, by decide⟩, by decide, by decide, by decide⟩
theorem witness_LoaderStopsAtAMalformedLine_digits :
    ('0'.toNat ≤ '0'.toNat ∧ '0'.toNat ≤ '9'.toNat) ∧ ('0'.toNat ≤ '9'.toNat ∧ '9'.toNat ≤ '9'.toNat) ∧
    '/'.toNat < '0'.toNat ∧ '9'.toNat < ':'.toNat :=
  by decide
theorem witness_LoaderReadsBinaryNumerals :
    (['0', ' ', '1', '0', '0', '0', 'x', '0', '0', '0', '1'] : Line).filter (fun c => (digitValue c).isSome) =
    List.replicate 1 '0' ++ (List.range 8).reverse.map (fun i => if (0x81#8).getLsbD i then '1' else '0') :=
  by decide
theorem witness_LoaderReadsBinaryNumerals_values :
    (['-', '1', '0'].filter (fun c => '0'.toNat ≤ c.toNat && c.toNat ≤ '9'.toNat) =
      [true, false].map (fun b => if b then '1' else '0') ∧
      ([true, false].reverse.zipIdx.map (fun b => if b.1 then 2 ^ b.2 else 0)).sum = 2 ∧ 2 < 2 ^ 8) ∧
    (line256.filter (fun c => '0'.toNat ≤ c.toNat && c.toNat ≤ '9'.toNat) =
      bits256.map (fun b => if b then '1' else '0') ∧
      (bits256.reverse.zipIdx.map (fun b => if b.1 then 2 ^ b.2 else 0)).sum = 2 ^ 8) ∧
    (∀ c ∈ ['-', '/', ':'], c.toNat < '0'.toNat ∨ '9'.toNat < c.toNat) ∧
    (∃ c ∈ ['1', '2'], '2'.toNat ≤ c.toNat ∧ c.toNat ≤ '9'.toNat) :=
  ⟨by decide, ⟨by decide, by decide⟩, by simp, _, .tail _ (.head _), by decide, by decide⟩
theorem witness_BootFetchesWordZeroFirst :
    (Memory.create 8 1).loadProgram ['1'] = ({ cap := 1, cells := [(0, 1)] }, none) ∧ 0 < 1 ∧
    (Memory.create 16 1024).loadProgram ['1'] = ({ cap := 1024, cells := [(0, 1)] }, none) ∧ 1024 ≤ 1024 ∧
    ((Memory.create 8 1).loadProgram badDigit).2 = some (.parseError .load) ∧
    ((Memory.create 16 1024).loadProgram badDigit).2 = some (.parseError .load) ∧ 1024 < 1025 ∧
    (15 < w8.mem.cap ∧ w8.mem.cap ≤ 16) ∧ (1023 < w16.mem.cap ∧ w16.mem.cap ≤ 1024) :=
  by decide

/-- R177 (log 21): with a malformed text and 1025 words the construction error is the one reported. -/
theorem test_boot_construct_first :
    bootApache16 1025 badDigit [] {} 1 = .error (.parseError .construct) := rfl
/-- R204: the memory of the machine after reset can be loaded, and Run(1) then runs word 0 (NOT R0). -/
theorem test_load_after_construction :
    (stepped8 ((State.reset.loadProgram ['0', '1', '0', '1', '0', '0', '0', '0']).1.callRun 1)).map (fun t => (t.x, t.pc)) =
    some (#v[0xFF, 0], 1) := by decide

end Sys2Proof.Tests
end

section
/-! PROOFS. The read and write control (spec/20_memory.md R50 to R52): what the read control answers on a memory after a
write, and the round trip assembled from it. -/

namespace Sys2Proof.Machine

variable {w : Nat}

/-! ## The read control after a write -/

/-- Below the capacity the read control answers the word just written (R52). -/
theorem Memory.get_put_self {mem : Memory w} {a : Nat} (access : Access) (v : BitVec w) (h : a < mem.cap) :
    (mem.put a v).get access a = .ok v := by
  rw [Memory.get_valid access (by simpa using h), Memory.put_read_self]

/-- At every other address, valid or not, the read control answers what it answered before the write (R52): the
capacity, and so the bounds check, is the same. -/
theorem Memory.get_put_ne (mem : Memory w) (access : Access) {a b : Nat} (v : BitVec w) (h : b ≠ a) :
    (mem.put a v).get access b = mem.get access b := by
  rcases Nat.lt_or_ge b mem.cap with hb | hb
  · rw [Memory.get_valid access (by simpa using hb), Memory.get_valid access hb, Memory.put_read_ne mem v h]
  · rw [Memory.get_invalid access (by simpa using hb), Memory.get_invalid access hb]

end Sys2Proof.Machine

namespace Sys2Proof.Proofs

open Sys2Proof.Machine

/-- Settles O39: the memory that results from a valid write is `mem.put a v`, and the read control on it is known at the
address written and at every other one. -/
theorem memoryRoundTrip : Obligations.MemoryRoundTrip := by
  intro w mem access a v
  constructor
  · intro valid
    exact ⟨Memory.get_valid access valid, mem.put a v, Memory.set_valid v valid, Memory.put_cap mem a v,
      Memory.get_put_self access v valid, fun b other => Memory.get_put_ne mem access v other⟩
  · intro invalid
    exact ⟨Memory.get_invalid access invalid, Memory.set_invalid v invalid⟩

end Sys2Proof.Proofs
end

section
/-! PROOFS. The Apache-8 instructions (spec/41_apache8.md): the decoder on the words of R78, the shared handlers as
equations over every width and register count, the meaning of each instruction as its handler, and the statements
assembled from these three. -/

namespace Sys2Proof

/-! ## The decoder on the words of the opcode map (R78) -/

/-- The decoder undoes the encoder: opcode and operand stand in fields of their own (R71). -/
theorem decode8_of_encode8 {i : Instr} {word : BitVec 8} (h : encode8 i = some word) : decode8 word = i := by
  cases i <;> cases h <;> simp [decode8]

/-- In the rows without an operand the low four bits have no effect (R82). -/
theorem decode8_ignores_addr {op : BitVec 4}
    (h : op = 0b0100#4 ∨ op = 0b0101#4 ∨ op = 0b0111#4 ∨ op = 0b1100#4 ∨ op = 0b1101#4 ∨ op = 0b1110#4)
    (a b : BitVec 4) : decode8 (op ++ a) = decode8 (op ++ b) := by
  rcases h with rfl | rfl | rfl | rfl | rfl | rfl <;> simp [decode8]

/-- So any low bits may stand where the encoder writes zeros. -/
theorem decode8_of_encode8_ignored {i : Instr} {op : BitVec 4} (addr : BitVec 4) (hi : encode8 i = some (op ++ 0#4))
    (h : op = 0b0100#4 ∨ op = 0b0101#4 ∨ op = 0b0111#4 ∨ op = 0b1100#4 ∨ op = 0b1101#4 ∨ op = 0b1110#4) :
    decode8 (op ++ addr) = i :=
  (decode8_ignores_addr h addr 0#4).trans (decode8_of_encode8 hi)

end Sys2Proof

namespace Sys2Proof.Machine

variable {w n : Nat}

/-! ## Registers and memory -/

/-- Fault entry as the statements write it (R175). -/
theorem raise_eq_afterFault (m : Apache w n) (f : FaultRecord) : m.raise f = m.afterFault f := rfl

@[simp] theorem readReg_writeReg_self (m : Apache w n) (r : Fin n) (v : BitVec w) : (m.writeReg r v).readReg r = v := by
  simp [Apache.readReg]

/-- Of two writes to a register the second counts. -/
@[simp] theorem writeReg_writeReg_self (m : Apache w n) (r : Fin n) (u v : BitVec w) :
    (m.writeReg r u).writeReg r v = m.writeReg r v := by
  simp [Apache.writeReg]

@[simp] theorem writeReg_readReg (m : Apache w n) (r : Fin n) : m.writeReg r (m.readReg r) = m := by
  simp [Apache.writeReg, Apache.readReg]

/-- `put` is the write `M[a] <- v` of R51, R52. -/
theorem Memory.put_storedAt (mem : Memory w) (a : Nat) (v : BitVec w) : mem.StoredAt (mem.put a v) a v :=
  ⟨put_cap mem a v, put_read_self mem a v, fun _ other => put_read_ne mem v other⟩

/-! ## The shared handlers as equations -/

theorem load_valid {m : Apache w n} (r : Fin n) {a : Nat} (h : a < m.mem.cap) :
    m.load r a = m.writeReg r (m.mem.read a) :=
  withOperand_valid _ h

theorem load_invalid {m : Apache w n} (r : Fin n) {a : Nat} (h : m.mem.cap ≤ a) :
    m.load r a = m.afterFault (.outOfBounds .read a) :=
  withOperand_invalid _ h

theorem add_valid {m : Apache w n} (r : Fin n) {a : Nat} (h : a < m.mem.cap) :
    m.add r a = m.writeReg r (aluAdd (m.readReg r) (m.mem.read a)) :=
  withOperand_valid _ h

theorem add_invalid {m : Apache w n} (r : Fin n) {a : Nat} (h : m.mem.cap ≤ a) :
    m.add r a = m.afterFault (.outOfBounds .read a) :=
  withOperand_invalid _ h

theorem store_valid {m : Apache w n} (r : Fin n) {a : Nat} (h : a < m.mem.cap) :
    m.store r a = { m with mem := m.mem.put a (m.readReg r) } :=
  storeOperand_valid _ h

theorem store_invalid {m : Apache w n} (r : Fin n) {a : Nat} (h : m.mem.cap ≤ a) :
    m.store r a = m.afterFault (.outOfBounds .write a) :=
  storeOperand_invalid _ h

/-- The test of JUMPZ on the number a register holds (R34, R122, R143). -/
theorem jumpz_eq (m : Apache w n) (r : Fin n) (target : BitVec w) :
    m.jumpz r target = if m.x[r].toNat = 0 then m.setPc target else m := by
  by_cases zero : m.x[r] = 0
  · rw [jumpz_taken target zero, if_pos (by simp [zero])]
  · rw [jumpz_not_taken target zero, if_neg (by simpa [BitVec.toNat_eq] using zero)]

/-- Complementing a register twice restores the whole core (R125, R150). -/
theorem complement_complement (m : Apache w n) (r : Fin n) : (m.complement r).complement r = m := by
  simp [Apache.complement, aluNot_eq]

/-- A jump target at or above the capacity faults at the next fetch (R94). -/
theorem fetch_of_target_invalid {k : Nat} (m : Apache w n) (addr : BitVec k) (hk : k ≤ w) (h : m.mem.cap ≤ addr.toNat) :
    (m.setPc (addr.setWidth w)).fetch = (m.setPc (addr.setWidth w)).afterFault (.outOfBounds .fetch addr.toNat) := by
  have target : (m.setPc (addr.setWidth w)).pc.toNat = addr.toNat := BitVec.toNat_setWidth_of_le hk
  rw [fetch_invalid (by rw [target]; exact h), target, raise_eq_afterFault]

/-! ## The meaning of an Apache-8 instruction is its handler -/

section
variable (m : Apache 8 2) (addr : BitVec 4)

theorem exec_loadR0 : exec (.loadR0 addr) ⟨.a8 m⟩ = .next ⟨.a8 (m.load 0 addr.toNat)⟩ := rfl
theorem exec_loadR1 : exec (.loadR1 addr) ⟨.a8 m⟩ = .next ⟨.a8 (m.load 1 addr.toNat)⟩ := rfl
theorem exec_storeR0 : exec (.storeR0 addr) ⟨.a8 m⟩ = .next ⟨.a8 (m.store 0 addr.toNat)⟩ := rfl
theorem exec_storeR1 : exec (.storeR1 addr) ⟨.a8 m⟩ = .next ⟨.a8 (m.store 1 addr.toNat)⟩ := rfl
theorem exec_addR0 : exec (.addR0 addr) ⟨.a8 m⟩ = .next ⟨.a8 (m.add 0 addr.toNat)⟩ := rfl
theorem exec_addR1 : exec (.addR1 addr) ⟨.a8 m⟩ = .next ⟨.a8 (m.add 1 addr.toNat)⟩ := rfl
theorem exec_jumpzR0 : exec (.jumpzR0 addr) ⟨.a8 m⟩ = .next ⟨.a8 (m.jumpz 0 (jumpTarget 8 addr))⟩ := rfl
theorem exec_jumpzR1 : exec (.jumpzR1 addr) ⟨.a8 m⟩ = .next ⟨.a8 (m.jumpz 1 (jumpTarget 8 addr))⟩ := rfl
theorem exec_jump8 : exec (.jump8 addr) ⟨.a8 m⟩ = .next ⟨.a8 (m.setPc (jumpTarget 8 addr))⟩ := rfl
theorem exec_notR0 : exec .notR0 ⟨.a8 m⟩ = .next ⟨.a8 (m.complement 0)⟩ := rfl
theorem exec_notR1 : exec .notR1 ⟨.a8 m⟩ = .next ⟨.a8 (m.complement 1)⟩ := rfl
theorem exec_notR0_complement : exec .notR0 ⟨.a8 (m.complement 0)⟩ = .next ⟨.a8 m⟩ := by
  rw [exec_notR0, complement_complement]
theorem exec_notR1_complement : exec .notR1 ⟨.a8 (m.complement 1)⟩ = .next ⟨.a8 m⟩ := by
  rw [exec_notR1, complement_complement]
theorem exec_stop8 : exec .stop8 ⟨.a8 m⟩ = .next ⟨.a8 m.setHalt⟩ := rfl
theorem exec_outR0 : exec .outR0 ⟨.a8 m⟩ = .next ⟨.a8 (m.emit (.value (m.readReg 0).toNat))⟩ := rfl

end

end Sys2Proof.Machine

namespace Sys2Proof.Proofs

open Sys2Proof.Machine

/-- Settles O5: LOAD is a checked read followed by a register write. -/
theorem apache8LoadCopiesAMemoryWord : Obligations.Apache8LoadCopiesAMemoryWord := by
  intro m addr
  refine ⟨⟨decode8_of_encode8 rfl, decode8_of_encode8 rfl⟩, fun valid => ?_, fun invalid => ?_⟩
  · rw [exec_loadR0, exec_loadR1, load_valid 0 valid, load_valid 1 valid]
    exact ⟨rfl, rfl⟩
  · rw [exec_loadR0, exec_loadR1, load_invalid 0 invalid, load_invalid 1 invalid]
    exact ⟨rfl, rfl⟩

/-- Settles O6: below the capacity the memory that results is `put` of the register at `addr`. -/
theorem apache8StoreWritesAMemoryWord : Obligations.Apache8StoreWritesAMemoryWord := by
  intro m addr
  refine ⟨⟨decode8_of_encode8 rfl, decode8_of_encode8 rfl⟩, fun valid => ?_, fun invalid => ?_⟩
  · rw [exec_storeR0, exec_storeR1, store_valid 0 valid, store_valid 1 valid]
    exact ⟨⟨_, Memory.put_storedAt m.mem _ _, rfl⟩, ⟨_, Memory.put_storedAt m.mem _ _, rfl⟩⟩
  · rw [exec_storeR0, exec_storeR1, store_invalid 0 invalid, store_invalid 1 invalid]
    exact ⟨rfl, rfl⟩

/-- Settles O7: the branch is `jumpz_eq`, and the fetch from a target beyond the memory is the one JUMP shares. -/
theorem apache8JumpzBranchesOnZero : Obligations.Apache8JumpzBranchesOnZero := by
  intro m addr
  refine ⟨⟨decode8_of_encode8 rfl, decode8_of_encode8 rfl⟩, ?_, ?_, fetch_of_target_invalid m addr (by decide)⟩
  · rw [exec_jumpzR0, jumpTarget_eq_setWidth, jumpz_eq]; rfl
  · rw [exec_jumpzR1, jumpTarget_eq_setWidth, jumpz_eq]; rfl

/-- Settles O8: the sum written is `aluAdd`, whose number is the remainder modulo `2 ^ 8`. -/
theorem apache8AddIsModulo256 : Obligations.Apache8AddIsModulo256 := by
  intro m addr
  refine ⟨⟨decode8_of_encode8 rfl, decode8_of_encode8 rfl⟩, fun valid => ?_, fun invalid => ?_⟩
  · rw [exec_addR0, exec_addR1, add_valid 0 valid, add_valid 1 valid]
    exact ⟨⟨_, aluAdd_toNat _ _, rfl⟩, ⟨_, aluAdd_toNat _ _, rfl⟩⟩
  · rw [exec_addR0, exec_addR1, add_invalid 0 invalid, add_invalid 1 invalid]
    exact ⟨rfl, rfl⟩

/-- Settles O10: the value written is `aluNot`, and a second NOT restores the core by `complement_complement`. -/
theorem apache8NotComplements : Obligations.Apache8NotComplements := by
  intro m addr
  exact ⟨⟨decode8_of_encode8_ignored addr rfl (by decide), decode8_of_encode8_ignored addr rfl (by decide)⟩,
    ⟨aluNot m.x[0], aluNot_toNat _, exec_notR0 m, exec_notR0_complement m⟩,
    ⟨aluNot m.x[1], aluNot_toNat _, exec_notR1 m, exec_notR1_complement m⟩⟩

/-- Settles O11: JUMP is the write of `pc` and STOP the write of `halt`, each with nothing beside it. -/
theorem apache8JumpAndStop : Obligations.Apache8JumpAndStop := by
  intro m addr
  refine ⟨⟨decode8_of_encode8 rfl, decode8_of_encode8_ignored addr rfl (by decide)⟩, ?_,
    fetch_of_target_invalid m addr (by decide), exec_stop8 m⟩
  rw [exec_jump8, jumpTarget_eq_setWidth]
  rfl

/-- Settles O12: OUT R0 is one event appended, whatever the ignored bits are. -/
theorem apache8OutEmitsR0 : Obligations.Apache8OutEmitsR0 := fun m addr =>
  ⟨decode8_of_encode8_ignored addr rfl (by decide), exec_outR0 m⟩

end Sys2Proof.Proofs
end

section
/-! PROOFS. The Apache-16 instructions (spec/42_apache16.md): the decoder on the words of R79, the handlers Apache-8 does
not have as equations, the meaning of each instruction as its handler, and the statements assembled from these three. -/

namespace Sys2Proof

/-! ## The decoder on the words of the opcode map (R79) -/

/-- The decoder undoes the encoder: opcode, register index and operand stand in fields of their own (R72). -/
theorem decode16_of_encode16 {i : Instr} {word : BitVec 16} (h : encode16 i = some word) : decode16 word = i := by
  cases i <;> cases h <;> simp [decode16]

/-- In the rows of NOT and OUT the low ten bits have no effect (R82). -/
theorem decode16_ignores_addr {op : BitVec 4} (h : op = 0b1001#4 ∨ op = 0b1110#4) (r : BitVec 2) (a b : BitVec 10) :
    decode16 (op ++ r ++ a) = decode16 (op ++ r ++ b) := by
  rcases h with rfl | rfl <;> simp [decode16]

/-- In the rows of JUMP and IN the register field has no effect (R82). -/
theorem decode16_ignores_reg {op : BitVec 4} (h : op = 0b1010#4 ∨ op = 0b1111#4) (r q : BitVec 2) (addr : BitVec 10) :
    decode16 (op ++ r ++ addr) = decode16 (op ++ q ++ addr) := by
  rcases h with rfl | rfl <;> simp [decode16]

/-- So any low bits may stand where the encoder writes zeros in the rows of NOT and OUT. -/
theorem decode16_of_encode16_ignored_addr {i : Instr} {op : BitVec 4} {r : BitVec 2} (addr : BitVec 10)
    (hi : encode16 i = some (op ++ r ++ 0#10)) (h : op = 0b1001#4 ∨ op = 0b1110#4) :
    decode16 (op ++ r ++ addr) = i :=
  (decode16_ignores_addr h r addr 0#10).trans (decode16_of_encode16 hi)

/-- And any register field in the rows of JUMP and IN. -/
theorem decode16_of_encode16_ignored_reg {i : Instr} {op : BitVec 4} {addr : BitVec 10} (r : BitVec 2)
    (hi : encode16 i = some (op ++ 0#2 ++ addr)) (h : op = 0b1010#4 ∨ op = 0b1111#4) :
    decode16 (op ++ r ++ addr) = i :=
  (decode16_ignores_reg h r 0#2 addr).trans (decode16_of_encode16 hi)

end Sys2Proof

namespace Sys2Proof.Machine

variable {w n : Nat}

/-! ## The handlers of SUB and MUL as equations -/

theorem sub_valid {m : Apache w n} (r : Fin n) {a : Nat} (h : a < m.mem.cap) :
    m.sub r a = m.writeReg r (aluSub (m.readReg r) (m.mem.read a)) :=
  withOperand_valid _ h

theorem sub_invalid {m : Apache w n} (r : Fin n) {a : Nat} (h : m.mem.cap ≤ a) :
    m.sub r a = m.afterFault (.outOfBounds .read a) :=
  withOperand_invalid _ h

theorem mul_valid {m : Apache w n} (r : Fin n) {a : Nat} (h : a < m.mem.cap) :
    m.mul r a = m.writeReg r (aluMul (m.readReg r) (m.mem.read a)) :=
  withOperand_valid _ h

theorem mul_invalid {m : Apache w n} (r : Fin n) {a : Nat} (h : m.mem.cap ≤ a) :
    m.mul r a = m.afterFault (.outOfBounds .read a) :=
  withOperand_invalid _ h

/-! ## The meaning of an Apache-16 instruction is its handler -/

section
variable (m : Apache 16 4) (reg : Fin 4) (addr : BitVec 10)

theorem exec_load : exec (.load reg addr) ⟨.a16 m⟩ = .next ⟨.a16 (m.load reg addr.toNat)⟩ := rfl
theorem exec_store : exec (.store reg addr) ⟨.a16 m⟩ = .next ⟨.a16 (m.store reg addr.toNat)⟩ := rfl
theorem exec_jumpz : exec (.jumpz reg addr) ⟨.a16 m⟩ = .next ⟨.a16 (m.jumpz reg (jumpTarget 16 addr))⟩ := rfl
theorem exec_add : exec (.add reg addr) ⟨.a16 m⟩ = .next ⟨.a16 (m.add reg addr.toNat)⟩ := rfl
theorem exec_sub : exec (.sub reg addr) ⟨.a16 m⟩ = .next ⟨.a16 (m.sub reg addr.toNat)⟩ := rfl
theorem exec_mul : exec (.mul reg addr) ⟨.a16 m⟩ = .next ⟨.a16 (m.mul reg addr.toNat)⟩ := rfl
theorem exec_not : exec (.not reg) ⟨.a16 m⟩ = .next ⟨.a16 (m.complement reg)⟩ := rfl
theorem exec_not_complement : exec (.not reg) ⟨.a16 (m.complement reg)⟩ = .next ⟨.a16 m⟩ := by
  rw [exec_not, complement_complement]
theorem exec_jump16 : exec (.jump16 addr) ⟨.a16 m⟩ = .next ⟨.a16 (m.setPc (jumpTarget 16 addr))⟩ := rfl
theorem exec_out : exec (.out reg) ⟨.a16 m⟩ = .next ⟨.a16 (m.emit (.value (m.readReg reg).toNat))⟩ := rfl

end

end Sys2Proof.Machine

namespace Sys2Proof.Proofs

open Sys2Proof.Machine

/-- Settles O14: LOAD is a checked read followed by the write of the selected register. -/
theorem apache16LoadCopiesAMemoryWord : Obligations.Apache16LoadCopiesAMemoryWord := by
  intro m r reg addr
  refine ⟨decode16_of_encode16 rfl, fun valid => ?_, fun invalid => ?_⟩
  · rw [exec_load, load_valid reg valid]
    rfl
  · rw [exec_load, load_invalid reg invalid]

/-- Settles O15: below the capacity the memory that results is `put` of the selected register at `addr`. -/
theorem apache16StoreWritesAMemoryWord : Obligations.Apache16StoreWritesAMemoryWord := by
  intro m r reg addr
  refine ⟨decode16_of_encode16 rfl, fun valid => ?_, fun invalid => ?_⟩
  · rw [exec_store, store_valid reg valid]
    exact ⟨_, Memory.put_storedAt m.mem _ _, rfl⟩
  · rw [exec_store, store_invalid reg invalid]

/-- Settles O16: the branch is `jumpz_eq`, and the fetch from a target beyond the memory is the one JUMP shares. -/
theorem apache16JumpzBranchesOnZero : Obligations.Apache16JumpzBranchesOnZero := by
  intro m r reg addr
  refine ⟨decode16_of_encode16 rfl, ?_, fetch_of_target_invalid m addr (by decide)⟩
  rw [exec_jumpz, jumpTarget_eq_setWidth, jumpz_eq]
  rfl

/-- Settles O17: the sum written is `aluAdd`, whose number is the remainder modulo `2 ^ 16`. -/
theorem apache16AddIsModulo65536 : Obligations.Apache16AddIsModulo65536 := by
  intro m r reg addr
  refine ⟨decode16_of_encode16 rfl, fun valid => ?_, fun invalid => ?_⟩
  · rw [exec_add, add_valid reg valid]
    exact ⟨_, aluAdd_toNat _ _, rfl⟩
  · rw [exec_add, add_invalid reg invalid]

/-- Settles O18: the difference written is `aluSub`, whose number is the non-negative remainder even where the exact
difference is negative. -/
theorem apache16SubIsModulo65536 : Obligations.Apache16SubIsModulo65536 := by
  intro m r reg addr
  refine ⟨decode16_of_encode16 rfl, fun valid => ?_, fun invalid => ?_⟩
  · rw [exec_sub, sub_valid reg valid]
    exact ⟨_, aluSub_toNat _ _, rfl⟩
  · rw [exec_sub, sub_invalid reg invalid]

/-- Settles O19: the product written is `aluMul`, whose number keeps the low 16 bits. -/
theorem apache16MulKeepsTheLowWord : Obligations.Apache16MulKeepsTheLowWord := by
  intro m r reg addr
  refine ⟨decode16_of_encode16 rfl, fun valid => ?_, fun invalid => ?_⟩
  · rw [exec_mul, mul_valid reg valid]
    exact ⟨_, aluMul_toNat _ _, rfl⟩
  · rw [exec_mul, mul_invalid reg invalid]

/-- Settles O23: the value written is `aluNot`, and a second NOT restores the core by `complement_complement`. -/
theorem apache16NotComplements : Obligations.Apache16NotComplements := fun m _ reg addr =>
  ⟨decode16_of_encode16_ignored_addr addr rfl (by decide), aluNot m.x[reg], aluNot_toNat _, exec_not m reg,
    exec_not_complement m reg⟩

/-- Settles O24: JUMP is the write of `pc`, whatever the register field is. -/
theorem apache16JumpSetsPc : Obligations.Apache16JumpSetsPc := by
  intro m r addr
  refine ⟨decode16_of_encode16_ignored_reg r rfl (by decide), ?_, fetch_of_target_invalid m addr (by decide)⟩
  rw [exec_jump16, jumpTarget_eq_setWidth]
  rfl

/-- Settles O26: OUT Rx is one event appended, whatever the ignored bits are. -/
theorem apache16OutEmitsTheRegister : Obligations.Apache16OutEmitsTheRegister := fun m _ reg addr =>
  ⟨decode16_of_encode16_ignored_addr addr rfl (by decide), exec_out m reg⟩

end Sys2Proof.Proofs
end

section
/-! PROOFS. The encoding of both variants (spec/30_encoding.md R70 to R84): every instruction of a variant has a word, the
decoders read the opcode alone, and the ignored fields have no effect. -/

namespace Sys2Proof

/-! ## The encoders are total on their variant -/

theorem encode8_total {i : Instr} (h : i.wellFormed .a8 = true) : ∃ word, encode8 i = some word := by
  cases i <;> first | exact ⟨_, rfl⟩ | cases h

theorem encode16_total {i : Instr} (h : i.wellFormed .a16 = true) : ∃ word, encode16 i = some word := by
  cases i <;> first | exact ⟨_, rfl⟩ | cases h

/-! ## The opcode of the decoded instruction (R80) -/

/-- The row an Apache-8 word decodes to is the one its opcode field names; the last arm is the sixteenth opcode. -/
theorem opcodeOf_decode8 (word : BitVec 8) : opcodeOf (decode8 word) = opField8 word := by
  unfold decode8
  dsimp only
  split
  case h_16 => exact (opcode_last _ ‹_› ‹_› ‹_› ‹_› ‹_› ‹_› ‹_› ‹_› ‹_› ‹_› ‹_› ‹_› ‹_› ‹_› ‹_›).symm
  all_goals exact Eq.symm ‹_›

/-- The row an Apache-16 word decodes to is the one its opcode field names; the last arm is the sixteenth opcode. -/
theorem opcodeOf_decode16 (word : BitVec 16) : opcodeOf (decode16 word) = opField16 word := by
  unfold decode16
  dsimp only
  split
  case h_16 => exact (opcode_last _ ‹_› ‹_› ‹_› ‹_› ‹_› ‹_› ‹_› ‹_› ‹_› ‹_› ‹_› ‹_› ‹_› ‹_› ‹_›).symm
  all_goals exact Eq.symm ‹_›

/-- The opcode field of Apache-8 is the top four bits (R73). -/
theorem opField8_toNat (word : BitVec 8) : (opField8 word).toNat = word.toNat / 16 := by
  rw [opField8, BitVec.extractLsb'_toNat, Nat.shiftRight_eq_div_pow]
  have := word.isLt
  omega

/-- The opcode field of Apache-16 is the top four bits (R74). -/
theorem opField16_toNat (word : BitVec 16) : (opField16 word).toNat = word.toNat / 4096 := by
  rw [opField16, BitVec.extractLsb'_toNat, Nat.shiftRight_eq_div_pow]
  have := word.isLt
  omega

theorem opcodeOf_decode8_toNat (word : BitVec 8) : (opcodeOf (decode8 word)).toNat = word.toNat / 16 := by
  rw [opcodeOf_decode8, opField8_toNat]

theorem opcodeOf_decode16_toNat (word : BitVec 16) : (opcodeOf (decode16 word)).toNat = word.toNat / 4096 := by
  rw [opcodeOf_decode16, opField16_toNat]

/-- A word whose top four bits are an opcode has that opcode in its field. -/
theorem opField8_of_toNat {word : BitVec 8} {op : BitVec 4} (h : word.toNat / 16 = op.toNat) : opField8 word = op :=
  BitVec.eq_of_toNat_eq (by rw [opField8_toNat, h])

theorem opField16_of_toNat {word : BitVec 16} {op : BitVec 4} (h : word.toNat / 4096 = op.toNat) :
    opField16 word = op :=
  BitVec.eq_of_toNat_eq (by rw [opField16_toNat, h])

/-- The address field of Apache-8 is the low four bits (R73). -/
theorem addrField8_toNat (word : BitVec 8) : (addrField8 word).toNat = word.toNat % 16 := by
  simp [addrField8, BitVec.extractLsb'_toNat]

/-- The address field of Apache-16 is the low ten bits (R74). -/
theorem addrField16_toNat (word : BitVec 16) : (addrField16 word).toNat = word.toNat % 1024 := by
  simp [addrField16, BitVec.extractLsb'_toNat]

/-! ## Words of a row without an operand -/

theorem decode8_stop {word : BitVec 8} (h : word.toNat / 16 = 7) : decode8 word = .stop8 := by
  simp [decode8, opField8_of_toNat (op := 7#4) h]

theorem decode16_stop {word : BitVec 16} (h : word.toNat / 4096 = 13) : decode16 word = .stop16 := by
  simp [decode16, opField16_of_toNat (op := 13#4) h]

theorem decode16_rsvd11 {word : BitVec 16} (h : word.toNat / 4096 = 11) : decode16 word = .rsvd11 := by
  simp [decode16, opField16_of_toNat (op := 11#4) h]

theorem decode16_rsvd12 {word : BitVec 16} (h : word.toNat / 4096 = 12) : decode16 word = .rsvd12 := by
  simp [decode16, opField16_of_toNat (op := 12#4) h]

/-- In the rows of the reserved opcodes and STOP both fields have no effect (R82). -/
theorem decode16_ignores_operands {op : BitVec 4} (h : op = 0b1011#4 ∨ op = 0b1100#4 ∨ op = 0b1101#4) (r q : BitVec 2)
    (a b : BitVec 10) : decode16 (op ++ r ++ a) = decode16 (op ++ q ++ b) := by
  rcases h with rfl | rfl | rfl <;> simp [decode16]

/-- So any fields may stand where the encoder writes zeros in those rows. -/
theorem decode16_of_encode16_ignored_operands {i : Instr} {op : BitVec 4} (r : BitVec 2) (addr : BitVec 10)
    (hi : encode16 i = some (op ++ 0#2 ++ 0#10)) (h : op = 0b1011#4 ∨ op = 0b1100#4 ∨ op = 0b1101#4) :
    decode16 (op ++ r ++ addr) = i :=
  (decode16_ignores_operands h r 0#2 addr 0#10).trans (decode16_of_encode16 hi)

/-! ## A decoded IN has the opcode of IN -/

theorem opcodeOf_isIn {i : Instr} (h : i.isIn) : opcodeOf i = 0b1111#4 := by
  rcases h with ⟨_, rfl⟩ | ⟨_, rfl⟩ <;> rfl

theorem decode8_isIn {word : BitVec 8} (h : (decode8 word).isIn) : word.toNat / 16 = 15 := by
  rw [← opcodeOf_decode8_toNat, opcodeOf_isIn h]
  rfl

theorem decode16_isIn {word : BitVec 16} (h : (decode16 word).isIn) : word.toNat / 4096 = 15 := by
  rw [← opcodeOf_decode16_toNat, opcodeOf_isIn h]
  rfl

end Sys2Proof

namespace Sys2Proof.Proofs

open Sys2Proof.Machine

/-- Settles O1: an instruction of a variant has a word, and the decoder undoes the encoder. -/
theorem decodeOfEncodeIsTheInstruction : Obligations.DecodeOfEncodeIsTheInstruction := by
  intro i
  constructor
  · intro own
    obtain ⟨word, e⟩ := encode8_total own
    exact ⟨word, e, decode8_of_encode8 e⟩
  · intro own
    obtain ⟨word, e⟩ := encode16_total own
    exact ⟨word, e, decode16_of_encode16 e⟩

/-- Settles O2: the decoded row is the one the opcode field names, and the field is the top four bits. -/
theorem decodersAreTotalAndReadTheOpcodeAlone : Obligations.DecodersAreTotalAndReadTheOpcodeAlone :=
  ⟨fun word => ⟨decode8_variant word, opcodeOf_decode8_toNat word⟩,
    fun word => ⟨decode16_variant word, opcodeOf_decode16_toNat word⟩⟩

/-- Settles O3: one lemma for each kind of row with ignored bits. -/
theorem ignoredBitsHaveNoEffect : Obligations.IgnoredBitsHaveNoEffect :=
  ⟨fun _ a b h => decode8_ignores_addr h a b, fun _ r a b h => decode16_ignores_addr h r a b,
    fun _ r q a h => decode16_ignores_reg h r q a, fun _ r q a b h => decode16_ignores_operands h r q a b⟩

/-- Settles O4: the decoders evaluated on the twelve words. -/
theorem exampleWordsDecode : Obligations.ExampleWordsDecode := by
  unfold Obligations.ExampleWordsDecode
  decide

end Sys2Proof.Proofs
end

section
/-! PROOFS. What a handler can do, read off the forms of `Effect`: the four ways it can end, what it leaves as it was, and
the statements about faults, frames and refusals assembled from these. -/

namespace Sys2Proof.Machine

variable {w n : Nat} {i : Instr} {m t : Apache w n}

/-! ## An IN from its prompt on (R135, R156) -/

/-- The core of an IN that has prompted and consumed a line (R176). -/
def Apache.afterRead (m : Apache w n) : Apache w n :=
  { m with output := m.output ++ [.prompt], inPos := m.inPos + 1 }

/-- Why the line an IN consumed ends in record `f` (R171, R172). -/
def RejectedBy (a : Nat) (m : Apache w n) (f : FaultRecord) : Prop :=
  f = .parseError .input ∨ m.mem.cap ≤ a ∧ f = .outOfBounds .write a

/-- From its prompt on an IN waits, or consumes a line and either takes a fault or stores one word. -/
theorem resumeIn_ends (m : Apache w n) (a : Nat) :
    (m.input[m.inPos]? = none ∧ m.resumeIn a = { m with ctl := .waitIn }) ∨
    (∃ f, m.inPos < m.input.length ∧ RejectedBy a m f ∧
      m.resumeIn a = ({ m with inPos := m.inPos + 1 } : Apache w n).raise f) ∨
    (∃ v, m.inPos < m.input.length ∧ a < m.mem.cap ∧
      m.resumeIn a = { m with inPos := m.inPos + 1, mem := m.mem.put a v }) := by
  rcases resumeIn_cases m a with ⟨hl, e⟩ | ⟨_, hl, _, e⟩ | ⟨_, _, hl, _, ha, e⟩ | ⟨_, v, hl, _, ha, e⟩
  · exact .inl ⟨hl, e⟩
  · exact .inr (.inl ⟨_, (List.getElem?_eq_some_iff.1 hl).1, .inl rfl, e⟩)
  · exact .inr (.inl ⟨_, (List.getElem?_eq_some_iff.1 hl).1, .inr ⟨ha, rfl⟩, e⟩)
  · exact .inr (.inr ⟨_, (List.getElem?_eq_some_iff.1 hl).1, ha, e⟩)

/-- The same of the whole handler, whose prompt comes first. -/
theorem inTo_ends (m : Apache w n) (a : Nat) :
    (m.input[m.inPos]? = none ∧ (m.emit .prompt).resumeIn a = { m.emit .prompt with ctl := .waitIn }) ∨
    (∃ f, m.inPos < m.input.length ∧ RejectedBy a m f ∧ (m.emit .prompt).resumeIn a = m.afterRead.raise f) ∨
    (∃ v, m.inPos < m.input.length ∧ a < m.mem.cap ∧
      (m.emit .prompt).resumeIn a = { m.afterRead with mem := m.mem.put a v }) :=
  resumeIn_ends (m.emit .prompt) a

/-! ## How a handler ends (R97, R98, R107) -/

/-- The four ends of a handler: it completes, with control state, fault status and outcome as they were; it raises a fault
on the core itself; as an IN it raises one behind a prompt and a consumed line; as an IN it waits behind its prompt. -/
inductive HandlerEnd (i : Instr) (m : Apache w n) : Apache w n → Prop where
  | completes (t : Apache w n) (hctl : t.ctl = m.ctl) (hstatus : t.status = m.status) (hout : t.outcome = m.outcome) :
      HandlerEnd i m t
  | raises (f : FaultRecord) (hf : RaisedBy i m f) (hi : ¬ i.isIn) : HandlerEnd i m (m.raise f)
  | rejects (a : Nat) (f : FaultRecord) (ha : i.writeAddress = some a) (hf : RejectedBy a m f) (hi : i.isIn) :
      HandlerEnd i m (m.afterRead.raise f)
  | waits (hi : i.isIn) (hl : m.input[m.inPos]? = none) : HandlerEnd i m { m.emit .prompt with ctl := .waitIn }

theorem Effect.handlerEnd (h : Effect i m t) : HandlerEnd i m t := by
  cases h with
  | faults f hf hi => exact .raises f hf hi
  | reads a ha hi =>
    rcases inTo_ends m a with ⟨hl, e⟩ | ⟨f, _, hf, e⟩ | ⟨v, _, _, e⟩
    · rw [e]; exact .waits hi hl
    · rw [e]; exact .rejects a f ha hf hi
    · rw [e]; exact .completes _ rfl rfl rfl
  | _ => exact .completes _ rfl rfl rfl

/-- A handler that leaves a fault record on a core without one took that fault (R175, R176). -/
theorem HandlerEnd.of_status {f : FaultRecord} (h : HandlerEnd i m t) (hm : m.status = none) (ht : t.status = some f) :
    (¬ i.isIn ∧ RaisedBy i m f ∧ t = m.afterFault f) ∨
    (i.isIn ∧ (∃ a, i.writeAddress = some a ∧ RejectedBy a m f) ∧ t = m.afterRead.afterFault f) := by
  cases h with
  | completes _ _ hstatus _ => rw [hstatus, hm] at ht; cases ht
  | raises g hg hi => cases ht; exact .inl ⟨hi, hg, rfl⟩
  | rejects a g ha hg hi => cases ht; exact .inr ⟨hi, ⟨a, ha, hg⟩, rfl⟩
  | waits _ _ => cases hm.symm.trans ht

/-- A faulted cycle is not counted (R98). -/
theorem endCycle_afterFault (m : Apache w n) (f : FaultRecord) : (m.afterFault f).endCycle = m.afterFault f :=
  endCycle_other (fun e => by cases e)

/-- Of a handler that leaves a record exactly the effects of the table of R176 have happened, and its cycle is not
counted. -/
theorem HandlerEnd.precise {f : FaultRecord} (h : HandlerEnd i m t) (hm : m.status = none) (ht : t.status = some f) :
    (¬ i.isIn → t = m.afterFault f) ∧ (i.isIn → t = m.afterRead.afterFault f) ∧ t.endCycle = t := by
  rcases h.of_status hm ht with ⟨hi, _, rfl⟩ | ⟨hi, _, rfl⟩
  · exact ⟨fun _ => rfl, fun isIn => absurd isIn hi, endCycle_afterFault _ _⟩
  · exact ⟨fun other => absurd hi other, fun _ => rfl, endCycle_afterFault _ _⟩

/-- The record a handler can leave, and when (R171 to R174). -/
def ReasonFor (i : Instr) (m : Apache w n) : FaultRecord → Prop
  | .outOfBounds access a => m.mem.cap ≤ a ∧
      (access = .read ∧ i.readAddress = some a ∨ access = .write ∧ i.writeAddress = some a)
  | .parseError site => site = .input ∧ i.isIn
  | .arithmeticFault => ∃ r addr, i = .div r addr ∧ m.mem.read addr.toNat = 0
  | .unknownOpcode _ => False

theorem HandlerEnd.reason {f : FaultRecord} (h : HandlerEnd i m t) (hm : m.status = none) (ht : t.status = some f) :
    ReasonFor i m f := by
  rcases h.of_status hm ht with ⟨_, reason, _⟩ | ⟨hi, ⟨a, ha, reason⟩, _⟩
  · rcases reason with ⟨a, ha, beyond, rfl⟩ | ⟨a, ha, beyond, rfl⟩ | ⟨rfl, r, addr, rfl, zero⟩
    · exact ⟨beyond, .inl ⟨rfl, ha⟩⟩
    · exact ⟨beyond, .inr ⟨rfl, ha⟩⟩
    · exact ⟨r, addr, rfl, zero⟩
  · rcases reason with rfl | ⟨beyond, rfl⟩
    · exact ⟨rfl, hi⟩
    · exact ⟨beyond, .inr ⟨rfl, ha⟩⟩

theorem fetch_status {f : FaultRecord} (hm : m.status = none) (h : m.fetch.status = some f) :
    m.fetch = m.afterFault f ∧ m.mem.cap ≤ m.pc.toNat ∧ f = .outOfBounds .fetch m.pc.toNat := by
  rcases Nat.lt_or_ge m.pc.toNat m.mem.cap with hp | hp
  · rw [fetch_valid hp] at h
    cases hm.symm.trans h
  · rw [fetch_invalid hp] at h ⊢
    cases h
    exact ⟨rfl, hp, rfl⟩

/-! ## What a handler leaves as it was (R11, R23, R27, R30, R32) -/

/-- The components no handler writes. -/
structure Frame (m t : Apache w n) : Prop where
  cir : t.cir = m.cir
  budget : t.budget = m.budget
  cap : t.mem.cap = m.mem.cap
  params : t.params = m.params
  input : t.input = m.input

theorem Effect.frame (h : Effect i m t) : Frame m t := by
  cases h with
  | reads a ha hi =>
    rcases inTo_ends m a with ⟨_, e⟩ | ⟨_, _, _, e⟩ | ⟨_, _, _, e⟩ <;> rw [e] <;> exact ⟨rfl, rfl, rfl, rfl, rfl⟩
  | _ => exact ⟨rfl, rfl, rfl, rfl, rfl⟩

/-- `pc` is written by the jumps alone, `halt` by STOP alone and only to 1 (R27, R32). -/
theorem Effect.pc_and_halt (h : Effect i m t) :
    (t.pc ≠ m.pc → i.writesPc) ∧ (t.halt ≠ m.halt → i.isStop ∧ t.halt = true) := by
  cases h with
  | jumps target hp hi => exact ⟨fun _ => hp, fun e => absurd rfl e⟩
  | halts hs hi => exact ⟨fun e => absurd rfl e, fun _ => ⟨hs, rfl⟩⟩
  | reads a ha hi =>
    rcases inTo_ends m a with ⟨_, e⟩ | ⟨_, _, _, e⟩ | ⟨_, _, _, e⟩ <;> rw [e] <;>
      exact ⟨fun e => absurd rfl e, fun e => absurd rfl e⟩
  | _ => exact ⟨fun e => absurd rfl e, fun e => absurd rfl e⟩

/-- A register other than the one written keeps its word. -/
theorem writeReg_get_ne (m : Apache w n) {r q : Fin n} (v : BitVec w) (h : r ≠ q) : (m.writeReg r v).x[q] = m.x[q] := by
  simp [Fin.val_ne_of_ne h]

/-- A general register is written by an instruction only where R23 gives it to that instruction. -/
theorem Effect.register (h : Effect i m t) (q : Fin n) (hq : i.writesReg ≠ some q.val) : t.x[q] = m.x[q] := by
  cases h with
  | writesReg r v hr hi => exact writeReg_get_ne m v fun e => hq (e ▸ hr)
  | draws r v hr hi => exact writeReg_get_ne m v fun e => hq (e ▸ hr)
  | reads a ha hi => rcases inTo_ends m a with ⟨_, e⟩ | ⟨_, _, _, e⟩ | ⟨_, _, _, e⟩ <;> rw [e] <;> rfl
  | _ => exact rfl

/-- A handler appends at most one event and consumes at most one line (R38, R183). -/
theorem Effect.ports (h : Effect i m t) :
    (t.output = m.output ∨ ∃ e, t.output = m.output ++ [e]) ∧ (t.inPos = m.inPos ∨ t.inPos = m.inPos + 1) := by
  cases h with
  | emits v hi => exact ⟨.inr ⟨_, rfl⟩, .inl rfl⟩
  | reads a ha hi =>
    rcases inTo_ends m a with ⟨_, e⟩ | ⟨_, _, _, e⟩ | ⟨_, _, _, e⟩ <;> rw [e]
    · exact ⟨.inr ⟨_, rfl⟩, .inl rfl⟩
    · exact ⟨.inr ⟨_, rfl⟩, .inr rfl⟩
    · exact ⟨.inr ⟨_, rfl⟩, .inr rfl⟩
  | _ => exact ⟨.inl rfl, .inl rfl⟩

/-- A handler keeps the canonical form of memory (R51; log 4). -/
theorem Effect.mem_wf (h : Effect i m t) (hm : m.mem.wf) : t.mem.wf := by
  cases h with
  | stores a v ha hb hi => exact Memory.put_wf v hm hb
  | reads a ha hi =>
    rcases inTo_ends m a with ⟨_, e⟩ | ⟨_, _, _, e⟩ | ⟨v, _, hb, e⟩ <;> rw [e]
    · exact hm
    · exact hm
    · exact Memory.put_wf v hm hb
  | _ => exact hm

/-- A handler consumes no line that has not been delivered (R38). -/
theorem Effect.position (h : Effect i m t) (hm : m.inPos ≤ m.input.length) : t.inPos ≤ t.input.length := by
  cases h with
  | reads a ha hi =>
    rcases inTo_ends m a with ⟨_, e⟩ | ⟨_, there, _, e⟩ | ⟨_, there, _, e⟩ <;> rw [e]
    · exact hm
    · exact there
    · exact there
  | _ => exact hm

/-! ## An instruction of the other variant (R2) -/

theorem exec_refused_apache8 {i : Instr} (h : i.variant = .a16) (m : Apache 8 2) :
    exec i ⟨.a8 m⟩ = .refused .otherVariant := by
  cases i <;> first | rfl | cases h

theorem exec_refused_apache16 {i : Instr} (h : i.variant = .a8) (m : Apache 16 4) :
    exec i ⟨.a16 m⟩ = .refused .otherVariant := by
  cases i <;> first | rfl | cases h

theorem variant_of_wellFormed {v : Variant} (h : i.wellFormed v = true) : i.variant = v := beq_iff_eq.1 h

theorem variant_of_not_wellFormed {v : Variant} (h : i.wellFormed v = false) : i.variant ≠ v := beq_eq_false_iff_ne.1 h

theorem a16_of_ne_a8 {v : Variant} (h : v ≠ .a8) : v = .a16 := by
  cases v
  · exact absurd rfl h
  · rfl

theorem a8_of_ne_a16 {v : Variant} (h : v ≠ .a16) : v = .a8 := by
  cases v
  · rfl
  · exact absurd rfl h

/-- A constructed core has a next state (R80, R175). -/
theorem step_next {s : State} (h : s.constructed = true) : ∃ t, step s = .next t := by
  obtain ⟨m | m⟩ := s
  · obtain ⟨t, e, _⟩ := step_apache8 m
    exact ⟨_, e⟩
  · obtain ⟨t, e, _⟩ := step_apache16 m (of_decide_eq_true h)
    exact ⟨_, e⟩

end Sys2Proof.Machine

namespace Sys2Proof.Proofs

open Sys2Proof.Machine

/-- Settles O49: each clause is what every form of `Effect` says of the component. -/
theorem handlersWriteOnlyWhatTheTablesAllow : Obligations.HandlersWriteOnlyWhatTheTablesAllow := by
  constructor
  · intro i m t h
    obtain ⟨_, effect⟩ := effect_of_exec8 h
    obtain ⟨cir, budget, cap, params, input⟩ := effect.frame
    exact ⟨⟨cir, budget, cap, params, input⟩, effect.pc_and_halt.1, effect.pc_and_halt.2, effect.register⟩
  · intro i m t h
    obtain ⟨_, effect⟩ := effect_of_exec16 h
    obtain ⟨cir, budget, cap, params, input⟩ := effect.frame
    exact ⟨⟨cir, budget, cap, params, input⟩, effect.pc_and_halt.1, effect.pc_and_halt.2, effect.register⟩

/-- Settles O52: a handler that leaves a record has one of the two faulting ends. -/
theorem faultsArePrecise : Obligations.FaultsArePrecise :=
  ⟨fun _ _ _ _ hm h ht => HandlerEnd.precise (effect_of_exec8 h).2.handlerEnd hm ht,
    fun _ _ _ _ hm h ht => HandlerEnd.precise (effect_of_exec16 h).2.handlerEnd hm ht,
    fun _ _ _ _ hm h => fetch_status hm h⟩

/-- Settles O53: the reasons are those of `ReasonFor`, the zero divisor shut out on Apache-8 by the variant of DIV. -/
theorem faultsAreThoseOfTheTaxonomy : Obligations.FaultsAreThoseOfTheTaxonomy := by
  constructor
  · intro i m t f hm h ht
    obtain ⟨own, effect⟩ := effect_of_exec8 h
    have reason := effect.handlerEnd.reason hm ht
    cases f with
    | outOfBounds access a => exact reason
    | parseError site => exact reason
    | arithmeticFault => obtain ⟨r, addr, rfl, _⟩ := reason; cases own
    | unknownOpcode op => exact reason
  · intro i m t f hm h ht
    have reason := (effect_of_exec16 h).2.handlerEnd.reason hm ht
    cases f <;> exact reason

/-- Settles O54: the meanings answer by the variant of the instruction, and every word decodes to its own variant. -/
theorem noInstructionOfACoreIsRefused : Obligations.NoInstructionOfACoreIsRefused := by
  refine ⟨fun i s => ⟨fun own => ?_, fun other => ?_⟩, fun s => step_next⟩
  · obtain ⟨m | m⟩ := s
    · obtain ⟨t, e⟩ := exec_next_apache8 (variant_of_wellFormed own) m
      exact ⟨_, e, rfl⟩
    · obtain ⟨t, e⟩ := exec_next_apache16 (variant_of_wellFormed own) m
      exact ⟨_, e, rfl⟩
  · obtain ⟨m | m⟩ := s
    · exact exec_refused_apache8 (a16_of_ne_a8 (variant_of_not_wellFormed other)) m
    · exact exec_refused_apache16 (a8_of_ne_a16 (variant_of_not_wellFormed other)) m

end Sys2Proof.Proofs
end

section
/-! PROOFS. Equations of the handlers the statements of SHL, DIV, the shifts, IN and STOP need (spec/41_apache8.md,
spec/42_apache16.md), and of the fetch; the statements assembled from them. -/

namespace Sys2Proof.Machine

variable {w n : Nat}

/-! ## IN as equations (R135, R156) -/

theorem inTo_waits {m : Apache w n} (a : Nat) (h : m.input[m.inPos]? = none) :
    m.inTo a = { m with output := m.output ++ [.prompt], ctl := .waitIn } :=
  resumeIn_waits a h

theorem inTo_accepts {m : Apache w n} {a : Nat} {line : Line} {v : Nat} (h : m.input[m.inPos]? = some line)
    (hv : acceptLine m.params line = .ok v) (ha : a < m.mem.cap) :
    m.inTo a = { m.afterRead with mem := m.mem.put a (BitVec.ofNat w v) } :=
  (resumeIn_accepts a (m := m.emit .prompt) h hv).trans (storeOperand_valid _ ha)

theorem inTo_out_of_bounds {m : Apache w n} {a : Nat} {line : Line} {v : Nat} (h : m.input[m.inPos]? = some line)
    (hv : acceptLine m.params line = .ok v) (ha : m.mem.cap ≤ a) :
    m.inTo a = m.afterRead.afterFault (.outOfBounds .write a) :=
  (resumeIn_accepts a (m := m.emit .prompt) h hv).trans (storeOperand_invalid _ ha)

theorem inTo_rejects {m : Apache w n} (a : Nat) {line : Line} {f : FaultRecord} (h : m.input[m.inPos]? = some line)
    (hf : acceptLine m.params line = .error f) : m.inTo a = m.afterRead.afterFault (.parseError .input) := by
  cases acceptLine_error hf
  exact resumeIn_rejects a (m := m.emit .prompt) h hf

/-! ## The shifts of Apache-16 (R148, R149) -/

theorem shr_plain {m : Apache 16 4} (r : Fin 4) {k : Nat} (h : m.params.shiftBig = .zero ∨ k < 16) :
    m.shr r k = m.writeReg r (aluShr (m.readReg r) k) :=
  writeShift_plain r _ h

theorem shl_plain {m : Apache 16 4} (r : Fin 4) {k : Nat} (h : m.params.shiftBig = .zero ∨ k < 16) :
    m.shl r k = m.writeReg r (aluShl (m.readReg r) k) :=
  writeShift_plain r _ h

theorem aluShr_big (a : BitVec w) {k : Nat} (h : w ≤ k) : aluShr a k = 0 := if_neg (Nat.not_lt.2 h)

theorem aluShl_big (a : BitVec w) {k : Nat} (h : w ≤ k) : aluShl a k = 0 := if_neg (Nat.not_lt.2 h)

/-! ## The fetch after a store to the next address (R68, R207) -/

/-- A fetch from the address just written reads the word written. -/
theorem fetch_after_put {m t : Apache w n} {a : Nat} {v : BitVec w} (hmem : t.mem = m.mem.put a v) (hpc : t.pc = m.pc)
    (ha : a < m.mem.cap) (h : m.pc.toNat = a) : t.fetch.ctl = .execute ∧ t.fetch.cir = v := by
  have valid : t.pc.toNat < t.mem.cap := by rw [hmem, hpc, h]; exact ha
  rw [fetch_valid valid]
  refine ⟨rfl, ?_⟩
  change t.mem.read t.pc.toNat = v
  rw [hmem, hpc, h, Memory.put_read_self]

/-! ## The meaning of the instructions as their handlers -/

section
variable (m : Apache 8 2) (addr : BitVec 4)

theorem exec_shlR0 : exec .shlR0 ⟨.a8 m⟩ = .next ⟨.a8 (m.shlBy 0 1)⟩ := rfl
theorem exec_shlR1 : exec .shlR1 ⟨.a8 m⟩ = .next ⟨.a8 (m.shlBy 1 1)⟩ := rfl
theorem exec_in8 : exec (.in8 addr) ⟨.a8 m⟩ = .next ⟨.a8 (m.inTo addr.toNat)⟩ := rfl

end

section
variable (m : Apache 16 4) (reg : Fin 4) (addr : BitVec 10)

theorem exec_div : exec (.div reg addr) ⟨.a16 m⟩ = .next ⟨.a16 (m.div reg addr.toNat)⟩ := rfl
theorem exec_shr : exec (.shr reg addr) ⟨.a16 m⟩ = .next ⟨.a16 (m.shr reg addr.toNat)⟩ := rfl
theorem exec_shl : exec (.shl reg addr) ⟨.a16 m⟩ = .next ⟨.a16 (m.shl reg addr.toNat)⟩ := rfl
theorem exec_rsvd11 : exec .rsvd11 ⟨.a16 m⟩ = .next ⟨.a16 m⟩ := rfl
theorem exec_rsvd12 : exec .rsvd12 ⟨.a16 m⟩ = .next ⟨.a16 m⟩ := rfl
theorem exec_stop16 : exec .stop16 ⟨.a16 m⟩ = .next ⟨.a16 m.setHalt⟩ := rfl
theorem exec_in16 : exec (.in16 addr) ⟨.a16 m⟩ = .next ⟨.a16 (m.inTo addr.toNat)⟩ := rfl

end

end Sys2Proof.Machine

namespace Sys2Proof.Proofs

open Sys2Proof.Machine

/-- Settles O9: the value written is `aluShl` by 1, whatever the ignored bits are. -/
theorem apache8ShlDoublesModulo256 : Obligations.Apache8ShlDoublesModulo256 := fun m addr =>
  ⟨⟨decode8_of_encode8_ignored addr rfl (by decide), decode8_of_encode8_ignored addr rfl (by decide)⟩,
    ⟨aluShl m.x[0] 1, aluShl_toNat _ _, exec_shlR0 m⟩, ⟨aluShl m.x[1] 1, aluShl_toNat _ _, exec_shlR1 m⟩⟩

/-- Settles O13: one equation of `inTo` for each outcome. -/
theorem apache8InPromptsReadsAndStores : Obligations.Apache8InPromptsReadsAndStores := by
  intro m addr
  refine ⟨decode8_of_encode8 rfl, fun noLine => ?_, fun line v hl hv valid => ?_, fun line v hl hv invalid => ?_,
    fun line f hl hf => ?_⟩
  · rw [exec_in8, inTo_waits _ noLine]
  · rw [exec_in8, inTo_accepts hl hv valid]
    exact ⟨_, Memory.put_storedAt m.mem _ _, rfl⟩
  · rw [exec_in8, inTo_out_of_bounds hl hv invalid]
    rfl
  · rw [exec_in8, inTo_rejects _ hl hf]
    rfl

/-- Settles O27: the equations of `inTo` at 16 bits, whatever the register field is. -/
theorem apache16InPromptsReadsAndStores : Obligations.Apache16InPromptsReadsAndStores := by
  intro m r addr
  refine ⟨decode16_of_encode16_ignored_reg r rfl (by decide), fun noLine => ?_, fun line v hl hv valid => ?_,
    fun line v hl hv invalid => ?_, fun line f hl hf => ?_⟩
  · rw [exec_in16, inTo_waits _ noLine]
  · rw [exec_in16, inTo_accepts hl hv valid]
    exact ⟨_, Memory.put_storedAt m.mem _ _, rfl⟩
  · rw [exec_in16, inTo_out_of_bounds hl hv invalid]
    rfl
  · rw [exec_in16, inTo_rejects _ hl hf]
    rfl

/-- Settles O20: the bounds check first, then the zero test, then the quotient, which always fits. -/
theorem apache16DivDividesOrFaults : Obligations.Apache16DivDividesOrFaults := by
  intro m r reg addr
  refine ⟨decode16_of_encode16 rfl, fun valid divisor => ?_, fun valid zero => ?_, fun invalid => ?_⟩
  · rw [exec_div, div_valid reg valid (fun e => divisor (by simp [e]))]
    exact ⟨_, aluDiv_toNat _ _, rfl⟩
  · rw [exec_div, div_by_zero reg valid (BitVec.eq_of_toNat_eq (by simpa using zero))]
    rfl
  · rw [exec_div, div_invalid reg invalid]
    rfl

/-- Settles O21: with SHIFT_BIG out of play the shifts write `aluShr` and `aluShl`, which are 0 from 16 on. -/
theorem apache16ShiftsAreLogical : Obligations.Apache16ShiftsAreLogical := by
  intro m r reg count
  refine ⟨⟨decode16_of_encode16 rfl, decode16_of_encode16 rfl⟩, fun plain => ?_⟩
  rw [exec_shr, exec_shl, shr_plain reg plain, shl_plain reg plain]
  exact ⟨⟨_, aluShr_toNat _ _, fun big => aluShr_big _ big, rfl⟩, ⟨_, aluShl_toNat _ _, fun big => aluShl_big _ big, rfl⟩⟩

/-- Settles O22: the draw replaces the value of either shift. -/
theorem apache16BigShiftDrawsAFreeValue : Obligations.Apache16BigShiftDrawsAFreeValue := by
  intro m reg count draw big
  rw [exec_shr, exec_shl, Apache.shr, Apache.shl, writeShift_draw reg _ draw big, writeShift_draw reg _ draw big]
  exact ⟨⟨_, rfl⟩, ⟨_, rfl⟩⟩

/-- Settles O28: the two equations of the fetch, with the increment as a number. -/
theorem fetchLoadsCirAndIncrementsPc : Obligations.FetchLoadsCirAndIncrementsPc := fun _ _ m =>
  ⟨fun valid => ⟨nextPc m.pc, nextPc_toNat m.pc, fetch_valid valid⟩, fun invalid => fetch_invalid invalid⟩

/-- Settles O41: each of the five handlers leaves `put` at the address `pc` holds, and `fetch_after_put` reads it. -/
theorem storeIsSeenByTheNextFetch : Obligations.StoreIsSeenByTheNextFetch := by
  constructor
  · intro m addr valid atPc
    refine ⟨⟨_, exec_storeR0 m addr, ?_⟩, ⟨_, exec_storeR1 m addr, ?_⟩, fun line v hl hv => ⟨_, exec_in8 m addr, ?_⟩⟩
    · rw [store_valid 0 valid]; exact fetch_after_put rfl rfl valid atPc
    · rw [store_valid 1 valid]; exact fetch_after_put rfl rfl valid atPc
    · rw [inTo_accepts hl hv valid]; exact fetch_after_put rfl rfl valid atPc
  · intro m reg addr valid atPc
    refine ⟨⟨_, exec_store m reg addr, ?_⟩, fun line v hl hv => ⟨_, exec_in16 m addr, ?_⟩⟩
    · rw [store_valid reg valid]; exact fetch_after_put rfl rfl valid atPc
    · rw [inTo_accepts hl hv valid]; exact fetch_after_put rfl rfl valid atPc

end Sys2Proof.Proofs
end

section
/-! PROOFS. The data accesses of a handler (spec/20_memory.md R56; spec/40_cycle.md R112): a handler run on two memories
that agree on the word it reads gives cores that differ in memory alone, by at most the one word it writes. -/

namespace Sys2Proof.Machine

variable {w n : Nat}

/-- The core `m` over another memory. -/
def Apache.withMem (m : Apache w n) (mem : Memory w) : Apache w n := { m with mem := mem }

/-- `t`, reached over memory `mem`, and `t'`, reached over `mem'`, differ in memory alone, where every word is as it was,
or is the word at the address `write` and alike in both. -/
def OneWordApart (write : Option Nat) (mem mem' : Memory w) (t t' : Apache w n) : Prop :=
  t' = t.withMem t'.mem ∧ t.mem.cap = mem.cap ∧ t'.mem.cap = mem.cap ∧
    ∀ b, (t.mem.read b = mem.read b ∧ t'.mem.read b = mem'.read b) ∨ (write = some b ∧ t.mem.read b = t'.mem.read b)

/-- A handler does not touch memory: it commutes with a change of memory and leaves the memory as it is. -/
def LeavesMemory (f : Apache w n → Apache w n) : Prop :=
  ∀ m mem', f (m.withMem mem') = (f m).withMem mem' ∧ (f m).mem = m.mem

section
variable {m : Apache w n} {mem' : Memory w} (hcap : mem'.cap = m.mem.cap)
include hcap

theorem OneWordApart.of_leavesMemory {f : Apache w n → Apache w n} (hf : LeavesMemory f) (write : Option Nat) :
    OneWordApart write m.mem mem' (f m) (f (m.withMem mem')) := by
  obtain ⟨commutes, same⟩ := hf m mem'
  rw [commutes]
  exact ⟨rfl, by rw [same], hcap, fun b => .inl ⟨by rw [same], rfl⟩⟩

/-- A handler that reads a word on which both memories agree, and then leaves memory alone. -/
theorem OneWordApart.of_operand {a : Nat} {rest : BitVec w → Apache w n → Apache w n} (hread : mem'.read a = m.mem.read a)
    (hrest : ∀ v, LeavesMemory (rest v)) (write : Option Nat) :
    OneWordApart write m.mem mem' (m.withOperand a rest) ((m.withMem mem').withOperand a rest) := by
  rcases Nat.lt_or_ge a m.mem.cap with ha | ha
  · rw [withOperand_valid rest ha, withOperand_valid rest (by rw [← hcap] at ha; exact ha)]
    change OneWordApart write _ _ _ (rest (mem'.read a) _)
    rw [hread]
    exact .of_leavesMemory hcap (hrest _) write
  · rw [withOperand_invalid rest ha, withOperand_invalid rest (by rw [← hcap] at ha; exact ha)]
    exact .of_leavesMemory hcap (f := (Apache.raise (.outOfBounds .read a))) (fun _ _ => ⟨rfl, rfl⟩) write

/-- A handler that writes one word. -/
theorem OneWordApart.of_store (a : Nat) (v : BitVec w) :
    OneWordApart (some a) m.mem mem' (m.storeOperand a v) ((m.withMem mem').storeOperand a v) := by
  rcases Nat.lt_or_ge a m.mem.cap with ha | ha
  · rw [storeOperand_valid v ha, storeOperand_valid v (by rw [← hcap] at ha; exact ha)]
    refine ⟨rfl, rfl, hcap, fun b => ?_⟩
    change ((m.mem.put a v).read b = _ ∧ (mem'.put a v).read b = _) ∨ (_ ∧ (m.mem.put a v).read b = (mem'.put a v).read b)
    by_cases hb : b = a
    · subst hb; exact .inr ⟨rfl, by rw [Memory.put_read_self, Memory.put_read_self]⟩
    · exact .inl ⟨Memory.put_read_ne _ v hb, Memory.put_read_ne _ v hb⟩
  · rw [storeOperand_invalid v ha, storeOperand_invalid v (by rw [← hcap] at ha; exact ha)]
    exact .of_leavesMemory hcap (f := (Apache.raise (.outOfBounds .write a))) (fun _ _ => ⟨rfl, rfl⟩) _

/-- IN: both cores see the same line, so they wait, reject it, or store the same value. -/
theorem OneWordApart.of_inTo (a : Nat) : OneWordApart (some a) m.mem mem' (m.inTo a) ((m.withMem mem').inTo a) := by
  cases hl : m.input[m.inPos]? with
  | none =>
    rw [inTo_waits a hl, inTo_waits (m := m.withMem mem') a hl]
    exact ⟨rfl, rfl, hcap, fun b => .inl ⟨rfl, rfl⟩⟩
  | some line =>
    cases hv : acceptLine m.params line with
    | error f =>
      rw [inTo_rejects a hl hv, inTo_rejects (m := m.withMem mem') a hl hv]
      exact ⟨rfl, rfl, hcap, fun b => .inl ⟨rfl, rfl⟩⟩
    | ok v =>
      have stored : ∀ u : Apache w n, u.input[u.inPos]? = some line → acceptLine u.params line = .ok v →
          u.inTo a = u.afterRead.storeOperand a (trunc w v) := fun u => resumeIn_accepts a (m := u.emit .prompt)
      rw [stored m hl hv, stored (m.withMem mem') hl hv]
      exact .of_store (m := m.afterRead) hcap a (trunc w v)

end

/-! ## The handlers that leave memory alone -/

/-- A register is written by what it held. -/
theorem leavesMemory_update (r : Fin n) (g : BitVec w → BitVec w) :
    LeavesMemory fun m : Apache w n => m.writeReg r (g (m.readReg r)) :=
  fun _ _ => ⟨rfl, rfl⟩

theorem leavesMemory_jumpz (r : Fin n) (target : BitVec w) : LeavesMemory fun m : Apache w n => m.jumpz r target := by
  intro m mem'
  dsimp only
  rw [jumpz_eq, jumpz_eq]
  by_cases zero : m.x[r].toNat = 0
  · rw [if_pos zero, if_pos (by exact zero)]; exact ⟨rfl, rfl⟩
  · rw [if_neg zero, if_neg (by exact zero)]; exact ⟨rfl, rfl⟩

theorem leavesMemory_div (r : Fin n) (d : BitVec w) :
    LeavesMemory fun m : Apache w n =>
      if isZero d then m.raise .arithmeticFault else m.writeReg r (aluDiv (m.readReg r) d) := by
  intro m mem'
  dsimp only
  split
  · exact ⟨rfl, rfl⟩
  · exact ⟨rfl, rfl⟩

theorem leavesMemory_writeShift (r : Fin 4) (k : Nat) (f : BitVec 16 → BitVec 16) :
    LeavesMemory fun m : Apache 16 4 => m.writeShift r k (f (m.readReg r)) := by
  intro m mem'
  dsimp only
  rcases Nat.lt_or_ge k 16 with small | big
  · rw [writeShift_plain (m := m) r _ (.inr small), writeShift_plain (m := m.withMem mem') r _ (.inr small)]
    exact ⟨rfl, rfl⟩
  · cases hs : m.params.shiftBig with
    | zero =>
      rw [writeShift_plain (m := m) r _ (.inl hs), writeShift_plain (m := m.withMem mem') r _ (.inl hs)]
      exact ⟨rfl, rfl⟩
    | draw =>
      rw [writeShift_draw (m := m) r _ hs big, writeShift_draw (m := m.withMem mem') r _ hs big]
      exact ⟨rfl, rfl⟩

/-! ## Every instruction -/

theorem oneWordApart_of_exec8 {i : Instr} {m t t' : Apache 8 2} {mem' : Memory 8} (hcap : mem'.cap = m.mem.cap)
    (hread : ∀ a, i.readAddress = some a → mem'.read a = m.mem.read a) (h : exec i ⟨.a8 m⟩ = .next ⟨.a8 t⟩)
    (h' : exec i ⟨.a8 (m.withMem mem')⟩ = .next ⟨.a8 t'⟩) : OneWordApart i.writeAddress m.mem mem' t t' := by
  have own := (effect_of_exec8 h).1
  cases i with
  | loadR0 addr => cases h; cases h'; exact .of_operand hcap (hread _ rfl) (fun v => leavesMemory_update 0 fun _ => v) _
  | loadR1 addr => cases h; cases h'; exact .of_operand hcap (hread _ rfl) (fun v => leavesMemory_update 1 fun _ => v) _
  | addR0 addr =>
    cases h; cases h'
    exact .of_operand hcap (hread _ rfl) (fun v => leavesMemory_update 0 (aluAdd · v)) _
  | addR1 addr =>
    cases h; cases h'
    exact .of_operand hcap (hread _ rfl) (fun v => leavesMemory_update 1 (aluAdd · v)) _
  | storeR0 addr => cases h; cases h'; exact .of_store hcap _ _
  | storeR1 addr => cases h; cases h'; exact .of_store hcap _ _
  | in8 addr => cases h; cases h'; exact .of_inTo hcap _
  | jumpzR0 addr => cases h; cases h'; exact .of_leavesMemory hcap (leavesMemory_jumpz 0 (jumpTarget 8 addr)) _
  | jumpzR1 addr => cases h; cases h'; exact .of_leavesMemory hcap (leavesMemory_jumpz 1 (jumpTarget 8 addr)) _
  | shlR0 => cases h; cases h'; exact .of_leavesMemory hcap (leavesMemory_update 0 (aluShl · 1)) _
  | shlR1 => cases h; cases h'; exact .of_leavesMemory hcap (leavesMemory_update 1 (aluShl · 1)) _
  | notR0 => cases h; cases h'; exact .of_leavesMemory hcap (leavesMemory_update 0 aluNot) _
  | notR1 => cases h; cases h'; exact .of_leavesMemory hcap (leavesMemory_update 1 aluNot) _
  | jump8 addr =>
    cases h; cases h'
    exact .of_leavesMemory hcap (f := Apache.jump (jumpTarget 8 addr)) (fun _ _ => ⟨rfl, rfl⟩) _
  | stop8 => cases h; cases h'; exact .of_leavesMemory hcap (f := Apache.stop) (fun _ _ => ⟨rfl, rfl⟩) _
  | outR0 => cases h; cases h'; exact .of_leavesMemory hcap (f := Apache.out 0) (fun _ _ => ⟨rfl, rfl⟩) _
  | _ => cases own

theorem oneWordApart_of_exec16 {i : Instr} {m t t' : Apache 16 4} {mem' : Memory 16} (hcap : mem'.cap = m.mem.cap)
    (hread : ∀ a, i.readAddress = some a → mem'.read a = m.mem.read a) (h : exec i ⟨.a16 m⟩ = .next ⟨.a16 t⟩)
    (h' : exec i ⟨.a16 (m.withMem mem')⟩ = .next ⟨.a16 t'⟩) : OneWordApart i.writeAddress m.mem mem' t t' := by
  have own := (effect_of_exec16 h).1
  cases i with
  | load reg addr =>
    cases h; cases h'
    exact .of_operand hcap (hread _ rfl) (fun v => leavesMemory_update reg fun _ => v) _
  | add reg addr =>
    cases h; cases h'
    exact .of_operand hcap (hread _ rfl) (fun v => leavesMemory_update reg (aluAdd · v)) _
  | sub reg addr =>
    cases h; cases h'
    exact .of_operand hcap (hread _ rfl) (fun v => leavesMemory_update reg (aluSub · v)) _
  | mul reg addr =>
    cases h; cases h'
    exact .of_operand hcap (hread _ rfl) (fun v => leavesMemory_update reg (aluMul · v)) _
  | div reg addr => cases h; cases h'; exact .of_operand hcap (hread _ rfl) (leavesMemory_div reg) _
  | store reg addr => cases h; cases h'; exact .of_store hcap _ _
  | in16 addr => cases h; cases h'; exact .of_inTo hcap _
  | jumpz reg addr => cases h; cases h'; exact .of_leavesMemory hcap (leavesMemory_jumpz reg (jumpTarget 16 addr)) _
  | shr reg count =>
    cases h; cases h'
    exact .of_leavesMemory hcap (leavesMemory_writeShift reg count.toNat (aluShr · count.toNat)) _
  | shl reg count =>
    cases h; cases h'
    exact .of_leavesMemory hcap (leavesMemory_writeShift reg count.toNat (aluShl · count.toNat)) _
  | not reg => cases h; cases h'; exact .of_leavesMemory hcap (leavesMemory_update reg aluNot) _
  | jump16 addr =>
    cases h; cases h'
    exact .of_leavesMemory hcap (f := Apache.jump (jumpTarget 16 addr)) (fun _ _ => ⟨rfl, rfl⟩) _
  | rsvd11 => cases h; cases h'; exact .of_leavesMemory hcap (f := id) (fun _ _ => ⟨rfl, rfl⟩) _
  | rsvd12 => cases h; cases h'; exact .of_leavesMemory hcap (f := id) (fun _ _ => ⟨rfl, rfl⟩) _
  | stop16 => cases h; cases h'; exact .of_leavesMemory hcap (f := Apache.stop) (fun _ _ => ⟨rfl, rfl⟩) _
  | out reg => cases h; cases h'; exact .of_leavesMemory hcap (f := Apache.out reg) (fun _ _ => ⟨rfl, rfl⟩) _
  | _ => cases own

/-- No instruction both reads and writes memory (R56). -/
theorem reads_or_writes (i : Instr) : i.readAddress = none ∨ i.writeAddress = none := by
  cases i <;> first | exact .inl rfl | exact .inr rfl

end Sys2Proof.Machine

namespace Sys2Proof.Proofs

open Sys2Proof.Machine

/-- Settles O42: each handler reads one word, writes one word, or leaves memory alone. -/
theorem handlerUsesOneMemoryWord : Obligations.HandlerUsesOneMemoryWord :=
  ⟨reads_or_writes, fun _ _ _ _ _ hcap hread h h' => oneWordApart_of_exec8 hcap hread h h',
    fun _ _ _ _ _ hcap hread h h' => oneWordApart_of_exec16 hcap hread h h'⟩

end Sys2Proof.Proofs
end

section
/-! PROOFS. The cycle (spec/40_cycle.md R92 to R107): equations of a step at a given control state, what every step leaves
as it was, and how the step of a cycle ends; the statements assembled from these. -/

namespace Sys2Proof.Machine

variable {w n : Nat}

/-! ## The end of a cycle (R98) -/

/-- The end of a cycle writes the budget and the control state alone. -/
theorem endCycle_eq (m : Apache w n) : ∃ b c, m.endCycle = { m with budget := b, ctl := c } := by
  by_cases h : m.ctl = .execute
  · exact ⟨_, _, endCycle_completed h⟩
  · exact ⟨_, _, endCycle_other h⟩

theorem endCycle_eq_ite (m : Apache w n) :
    m.endCycle = if m.ctl = .execute then { m with budget := m.budget - 1, ctl := .fetch } else m := by
  split
  · next h => exact endCycle_completed h
  · next h => exact endCycle_other h

@[simp] theorem Apache.endCycle_cir (m : Apache w n) : m.endCycle.cir = m.cir := by
  obtain ⟨_, _, e⟩ := endCycle_eq m; rw [e]
@[simp] theorem Apache.endCycle_mem (m : Apache w n) : m.endCycle.mem = m.mem := by
  obtain ⟨_, _, e⟩ := endCycle_eq m; rw [e]
@[simp] theorem Apache.endCycle_input (m : Apache w n) : m.endCycle.input = m.input := by
  obtain ⟨_, _, e⟩ := endCycle_eq m; rw [e]
@[simp] theorem Apache.endCycle_inPos (m : Apache w n) : m.endCycle.inPos = m.inPos := by
  obtain ⟨_, _, e⟩ := endCycle_eq m; rw [e]
@[simp] theorem Apache.endCycle_output (m : Apache w n) : m.endCycle.output = m.output := by
  obtain ⟨_, _, e⟩ := endCycle_eq m; rw [e]
@[simp] theorem Apache.endCycle_params (m : Apache w n) : m.endCycle.params = m.params := by
  obtain ⟨_, _, e⟩ := endCycle_eq m; rw [e]

/-- A completed cycle on a core that was about to fetch returns to FETCH: the fetch, the increment, the count. -/
theorem fetched_endCycle {m : Apache w n} (h : m.ctl = .fetch) :
    (fetched m).endCycle =
      { m with cir := m.mem.read m.pc.toNat, pc := nextPc m.pc, budget := m.budget - 1 } := by
  rw [endCycle_completed (m := fetched m) rfl, ← h]
  rfl

/-! ## A step from FETCH (R93, R107) -/

/-- The step where the loop tests or the fetch end the cycle before a handler runs. -/
theorem step_without_handler {s t : State} (hs : s.constructed = true) (hc : s.ctl = .fetch)
    (ht : (s.lift fun _ _ m => m.beginCycle) = t) (h : t.ctl ≠ .execute) : step s = .next t := by
  simp only [step, hs, if_true, State.advance, hc, State.runCycle, ht]
  cases e : t.ctl
  case execute => exact absurd e h
  all_goals rfl

/-- The step where a word was fetched is that of its handler. -/
theorem step_with_handler {s t : State} (hs : s.constructed = true) (hc : s.ctl = .fetch)
    (ht : (s.lift fun _ _ m => m.beginCycle) = t) (h : t.ctl = .execute) : step s = t.runHandler := by
  simp only [step, hs, if_true, State.advance, hc, State.runCycle, ht, h]

theorem runHandler_of_exec {s t : State} (h : exec s.decoded s = .next t) :
    s.runHandler = .next (t.lift fun _ _ m => m.endCycle) := by
  simp [State.runHandler, h]

theorem step_halted {s : State} (hs : s.constructed = true) (hc : s.ctl = .fetch) (hh : s.halt = true) :
    step s = .next (s.lift fun _ _ m => m.endRun .halted .halted) := by
  obtain ⟨m | m⟩ := s
  · exact step_without_handler hs hc (congrArg _ (congrArg _ (beginCycle_halted hh))) (by simp)
  · exact step_without_handler hs hc (congrArg _ (congrArg _ (beginCycle_halted hh))) (by simp)

theorem step_exhausted {s : State} (hs : s.constructed = true) (hc : s.ctl = .fetch) (hh : s.halt = false)
    (hb : s.budget = 0) : step s = .next (s.lift fun _ _ m => m.endRun .idle .exhausted) := by
  obtain ⟨m | m⟩ := s
  · exact step_without_handler hs hc (congrArg _ (congrArg _ (beginCycle_exhausted hh hb))) (by simp)
  · exact step_without_handler hs hc (congrArg _ (congrArg _ (beginCycle_exhausted hh hb))) (by simp)

/-- The core after the loop tests and a fetch that succeeds. -/
theorem beginCycle_fetched {m : Apache w n} (hh : m.halt = false) (hb : 0 < m.budget) (hp : m.pc.toNat < m.mem.cap) :
    m.beginCycle = fetched m :=
  (beginCycle_fetch hh hb).trans (fetch_valid hp)

theorem beginCycle_fetch_faults {m : Apache w n} (hh : m.halt = false) (hb : 0 < m.budget)
    (hp : m.mem.cap ≤ m.pc.toNat) : m.beginCycle = m.afterFault (.outOfBounds .fetch m.pc.toNat) :=
  (beginCycle_fetch hh hb).trans (fetch_invalid hp)

theorem step_fetch_faults8 {m : Apache 8 2} (hc : m.ctl = .fetch) (hh : m.halt = false) (hb : 0 < m.budget)
    (hp : m.mem.cap ≤ m.pc.toNat) :
    step ⟨.a8 m⟩ = .next ⟨.a8 (m.afterFault (.outOfBounds .fetch m.pc.toNat))⟩ :=
  step_without_handler rfl hc (congrArg _ (congrArg _ (beginCycle_fetch_faults hh hb hp))) (fun e => by cases e)

theorem step_fetch_faults16 {m : Apache 16 4} (hcap : m.mem.cap ≤ 1024) (hc : m.ctl = .fetch) (hh : m.halt = false)
    (hb : 0 < m.budget) (hp : m.mem.cap ≤ m.pc.toNat) :
    step ⟨.a16 m⟩ = .next ⟨.a16 (m.afterFault (.outOfBounds .fetch m.pc.toNat))⟩ :=
  step_without_handler (decide_eq_true hcap) hc (congrArg _ (congrArg _ (beginCycle_fetch_faults hh hb hp)))
    (fun e => by cases e)

theorem step_cycle8 {m t : Apache 8 2} (hc : m.ctl = .fetch) (hh : m.halt = false) (hb : 0 < m.budget)
    (hp : m.pc.toNat < m.mem.cap) (ht : Runs8 (decode8 (m.mem.read m.pc.toNat)) (fetched m) t) :
    step ⟨.a8 m⟩ = .next ⟨.a8 t.endCycle⟩ :=
  (step_with_handler (s := ⟨.a8 m⟩) (t := ⟨.a8 (fetched m)⟩) rfl hc
    (congrArg _ (congrArg _ (beginCycle_fetched hh hb hp))) rfl).trans (runHandler_of_exec (s := ⟨.a8 (fetched m)⟩) ht)

theorem step_cycle16 {m t : Apache 16 4} (hcap : m.mem.cap ≤ 1024) (hc : m.ctl = .fetch) (hh : m.halt = false)
    (hb : 0 < m.budget) (hp : m.pc.toNat < m.mem.cap)
    (ht : Runs16 (decode16 (m.mem.read m.pc.toNat)) (fetched m) t) : step ⟨.a16 m⟩ = .next ⟨.a16 t.endCycle⟩ :=
  (step_with_handler (s := ⟨.a16 m⟩) (t := ⟨.a16 (fetched m)⟩) (decide_eq_true hcap) hc
    (congrArg _ (congrArg _ (beginCycle_fetched hh hb hp))) rfl).trans (runHandler_of_exec (s := ⟨.a16 (fetched m)⟩) ht)

/-! ## A step from WAIT_IN and from the states that rest -/

theorem step_waiting {s : State} (hs : s.constructed = true) (hc : s.ctl = .waitIn) : step s = .next s.runWaiting := by
  simp [step, hs, State.advance, hc]

theorem step_waiting8 {m : Apache 8 2} (hc : m.ctl = .waitIn) :
    step ⟨.a8 m⟩ = .next ⟨.a8 (m.wake.resumeIn (m.cir.toNat % 16)).endCycle⟩ := by
  rw [step_waiting (s := ⟨.a8 m⟩) rfl hc, ← addrField8_toNat]
  rfl

theorem step_waiting16 {m : Apache 16 4} (hcap : m.mem.cap ≤ 1024) (hc : m.ctl = .waitIn) :
    step ⟨.a16 m⟩ = .next ⟨.a16 (m.wake.resumeIn (m.cir.toNat % 1024)).endCycle⟩ := by
  rw [step_waiting (s := ⟨.a16 m⟩) (decide_eq_true hcap) hc, ← addrField16_toNat]
  rfl

theorem step_rests {s : State} (hs : s.constructed = true) (hc : s.ctl = .idle ∨ s.ctl = .halted ∨ s.ctl = .faulted) :
    step s = .next s := by
  rcases hc with hc | hc | hc <;> simp [step, hs, State.advance, hc]

theorem constructed_of_step {s t : State} (h : step s = .next t) : s.constructed = true := by
  by_contra hs
  simp [step, hs] at h

/-! ## The waiting IN taken up again (R107, R180, R189) -/

theorem resume_without_line {m : Apache w n} (a : Nat) (hc : m.ctl = .waitIn) (h : m.input[m.inPos]? = none) :
    (m.wake.resumeIn a).endCycle = m := by
  have same : ({ m.wake with ctl := .waitIn } : Apache w n) = m := by rw [← hc]; rfl
  rw [resumeIn_waits (m := m.wake) a h, same, endCycle_other (by simp [hc])]

theorem resume_accepts {m : Apache w n} {a : Nat} {line : Line} {v : Nat} (h : m.input[m.inPos]? = some line)
    (hv : acceptLine m.params line = .ok v) (ha : a < m.mem.cap) :
    (m.wake.resumeIn a).endCycle =
      { m with inPos := m.inPos + 1, mem := m.mem.put a (BitVec.ofNat w v), budget := m.budget - 1, ctl := .fetch } := by
  rw [resumeIn_accepts (m := m.wake) a h hv, storeOperand_valid _ (by exact ha), endCycle_completed rfl]
  rfl

theorem resume_out_of_bounds {m : Apache w n} {a : Nat} {line : Line} {v : Nat} (h : m.input[m.inPos]? = some line)
    (hv : acceptLine m.params line = .ok v) (ha : m.mem.cap ≤ a) :
    (m.wake.resumeIn a).endCycle =
      ({ m with inPos := m.inPos + 1 } : Apache w n).afterFault (.outOfBounds .write a) := by
  rw [resumeIn_accepts (m := m.wake) a h hv, storeOperand_invalid _ (by exact ha)]
  exact endCycle_afterFault _ _

theorem resume_rejects {m : Apache w n} (a : Nat) {line : Line} {f : FaultRecord} (h : m.input[m.inPos]? = some line)
    (hf : acceptLine m.params line = .error f) :
    (m.wake.resumeIn a).endCycle = ({ m with inPos := m.inPos + 1 } : Apache w n).afterFault (.parseError .input) := by
  cases acceptLine_error hf
  rw [resumeIn_rejects (m := m.wake) a h hf]
  exact endCycle_afterFault _ _

end Sys2Proof.Machine

namespace Sys2Proof.Proofs

open Sys2Proof.Machine

/-- Settles O30: the loop tests in their order, then the bound of the fetch. -/
theorem haltAndBudgetAreTestedBeforeTheFetch : Obligations.HaltAndBudgetAreTestedBeforeTheFetch :=
  ⟨fun m hc => ⟨step_halted (s := ⟨.a8 m⟩) rfl hc, step_exhausted (s := ⟨.a8 m⟩) rfl hc, step_fetch_faults8 hc⟩,
    fun m hcap hc => ⟨step_halted (s := ⟨.a16 m⟩) (decide_eq_true hcap) hc,
      step_exhausted (s := ⟨.a16 m⟩) (decide_eq_true hcap) hc, step_fetch_faults16 hcap hc⟩⟩

/-- Settles O29: every decoded word has a meaning on its own variant, and the end of the cycle follows it. -/
theorem stepRunsTheDecodedInstruction : Obligations.StepRunsTheDecodedInstruction := by
  constructor
  · intro m hc hh hb hp
    obtain ⟨t, ht⟩ := exec_next_apache8 (decode8_variant (m.mem.read m.pc.toNat)) (fetched m)
    exact ⟨t, ht, endCycle_eq_ite t ▸ step_cycle8 hc hh hb hp ht⟩
  · intro m hcap hc hh hb hp
    obtain ⟨t, ht⟩ := exec_next_apache16 (decode16_variant (m.mem.read m.pc.toNat)) (fetched m)
    exact ⟨t, ht, endCycle_eq_ite t ▸ step_cycle16 hcap hc hh hb hp ht⟩

/-- Settles O31: the cycle of STOP leaves `halt` set, so that the next step ends the Run at the halt test. -/
theorem stopEndsTheRun : Obligations.StopEndsTheRun := by
  constructor
  · intro m hc hh hb hp word
    refine ⟨_, rfl, ?_, step_halted (s := ⟨.a8 _⟩) rfl hc rfl⟩
    have stop : Runs8 (decode8 (m.mem.read m.pc.toNat)) (fetched m) (fetched m).setHalt := by
      rw [decode8_stop word]; exact exec_stop8 _
    have counted : (fetched m).setHalt.endCycle = (fetched m).endCycle.setHalt := rfl
    rw [step_cycle8 hc hh hb hp stop, counted, fetched_endCycle hc]
    rfl
  · intro m hcap hc hh hb hp word
    refine ⟨_, rfl, ?_, step_halted (s := ⟨.a16 _⟩) (decide_eq_true hcap) hc rfl⟩
    have stop : Runs16 (decode16 (m.mem.read m.pc.toNat)) (fetched m) (fetched m).setHalt := by
      rw [decode16_stop word]; exact exec_stop16 _
    have counted : (fetched m).setHalt.endCycle = (fetched m).endCycle.setHalt := rfl
    rw [step_cycle16 hcap hc hh hb hp stop, counted, fetched_endCycle hc]
    rfl

/-- Settles O25: the meanings as equations, and the cycle of a reserved word, of which only the fetch is left. -/
theorem apache16ReservedAreNoOpsAndStopHalts : Obligations.Apache16ReservedAreNoOpsAndStopHalts := by
  constructor
  · intro m r addr
    exact ⟨⟨decode16_of_encode16_ignored_operands r addr rfl (by decide),
      decode16_of_encode16_ignored_operands r addr rfl (by decide),
      decode16_of_encode16_ignored_operands r addr rfl (by decide)⟩, exec_rsvd11 m, exec_rsvd12 m, exec_stop16 m⟩
  · intro m hcap hc hh hb hp word
    have noOp : Runs16 (decode16 (m.mem.read m.pc.toNat)) (fetched m) (fetched m) := by
      rcases word with word | word
      · rw [decode16_rsvd11 word]; exact exec_rsvd11 _
      · rw [decode16_rsvd12 word]; exact exec_rsvd12 _
    rw [step_cycle16 hcap hc hh hb hp noOp, fetched_endCycle hc]
    rfl

/-- Settles O34: one equation of the resumed IN for each row. -/
theorem waitingInResumesWhenALineComes : Obligations.WaitingInResumesWhenALineComes := by
  constructor
  · intro m hc
    rw [step_waiting8 hc]
    refine ⟨fun h => ?_, fun line v h hv ha => ?_, fun line v h hv ha => ?_, fun line f h hf => ?_⟩
    · rw [resume_without_line _ hc h]
    · exact ⟨_, Memory.put_storedAt m.mem _ _, by rw [resume_accepts h hv ha]⟩
    · rw [resume_out_of_bounds h hv ha]
    · rw [resume_rejects _ h hf]
  · intro m hcap hc
    rw [step_waiting16 hcap hc]
    refine ⟨fun h => ?_, fun line v h hv ha => ?_, fun line v h hv ha => ?_, fun line f h hf => ?_⟩
    · rw [resume_without_line _ hc h]
    · exact ⟨_, Memory.put_storedAt m.mem _ _, by rw [resume_accepts h hv ha]⟩
    · rw [resume_out_of_bounds h hv ha]
    · rw [resume_rejects _ h hf]

end Sys2Proof.Proofs
end

section
/-! PROOFS. Every step (spec/40_cycle.md R98, R105 to R107): what a transition leaves as it was and how it ends, over both
variants at once, and that each of them keeps the invariant of the machine. -/

namespace Sys2Proof.Machine

variable {w n : Nat} {v : Variant} {decode : BitVec w → Instr} {addr : BitVec w → Nat}
  {run : Instr → Apache w n → Apache w n → Prop} {i : Instr} {m t : Apache w n}

/-! ## Both variants at once -/

/-- What the transitions of a variant rest on: its meanings have the forms of `Effect`, for instructions of its own, and a
word that decodes to IN has the opcode of IN. -/
structure Meanings (v : Variant) (decode : BitVec w → Instr) (run : Instr → Apache w n → Apache w n → Prop) : Prop where
  effect : ∀ {i m t}, run i m t → i.variant = v ∧ Effect i m t
  opcode : ∀ {word}, (decode word).isIn → word.toNat / 2 ^ (w - 4) = 15

theorem meanings8 : Meanings .a8 decode8 Runs8 := ⟨effect_of_exec8, decode8_isIn⟩

theorem meanings16 : Meanings .a16 decode16 Runs16 := ⟨effect_of_exec16, decode16_isIn⟩

/-- Inversion of a step of either variant. -/
theorem transition_of_step {s t : State} (h : step s = .next t) :
    (∃ m u, s = ⟨.a8 m⟩ ∧ t = ⟨.a8 u⟩ ∧ Transition8 m u) ∨
    (∃ m u, s = ⟨.a16 m⟩ ∧ t = ⟨.a16 u⟩ ∧ m.mem.cap ≤ 1024 ∧ Transition16 m u) := by
  obtain ⟨m | m⟩ := s
  · obtain ⟨u, e, ht⟩ := transition_of_step8 h
    exact .inl ⟨m, u, rfl, e, ht⟩
  · obtain ⟨hcap, u, e, ht⟩ := transition_of_step16 h
    exact .inr ⟨m, u, rfl, e, hcap, ht⟩

/-! ## What every step leaves as it was (R11, R38, R183) -/

theorem resumeIn_frame (m : Apache w n) (a : Nat) : Frame m (m.resumeIn a) := by
  rcases resumeIn_ends m a with ⟨_, e⟩ | ⟨_, _, _, e⟩ | ⟨_, _, _, e⟩ <;> rw [e] <;> exact ⟨rfl, rfl, rfl, rfl, rfl⟩

/-- The capacity, the parameters and the delivered lines are fixed. -/
theorem Transition.fixed (meanings : Meanings v decode run) (h : Transition decode addr run m t) :
    t.mem.cap = m.mem.cap ∧ t.params = m.params ∧ t.input = m.input := by
  cases h with
  | cycles u _ _ _ _ hu =>
    have frame := (meanings.effect hu).2.frame
    simpa using ⟨frame.cap, frame.params, frame.input⟩
  | handles u _ hu =>
    have frame := (meanings.effect hu).2.frame
    simpa using ⟨frame.cap, frame.params, frame.input⟩
  | resumes _ =>
    have frame := resumeIn_frame m.wake (addr m.cir)
    simpa using ⟨frame.cap, frame.params, frame.input⟩
  | _ => exact ⟨rfl, rfl, rfl⟩

/-- A step appends at most one event and consumes at most one line. -/
theorem Transition.ports (meanings : Meanings v decode run) (h : Transition decode addr run m t) :
    (t.output = m.output ∨ ∃ e, t.output = m.output ++ [e]) ∧ (t.inPos = m.inPos ∨ t.inPos = m.inPos + 1) := by
  cases h with
  | cycles u _ _ _ _ hu =>
    rw [Apache.endCycle_output, Apache.endCycle_inPos]
    exact (meanings.effect hu).2.ports
  | handles u _ hu =>
    rw [Apache.endCycle_output, Apache.endCycle_inPos]
    exact (meanings.effect hu).2.ports
  | resumes _ =>
    rcases resumeIn_ends m.wake (addr m.cir) with ⟨_, e⟩ | ⟨_, _, _, e⟩ | ⟨_, _, _, e⟩ <;> rw [e] <;> simp
  | _ => exact ⟨.inl rfl, .inl rfl⟩

/-! ## How a cycle ends (R98, R105, R107) -/

/-- The three ends of a cycle that began on core `m`: completed and counted, faulted, or waiting for a line. -/
inductive CycleEnd (m t : Apache w n) : Prop where
  | completed (hc : t.ctl = .fetch) (hb : t.budget = m.budget - 1)
  | faulted (hc : t.ctl = .faulted) (hs : t.status.isSome = true) (hb : t.budget = m.budget)
  | waiting (hc : t.ctl = .waitIn) (hl : t.input[t.inPos]? = none) (hb : t.budget = m.budget)

theorem CycleEnd.of_completed (hc : t.ctl = .execute) (hb : t.budget = m.budget) : CycleEnd m t.endCycle := by
  rw [endCycle_completed hc]
  exact .completed rfl (congrArg (· - 1) hb)

theorem CycleEnd.of_raise {f : FaultRecord} (hb : t.budget = m.budget) : CycleEnd m (t.raise f).endCycle := by
  rw [endCycle_other (by simp)]
  exact .faulted rfl rfl hb

theorem CycleEnd.of_wait (hl : t.input[t.inPos]? = none) (hb : t.budget = m.budget) :
    CycleEnd m ({ t with ctl := .waitIn } : Apache w n).endCycle := by
  rw [endCycle_other (by simp)]
  exact .waiting rfl hl hb

/-- A handler called in EXECUTE ends its cycle in one of the three ways, and waits only as an IN. -/
theorem HandlerEnd.cycleEnd (h : HandlerEnd i m t) (hc : m.ctl = .execute) (hb : t.budget = m.budget) :
    CycleEnd m t.endCycle ∧ (t.endCycle.ctl = .waitIn → i.isIn) := by
  cases h with
  | completes _ hctl _ _ =>
    have execute := hctl.trans hc
    exact ⟨.of_completed execute hb, fun e => by rw [endCycle_completed execute] at e; cases e⟩
  | raises f hf hi => exact ⟨.of_raise hb, fun e => by rw [endCycle_other (by simp)] at e; cases e⟩
  | rejects a f ha hf hi => exact ⟨.of_raise hb, fun _ => hi⟩
  | waits hi hl => exact ⟨.of_wait (t := m.emit .prompt) hl hb, fun _ => hi⟩

/-- An IN that waited ends its cycle in one of the three ways too. -/
theorem CycleEnd.of_resume (m : Apache w n) (a : Nat) : CycleEnd m (m.wake.resumeIn a).endCycle := by
  rcases resumeIn_ends m.wake a with ⟨hl, e⟩ | ⟨f, _, _, e⟩ | ⟨v, _, _, e⟩ <;> rw [e]
  · exact .of_wait hl rfl
  · exact .of_raise rfl
  · exact .of_completed rfl rfl

/-- A step that runs a handler, from EXECUTE or from FETCH with a cycle left, ends the cycle, and waits only with an IN in
`cir`. -/
theorem Transition.cycleEnd (meanings : Meanings v decode run) (h : Transition decode addr run m t)
    (start : m.ctl = .execute ∨ m.ctl = .fetch ∧ m.halt = false ∧ 0 < m.budget) :
    CycleEnd m t ∧ (t.ctl = .waitIn → (decode t.cir).isIn) := by
  cases h with
  | stays hc => rcases start with e | ⟨e, _⟩ <;> simp [e] at hc
  | halts hc hh =>
    rcases start with e | ⟨_, e, _⟩
    · cases hc.symm.trans e
    · cases hh.symm.trans e
  | exhausts hc hh hb =>
    rcases start with e | ⟨_, _, e⟩
    · cases hc.symm.trans e
    · omega
  | fetchFaults hc hh hb hp => exact ⟨.faulted rfl rfl rfl, fun e => by cases e⟩
  | cycles u hc hh hb hp hu =>
    obtain ⟨_, effect⟩ := meanings.effect hu
    obtain ⟨ends, waits⟩ := effect.handlerEnd.cycleEnd rfl effect.frame.budget
    refine ⟨?_, fun e => ?_⟩
    · cases ends with
      | completed hc hb => exact .completed hc hb
      | faulted hc hs hb => exact .faulted hc hs hb
      | waiting hc hl hb => exact .waiting hc hl hb
    · rw [Apache.endCycle_cir, effect.frame.cir]
      exact waits e
  | handles u hc hu =>
    obtain ⟨_, effect⟩ := meanings.effect hu
    obtain ⟨ends, waits⟩ := effect.handlerEnd.cycleEnd hc effect.frame.budget
    refine ⟨ends, fun e => ?_⟩
    rw [Apache.endCycle_cir, effect.frame.cir]
    exact waits e
  | resumes hc => rcases start with e | ⟨e, _⟩ <;> simp [e] at hc

/-- The same of a step from FETCH or WAIT_IN. -/
theorem Transition.counted (meanings : Meanings v decode run) (h : Transition decode addr run m t)
    (start : m.ctl = .fetch ∨ m.ctl = .waitIn) (hh : m.halt = false) (hb : 0 < m.budget) : CycleEnd m t := by
  rcases start with hc | hc
  · exact (h.cycleEnd meanings (.inr ⟨hc, hh, hb⟩)).1
  · cases h with
    | stays rests => simp [hc] at rests
    | resumes _ => exact .of_resume m _
    | halts e _ => cases hc.symm.trans e
    | exhausts e _ _ => cases hc.symm.trans e
    | fetchFaults e _ _ _ => cases hc.symm.trans e
    | cycles _ e _ _ _ _ => cases hc.symm.trans e
    | handles _ e _ => cases hc.symm.trans e

theorem CycleEnd.count (h : CycleEnd m t) (hb : 0 < m.budget) :
    (t.ctl = .fetch ∧ t.budget + 1 = m.budget) ∨
    (t.ctl = .faulted ∧ t.status.isSome = true ∧ t.budget = m.budget) ∨ (t.ctl = .waitIn ∧ t.budget = m.budget) := by
  cases h with
  | completed hc e => exact .inl ⟨hc, by omega⟩
  | faulted hc hs e => exact .inr (.inl ⟨hc, hs, e⟩)
  | waiting hc _ e => exact .inr (.inr ⟨hc, e⟩)

theorem CycleEnd.blocks {P : Prop} (h : CycleEnd m t) (hi : t.ctl = .waitIn → P) :
    t.ctl = .fetch ∨ t.ctl = .faulted ∨ (t.ctl = .waitIn ∧ P ∧ t.input[t.inPos]? = none) := by
  cases h with
  | completed hc _ => exact .inl hc
  | faulted hc _ _ => exact .inr (.inl hc)
  | waiting hc hl _ => exact .inr (.inr ⟨hc, hi hc, hl⟩)

/-! ## Run on a core that is not running (R101 to R103) -/

theorem callRun_idle (budget : Nat) (hc : m.ctl = .idle) (hs : m.status = none) :
    m.callRun budget = { m with budget := budget, ctl := .fetch, outcome := none } := by
  simp [Apache.callRun, hc, hs]

theorem callRun_idle_faulted (budget : Nat) {f : FaultRecord} (hc : m.ctl = .idle) (hs : m.status = some f) :
    m.callRun budget = { m with outcome := some (.faulted f) } := by
  simp [Apache.callRun, hc, hs]

theorem callRun_halted (budget : Nat) (hc : m.ctl = .halted) : m.callRun budget = { m with outcome := some .halted } := by
  simp [Apache.callRun, hc]

theorem callRun_faulted (budget : Nat) {f : FaultRecord} (hc : m.ctl = .faulted) (hs : m.status = some f) :
    m.callRun budget = { m with outcome := some (.faulted f) } := by
  simp [Apache.callRun, hc, hs]

/-- A Run in progress is not interrupted (log 8). -/
theorem callRun_running (budget : Nat) (hc : m.ctl = .fetch ∨ m.ctl = .execute ∨ m.ctl = .waitIn) :
    m.callRun budget = m := by
  rcases hc with hc | hc | hc <;> simp [Apache.callRun, hc]

end Sys2Proof.Machine

namespace Sys2Proof.Proofs

open Sys2Proof.Machine

/-- Settles O32: the three ends of a cycle with what each does to the budget. -/
theorem completedCyclesAreCounted : Obligations.CompletedCyclesAreCounted := by
  intro s t start hh hb h
  rcases transition_of_step h with ⟨m, u, rfl, rfl, tr⟩ | ⟨m, u, rfl, rfl, _, tr⟩
  · exact (tr.counted meanings8 start hh hb).count hb
  · exact (tr.counted meanings16 start hh hb).count hb

/-- Settles O33: of the three ends of a cycle only an IN without a line is the waiting one. -/
theorem onlyInBlocks : Obligations.OnlyInBlocks := by
  intro s t start h
  rcases transition_of_step h with ⟨m, u, rfl, rfl, tr⟩ | ⟨m, u, rfl, rfl, _, tr⟩
  · obtain ⟨ends, waits⟩ := tr.cycleEnd meanings8 start
    exact ends.blocks waits
  · obtain ⟨ends, waits⟩ := tr.cycleEnd meanings16 start
    exact ends.blocks waits

/-- Settles O35: the idle row of Run, and the budget test it meets when the budget is 0. -/
theorem runOnAnIdleCoreContinues : Obligations.RunOnAnIdleCoreContinues := by
  intro w n budget m hc hs
  refine ⟨callRun_idle budget hc hs, fun hh => ?_⟩
  rw [callRun_idle 0 hc hs]
  exact beginCycle_exhausted hh rfl

/-- Settles O36: both states rest under a step, and Run only shows their outcome again. -/
theorem haltedAndFaultedAreAbsorbing : Obligations.HaltedAndFaultedAreAbsorbing := by
  refine ⟨fun s t hc h => ?_, fun _ _ budget _ hc => callRun_halted budget hc,
    fun _ _ budget _ _ hc hs => callRun_faulted budget hc hs, fun _ _ _ _ => ⟨rfl, rfl⟩⟩
  rw [step_rests (constructed_of_step h) (.inr hc)] at h
  cases h
  rfl

/-- Settles O50: no transition leaves its variant or touches the fixed components. -/
theorem variantCapacityAndParametersNeverChange : Obligations.VariantCapacityAndParametersNeverChange := by
  intro s t h
  rcases transition_of_step h with ⟨m, u, rfl, rfl, tr⟩ | ⟨m, u, rfl, rfl, _, tr⟩
  · obtain ⟨cap, params, input⟩ := tr.fixed meanings8
    exact ⟨rfl, cap, params, input⟩
  · obtain ⟨cap, params, input⟩ := tr.fixed meanings16
    exact ⟨rfl, cap, params, input⟩

/-- Settles O51: the ports of every transition. -/
theorem portsOnlyMoveForward : Obligations.PortsOnlyMoveForward := by
  intro s t h
  rcases transition_of_step h with ⟨m, u, rfl, rfl, tr⟩ | ⟨m, u, rfl, rfl, _, tr⟩
  · exact tr.ports meanings8
  · exact tr.ports meanings16

end Sys2Proof.Proofs
end

section
/-! PROOFS. The invariant of the machine: what each control state asks for, how the ends of a handler and the transitions
keep it, and that the operations of the caller keep it (spec/10_state.md R41; spec/40_cycle.md R107;
spec/70_reset_and_hazards.md R200 to R204). -/

namespace Sys2Proof.Machine

variable {w n : Nat} {v : Variant} {decode : BitVec w → Instr} {addr : BitVec w → Nat}
  {run : Instr → Apache w n → Apache w n → Prop} {i : Instr} {m t : Apache w n}

/-! ## What a control state asks for -/

theorem controlInv_idle (h : m.ctl = .idle) : m.controlInv ↔
    m.halt = false ∧ m.status = none ∧ m.budget = 0 ∧ (m.outcome = none ∨ m.outcome = some .exhausted) := by
  simp only [Apache.controlInv, h]

theorem controlInv_fetch (h : m.ctl = .fetch) : m.controlInv ↔ m.status = none ∧ m.outcome = none := by
  simp only [Apache.controlInv, h]

theorem controlInv_execute (h : m.ctl = .execute) : m.controlInv ↔
    m.halt = false ∧ m.status = none ∧ 0 < m.budget ∧ m.outcome = none := by
  simp only [Apache.controlInv, h]

theorem controlInv_waitIn (h : m.ctl = .waitIn) : m.controlInv ↔
    m.halt = false ∧ m.status = none ∧ 0 < m.budget ∧ m.outcome = none ∧
      m.output.getLast? = some .prompt ∧ m.cir.toNat / 2 ^ (w - 4) = 15 := by
  simp only [Apache.controlInv, h]

theorem controlInv_halted (h : m.ctl = .halted) : m.controlInv ↔
    m.halt = true ∧ m.status = none ∧ m.outcome = some .halted := by
  simp only [Apache.controlInv, h]

theorem controlInv_faulted (h : m.ctl = .faulted) : m.controlInv ↔
    m.halt = false ∧ 0 < m.budget ∧ ∃ f, m.status = some f ∧ m.outcome = some (.faulted f) := by
  simp only [Apache.controlInv, h]

/-! ## The invariant of a core that has not faulted, and at fault entry -/

/-- Without a fault record the clause about records asks for nothing. -/
theorem inv_of_no_status (hm : m.mem.wf) (hp : m.inPos ≤ m.input.length) (hs : m.status = none) (hc : m.controlInv) :
    m.Inv v :=
  ⟨hm, hp, fun f e => (by cases hs.symm.trans e), hc⟩

/-- Fault entry from a running core with a record its variant can raise (R175). -/
theorem inv_of_raise {f : FaultRecord} (hm : m.mem.wf) (hp : m.inPos ≤ m.input.length) (hh : m.halt = false)
    (hb : 0 < m.budget) (hf : f.legal v m.mem.cap) : (m.raise f).Inv v where
  memory := hm
  position := hp
  record g e := by cases e; exact hf
  control := (controlInv_faulted rfl).2 ⟨hh, hb, f, rfl, rfl⟩

/-- A handler that completed, at the end of its cycle (R98). -/
theorem inv_of_completed (hm : m.mem.wf) (hp : m.inPos ≤ m.input.length) (hc : m.ctl = .execute) (hs : m.status = none)
    (ho : m.outcome = none) : m.endCycle.Inv v := by
  rw [endCycle_completed hc]
  exact inv_of_no_status hm hp hs ((controlInv_fetch rfl).2 ⟨hs, ho⟩)

theorem endCycle_raise (m : Apache w n) (f : FaultRecord) : (m.raise f).endCycle = m.raise f := endCycle_afterFault m f

/-! ## The records a variant can raise (R170 to R174) -/

theorem RejectedBy.legal {a : Nat} {f : FaultRecord} (h : RejectedBy a m f) : f.legal v m.mem.cap := by
  rcases h with rfl | ⟨beyond, rfl⟩
  · rfl
  · exact beyond

/-- ArithmeticFault is raised by DIV alone, an instruction of Apache-16. -/
theorem RaisedBy.legal {f : FaultRecord} (h : RaisedBy i m f) (own : i.variant = v) : f.legal v m.mem.cap := by
  rcases h with ⟨a, _, beyond, rfl⟩ | ⟨a, _, beyond, rfl⟩ | ⟨rfl, r, addr, rfl, _⟩
  · exact beyond
  · exact beyond
  · exact own.symm

/-! ## The transitions -/

/-- A handler called in EXECUTE keeps the invariant to the end of its cycle; where it waits, `cir` is to hold an IN. -/
theorem Effect.inv (h : Effect i m t) (inv : m.Inv v) (hc : m.ctl = .execute) (own : i.variant = v)
    (opcode : i.isIn → m.cir.toNat / 2 ^ (w - 4) = 15) : t.endCycle.Inv v := by
  obtain ⟨hh, hs, hb, ho⟩ := (controlInv_execute hc).1 inv.control
  have wf := h.mem_wf inv.memory
  have position := h.position inv.position
  cases h.handlerEnd with
  | completes _ hctl hstatus hout =>
    exact inv_of_completed wf position (hctl.trans hc) (hstatus.trans hs) (hout.trans ho)
  | raises f hf hi =>
    rw [endCycle_raise]
    exact inv_of_raise wf position hh hb (hf.legal own)
  | rejects a f ha hf hi =>
    rw [endCycle_raise]
    exact inv_of_raise (m := m.afterRead) wf position hh hb hf.legal
  | waits hi hl =>
    rw [endCycle_other (by simp)]
    exact inv_of_no_status wf position hs
      ((controlInv_waitIn rfl).2 ⟨hh, hs, hb, ho, List.getLast?_concat, opcode hi⟩)

/-- The core after a fetch that succeeds meets the invariant in EXECUTE. -/
theorem inv_fetched (inv : m.Inv v) (hc : m.ctl = .fetch) (hh : m.halt = false) (hb : 0 < m.budget) :
    (fetched m).Inv v := by
  obtain ⟨hs, ho⟩ := (controlInv_fetch hc).1 inv.control
  exact inv_of_no_status inv.memory inv.position hs ((controlInv_execute rfl).2 ⟨hh, hs, hb, ho⟩)

/-- An IN that waited keeps the invariant: it waits on, takes a fault, or completes. -/
theorem inv_resume (inv : m.Inv v) (hc : m.ctl = .waitIn) (a : Nat) : (m.wake.resumeIn a).endCycle.Inv v := by
  obtain ⟨hh, hs, hb, ho, _, _⟩ := (controlInv_waitIn hc).1 inv.control
  rcases resumeIn_ends m.wake a with ⟨hl, _⟩ | ⟨f, there, hf, e⟩ | ⟨word, there, ha, e⟩
  · rw [resume_without_line a hc hl]
    exact inv
  · rw [e, endCycle_raise]
    exact inv_of_raise (m := { m.wake with inPos := m.inPos + 1 }) inv.memory there hh hb hf.legal
  · rw [e]
    exact inv_of_completed (Memory.put_wf word inv.memory ha) there rfl hs ho

/-- Every transition keeps the invariant of a core. -/
theorem Transition.inv (meanings : Meanings v decode run) (h : Transition decode addr run m t) (inv : m.Inv v) :
    t.Inv v := by
  cases h with
  | stays _ => exact inv
  | halts hc hh =>
    obtain ⟨hs, _⟩ := (controlInv_fetch hc).1 inv.control
    exact inv_of_no_status inv.memory inv.position hs ((controlInv_halted rfl).2 ⟨hh, hs, rfl⟩)
  | exhausts hc hh hb =>
    obtain ⟨hs, _⟩ := (controlInv_fetch hc).1 inv.control
    exact inv_of_no_status inv.memory inv.position hs ((controlInv_idle rfl).2 ⟨hh, hs, hb, .inr rfl⟩)
  | fetchFaults hc hh hb hp => exact inv_of_raise inv.memory inv.position hh hb hp
  | cycles u hc hh hb hp hu =>
    obtain ⟨own, effect⟩ := meanings.effect hu
    exact effect.inv (inv_fetched inv hc hh hb) rfl own meanings.opcode
  | handles u hc hu =>
    obtain ⟨own, effect⟩ := meanings.effect hu
    exact effect.inv inv hc own meanings.opcode
  | resumes hc => exact inv_resume inv hc _

/-! ## The invariant of a state -/

theorem inv_a8 (m : Apache 8 2) : State.Inv ⟨.a8 m⟩ ↔ m.Inv .a8 := ⟨And.right, fun h => ⟨rfl, h⟩⟩

theorem inv_a16 (m : Apache 16 4) : State.Inv ⟨.a16 m⟩ ↔ m.mem.cap ≤ 1024 ∧ m.Inv .a16 :=
  and_congr_left' decide_eq_true_iff

/-- An operation on the shared structure that keeps the capacity and the invariant of a core keeps that of a state. -/
theorem State.Inv.lift {f : (w n : Nat) → Apache w n → Apache w n} {s : State} (inv : s.Inv)
    (cap : ∀ w n (m : Apache w n), (f w n m).mem.cap = m.mem.cap)
    (keeps : ∀ w n v (m : Apache w n), m.Inv v → (f w n m).Inv v) : (s.lift f).Inv := by
  obtain ⟨m | m⟩ := s
  · exact (inv_a8 _).2 (keeps _ _ _ m ((inv_a8 m).1 inv))
  · obtain ⟨hcap, hm⟩ := (inv_a16 m).1 inv
    exact (inv_a16 _).2 ⟨(cap _ _ m).trans_le hcap, keeps _ _ _ m hm⟩

/-! ## The operations of the caller -/

/-- What Run(N) does in each control state, on a core that meets the invariant (R101 to R103, log 8). -/
theorem callRun_inv (budget : Nat) (inv : m.Inv v) : (m.callRun budget).Inv v := by
  cases hc : m.ctl with
  | idle =>
    obtain ⟨_, hs, _, _⟩ := (controlInv_idle hc).1 inv.control
    rw [callRun_idle budget hc hs]
    exact inv_of_no_status inv.memory inv.position hs ((controlInv_fetch rfl).2 ⟨hs, rfl⟩)
  | halted =>
    obtain ⟨hh, hs, _⟩ := (controlInv_halted hc).1 inv.control
    rw [callRun_halted budget hc]
    exact inv_of_no_status inv.memory inv.position hs ((controlInv_halted (by exact hc)).2 ⟨hh, hs, rfl⟩)
  | faulted =>
    obtain ⟨hh, hb, f, hs, _⟩ := (controlInv_faulted hc).1 inv.control
    rw [callRun_faulted budget hc hs]
    exact ⟨inv.memory, inv.position, inv.record, (controlInv_faulted (by exact hc)).2 ⟨hh, hb, f, hs, rfl⟩⟩
  | fetch => rw [callRun_running budget (.inl hc)]; exact inv
  | execute => rw [callRun_running budget (.inr (.inl hc))]; exact inv
  | waitIn => rw [callRun_running budget (.inr (.inr hc))]; exact inv

theorem callRun_mem (budget : Nat) (m : Apache w n) : (m.callRun budget).mem = m.mem := by
  unfold Apache.callRun
  split
  · split <;> rfl
  all_goals rfl

/-- A core constructed over a memory in canonical form. -/
theorem fresh_inv {mem : Memory w} (hm : mem.wf) (p : Params) : (Apache.fresh w n mem p).Inv v :=
  inv_of_no_status hm (Nat.zero_le _) rfl ((controlInv_idle rfl).2 ⟨rfl, rfl, rfl, .inl rfl⟩)

theorem reset_inv (inv : m.Inv v) : m.reset.Inv v :=
  inv_of_no_status inv.memory inv.position rfl ((controlInv_idle rfl).2 ⟨rfl, rfl, rfl, .inl rfl⟩)

theorem deliver_inv (line : Line) (inv : m.Inv v) : (m.deliver line).Inv v :=
  ⟨inv.memory, by simpa using Nat.le_succ_of_le inv.position, inv.record, inv.control⟩

theorem attach_inv (lines : List Line) (inv : m.Inv v) : ({ m with input := lines, inPos := 0 } : Apache w n).Inv v :=
  ⟨inv.memory, Nat.zero_le _, inv.record, inv.control⟩

/-- Another memory of the same capacity. -/
theorem withMem_inv {mem : Memory w} (inv : m.Inv v) (hm : mem.wf) (hcap : mem.cap = m.mem.cap) : (m.withMem mem).Inv v :=
  ⟨hm, inv.position, fun f e => by rw [Apache.withMem, hcap]; exact inv.record f e, inv.control⟩

/-- A memory built anew on an idle core, whose status holds no address to compare with the capacity. -/
theorem withMem_inv_idle {mem : Memory w} (inv : m.Inv v) (hc : m.ctl = .idle) (hm : mem.wf) : (m.withMem mem).Inv v := by
  obtain ⟨_, hs, _, _⟩ := (controlInv_idle hc).1 inv.control
  exact inv_of_no_status hm inv.position hs inv.control

theorem writeWord_inv {a : Nat} {word : BitVec w} (inv : m.Inv v) (h : m.writeWord a word = .ok t) :
    t.Inv v ∧ t.mem.cap = m.mem.cap := by
  obtain ⟨ha, rfl⟩ := writeWord_ok h
  exact ⟨withMem_inv inv (Memory.put_wf word inv.memory ha) rfl, rfl⟩

theorem writeWord_a8 {m : Apache 8 2} {a k : Nat} {t : State} (h : State.writeWord a k ⟨.a8 m⟩ = .ok t) :
    ∃ u, m.writeWord a (trunc 8 k) = .ok u ∧ t = ⟨.a8 u⟩ := by
  simp only [State.writeWord] at h
  cases e : m.writeWord a (trunc 8 k) with
  | error f => rw [e] at h; cases h
  | ok u => rw [e] at h; cases h; exact ⟨u, rfl, rfl⟩

theorem writeWord_a16 {m : Apache 16 4} {a k : Nat} {t : State} (h : State.writeWord a k ⟨.a16 m⟩ = .ok t) :
    ∃ u, m.writeWord a (trunc 16 k) = .ok u ∧ t = ⟨.a16 u⟩ := by
  simp only [State.writeWord] at h
  cases e : m.writeWord a (trunc 16 k) with
  | error f => rw [e] at h; cases h
  | ok u => rw [e] at h; cases h; exact ⟨u, rfl, rfl⟩

theorem buildMemory_ok {s t : State} {cap : Nat} (h : s.buildMemory cap = .ok t) :
    withinMaxCap s.variant cap = true ∧ t = s.lift fun w _ m => m.withMem (Memory.create w cap) := by
  unfold State.buildMemory at h
  split at h
  · cases h; exact ⟨‹_›, rfl⟩
  · cases h

theorem constructApache16_ok {mem : Memory 16} {p : Params} {s : State} (h : constructApache16 mem p = .ok s) :
    mem.cap ≤ 1024 ∧ s = ⟨.a16 (Apache.fresh 16 4 mem p)⟩ := by
  unfold constructApache16 at h
  split at h
  · cases h; exact ⟨of_decide_eq_true ‹_›, rfl⟩
  · cases h

end Sys2Proof.Machine

namespace Sys2Proof.Proofs

open Sys2Proof.Machine

/-- Settles O47: every transition keeps the invariant of its core, and none changes the capacity. -/
theorem everyStepKeepsTheInvariant : Obligations.EveryStepKeepsTheInvariant := by
  intro s t inv h
  rcases transition_of_step h with ⟨m, u, rfl, rfl, tr⟩ | ⟨m, u, rfl, rfl, hcap, tr⟩
  · exact (inv_a8 u).2 (tr.inv meanings8 ((inv_a8 m).1 inv))
  · obtain ⟨sameCap, _, _⟩ := tr.fixed meanings16
    exact (inv_a16 u).2 ⟨sameCap.trans_le hcap, tr.inv meanings16 ((inv_a16 m).1 inv).2⟩

/-- Settles O46: the reset machine is a fresh core over a memory as it is created. -/
theorem resetMeetsTheInvariant : Obligations.ResetMeetsTheInvariant :=
  (inv_a8 _).2 (fresh_inv (Memory.create_wf _) _)

/-- Settles O48: one lemma about the core for each operation. -/
theorem theCallerKeepsTheInvariant : Obligations.TheCallerKeepsTheInvariant := by
  refine ⟨fun s budget inv => ?run, fun s inv => ?reset, fun s line inv => ?deliver, fun s lines inv => ?attach,
    fun s text inv => ?load, fun s t a k inv h => ?write, fun s t cap inv hc h => ?build, fun mem p s hm h => ?new8,
    fun mem p s hm h => ?new16⟩
  case run => exact inv.lift (fun _ _ m => congrArg Memory.cap (callRun_mem budget m)) fun _ _ _ _ => callRun_inv budget
  case reset => exact inv.lift (fun _ _ _ => rfl) fun _ _ _ _ => reset_inv
  case deliver => exact inv.lift (fun _ _ _ => rfl) fun _ _ _ _ => deliver_inv line
  case attach => exact inv.lift (fun _ _ _ => rfl) fun _ _ _ _ => attach_inv lines
  case load =>
    have keeps : ∀ {w n v} {m : Apache w n}, m.Inv v → (m.loadProgram text).1.Inv v := fun hm =>
      withMem_inv hm (Memory.loadProgram_wf text hm.memory) (Memory.loadProgram_cap _ text)
    obtain ⟨m | m⟩ := s
    · exact (inv_a8 _).2 (keeps ((inv_a8 m).1 inv))
    · obtain ⟨hcap, hm⟩ := (inv_a16 m).1 inv
      exact (inv_a16 _).2 ⟨(Memory.loadProgram_cap _ text).trans_le hcap, keeps hm⟩
  case write =>
    obtain ⟨m | m⟩ := s
    · obtain ⟨u, e, rfl⟩ := writeWord_a8 h
      exact (inv_a8 u).2 (writeWord_inv ((inv_a8 m).1 inv) e).1
    · obtain ⟨u, e, rfl⟩ := writeWord_a16 h
      obtain ⟨hcap, hm⟩ := (inv_a16 m).1 inv
      obtain ⟨hu, sameCap⟩ := writeWord_inv hm e
      exact (inv_a16 u).2 ⟨sameCap.trans_le hcap, hu⟩
  case build =>
    obtain ⟨fits, rfl⟩ := buildMemory_ok h
    obtain ⟨m | m⟩ := s
    · exact (inv_a8 _).2 (withMem_inv_idle ((inv_a8 m).1 inv) hc (Memory.create_wf _))
    · exact (inv_a16 _).2 ⟨of_decide_eq_true fits, withMem_inv_idle ((inv_a16 m).1 inv).2 hc (Memory.create_wf _)⟩
  case new8 => cases h; exact (inv_a8 _).2 (fresh_inv hm p)
  case new16 =>
    obtain ⟨hcap, rfl⟩ := constructApache16_ok h
    exact (inv_a16 _).2 ⟨hcap, fresh_inv hm p⟩

end Sys2Proof.Proofs
end

section
/-! PROOFS. Runs (spec/40_cycle.md R93, R99, R105 to R108): a Run comes to rest within its budget, and it ends where the
loop of R93 ends. -/

namespace Sys2Proof.Machine

variable {w n : Nat} {i : Instr} {m t : Apache w n}

/-! ## States a step leaves as they are -/

/-- No input line is available to an IN. -/
def State.noLine (s : State) : Prop :=
  match s.inst with
  | .a8 m => m.input[m.inPos]? = none
  | .a16 m => m.input[m.inPos]? = none

/-- The Run has ended, or an IN waits for a line that has not come. -/
def State.Rests (s : State) : Prop :=
  (s.ctl = .idle ∨ s.ctl = .halted ∨ s.ctl = .faulted) ∨ s.ctl = .waitIn ∧ s.noLine

theorem step_of_rests {s : State} (hs : s.constructed = true) (h : s.Rests) : step s = .next s := by
  rcases h with ended | ⟨hc, hl⟩
  · exact step_rests hs ended
  · obtain ⟨m | m⟩ := s
    · rw [step_waiting8 hc, resume_without_line _ hc hl]
    · rw [step_waiting16 (of_decide_eq_true hs) hc, resume_without_line _ hc hl]

/-- A step keeps a state constructed: variant and capacity stay (R2, R11). -/
theorem constructed_after_step {s t : State} (h : step s = .next t) : t.constructed = true := by
  rcases transition_of_step h with ⟨m, u, rfl, rfl, _⟩ | ⟨m, u, rfl, rfl, hcap, tr⟩
  · rfl
  · exact decide_eq_true ((tr.fixed meanings16).1.trans_le hcap)

theorem run_succ {s t : State} (h : step s = .next t) (k : Nat) :
    Host.Core.run Sys2Proof.core (k + 1) s = Host.Core.run Sys2Proof.core k t := by
  have first : Host.Core.step Sys2Proof.core s = .next t := h
  simp only [Host.Core.run, first]

theorem run_of_fixed {s : State} (h : step s = .next s) (k : Nat) : Host.Core.run Sys2Proof.core k s = .next s := by
  induction k with
  | zero => rfl
  | succ k ih => exact (run_succ h k).trans ih

/-- One step that comes to rest ends the run, however many more are taken. -/
theorem run_to_rest {s t : State} (h : step s = .next t) (rests : t.Rests) (k : Nat) :
    Host.Core.run Sys2Proof.core (k + 1) s = .next t :=
  (run_succ h k).trans (run_of_fixed (step_of_rests (constructed_after_step h) rests) k)

/-! ## A Run comes to rest (R92, R105) -/

/-- A cycle either is counted and returns to FETCH, or comes to rest. -/
theorem cycle_counts_or_rests {s t : State} (hc : s.ctl = .fetch) (hh : s.halt = false) (hb : 0 < s.budget)
    (h : step s = .next t) : (t.ctl = .fetch ∧ t.budget = s.budget - 1) ∨ t.Rests := by
  rcases transition_of_step h with ⟨m, u, rfl, rfl, tr⟩ | ⟨m, u, rfl, rfl, _, tr⟩
  · cases tr.counted meanings8 (.inl hc) hh hb with
    | completed e count => exact .inl ⟨e, count⟩
    | faulted e _ _ => exact .inr (.inl (.inr (.inr e)))
    | waiting e hl _ => exact .inr (.inr ⟨e, hl⟩)
  · cases tr.counted meanings16 (.inl hc) hh hb with
    | completed e count => exact .inl ⟨e, count⟩
    | faulted e _ _ => exact .inr (.inl (.inr (.inr e)))
    | waiting e hl _ => exact .inr (.inr ⟨e, hl⟩)

theorem ctl_endRun (s : State) (c : Control) (o : RunOutcome) : (s.lift fun _ _ m => m.endRun c o).ctl = c := by
  obtain ⟨m | m⟩ := s <;> rfl

theorem run_rests_halted (k : Nat) {s : State} (hs : s.constructed = true) (hc : s.ctl = .fetch) (hh : s.halt = true) :
    ∃ t, Host.Core.run Sys2Proof.core (k + 1) s = .next t ∧ t.Rests := by
  have rests : State.Rests _ := .inl (.inr (.inl (ctl_endRun s .halted .halted)))
  exact ⟨_, run_to_rest (step_halted hs hc hh) rests k, rests⟩

/-- By induction on the budget: each cycle that does not come to rest takes one off it. -/
theorem run_rests (budget : Nat) {s : State} (hs : s.constructed = true) (hc : s.ctl = .fetch) (hb : s.budget = budget) :
    ∃ t, Host.Core.run Sys2Proof.core (budget + 1) s = .next t ∧ t.Rests := by
  induction budget generalizing s with
  | zero =>
    cases hh : s.halt with
    | true => exact run_rests_halted 0 hs hc hh
    | false =>
      have rests : State.Rests _ := .inl (.inl (ctl_endRun s .idle .exhausted))
      exact ⟨_, run_to_rest (step_exhausted hs hc hh hb) rests _, rests⟩
  | succ budget ih =>
    cases hh : s.halt with
    | true => exact run_rests_halted (budget + 1) hs hc hh
    | false =>
      obtain ⟨t, h⟩ := step_next hs
      rcases cycle_counts_or_rests hc hh (by omega) h with ⟨fetches, count⟩ | rests
      · rw [run_succ h]
        exact ih (constructed_after_step h) fetches (by omega)
      · exact ⟨t, run_to_rest h rests _, rests⟩

/-! ## The loop of R93 -/

section
variable {s : State} {k : Nat}

theorem loop_halted (k : Nat) (hh : s.halt = true) : s.loop k = (s, .returned .halted) := by
  cases k <;> simp [State.loop, hh]

theorem loop_exhausted (hh : s.halt = false) : s.loop 0 = (s, .returned .exhausted) := by
  simp [State.loop, hh]

theorem loop_faulted {f : FaultRecord} (hh : s.halt = false) (hf : s.cycle.status = some f) :
    s.loop (k + 1) = (s.cycle, .returned (.faulted f)) := by
  simp [State.loop, hh, hf]

theorem loop_waits (hh : s.halt = false) (hn : s.cycle.status = none) (hw : s.cycle.ctl = .waitIn) :
    s.loop (k + 1) = (s.cycle, .waiting) := by
  simp [State.loop, hh, hn, hw]

theorem loop_next (hh : s.halt = false) (hn : s.cycle.status = none) (hw : s.cycle.ctl = .execute) :
    s.loop (k + 1) = (s.cycle.setBudget k).loop k := by
  simp [State.loop, hh, hn, hw]

theorem cycle_of_fetched {t u : State} (ht : (s.lift fun _ _ m => m.fetch) = t) (hc : t.ctl = .execute)
    (hu : exec t.decoded t = .next u) : s.cycle = u := by
  simp [State.cycle, ht, hc, hu]

theorem cycle_of_fetch_fault {t : State} (ht : (s.lift fun _ _ m => m.fetch) = t) (hc : t.ctl = .faulted) :
    s.cycle = t := by
  simp [State.cycle, ht, hc]

end

/-! ## The loop's core and the state machine's core

The loop leaves the control state where its cycle left it, the state machine stands in FETCH: otherwise they are the same
core at the start of each cycle. -/

/-- The core with the control state FETCH, where the state machine stands before a cycle. -/
def State.enterFetch (s : State) : State := s.lift fun _ _ m => { m with ctl := .fetch }

@[simp] theorem enterFetch_ctl (s : State) : s.enterFetch.ctl = .fetch := by obtain ⟨m | m⟩ := s <;> rfl
@[simp] theorem enterFetch_halt (s : State) : s.enterFetch.halt = s.halt := by obtain ⟨m | m⟩ := s <;> rfl
@[simp] theorem enterFetch_budget (s : State) : s.enterFetch.budget = s.budget := by obtain ⟨m | m⟩ := s <;> rfl
@[simp] theorem enterFetch_constructed (s : State) : s.enterFetch.constructed = s.constructed := by
  obtain ⟨m | m⟩ := s <;> rfl

theorem setBudget_budget (s : State) (k : Nat) : (s.setBudget k).budget = k := by obtain ⟨m | m⟩ := s <;> rfl
theorem setBudget_status (s : State) (k : Nat) : (s.setBudget k).status = s.status := by obtain ⟨m | m⟩ := s <;> rfl

theorem outcome_endRun (s : State) (c : Control) (o : RunOutcome) :
    (s.lift fun _ _ m => m.endRun c o).outcome = some o := by
  obtain ⟨m | m⟩ := s <;> rfl

/-- The return of Run shows in the control state and on the outcome port alone. -/
theorem visible_endRun (s : State) (c : Control) (o : RunOutcome) :
    (s.enterFetch.lift fun _ _ m => m.endRun c o).visible = s.visible := by
  obtain ⟨m | m⟩ := s <;> rfl

/-- A counted cycle leaves the state machine where the loop goes on, up to FETCH. -/
theorem endCycle_of_completed {s : State} {k : Nat} (hc : s.ctl = .execute) (hb : s.budget = k + 1) :
    (s.lift fun _ _ m => m.endCycle) = (s.setBudget k).enterFetch := by
  obtain ⟨m | m⟩ := s
  · have count : m.budget - 1 = k := Nat.sub_eq_of_eq_add hb
    rw [State.lift_a8, endCycle_completed (m := m) hc, count]
    rfl
  · have count : m.budget - 1 = k := Nat.sub_eq_of_eq_add hb
    rw [State.lift_a16, endCycle_completed (m := m) hc, count]
    rfl

theorem endCycle_of_uncompleted {s : State} (hc : s.ctl ≠ .execute) : (s.lift fun _ _ m => m.endCycle) = s := by
  obtain ⟨m | m⟩ := s
  · exact congrArg _ (congrArg _ (endCycle_other hc))
  · exact congrArg _ (congrArg _ (endCycle_other hc))

/-- What a Cycle of R108 leaves: it completed, it faulted, or it waits. -/
theorem HandlerEnd.leaves (h : HandlerEnd i m t) (hc : m.ctl = .execute) (hs : m.status = none)
    (hb : t.budget = m.budget) :
    (t.ctl = .execute ∧ t.status = none ∧ t.budget = m.budget) ∨
    (∃ f, t.ctl = .faulted ∧ t.status = some f ∧ t.outcome = some (.faulted f)) ∨
    (t.ctl = .waitIn ∧ t.status = none ∧ t.input[t.inPos]? = none) := by
  cases h with
  | completes _ hctl hstatus _ => exact .inl ⟨hctl.trans hc, hstatus.trans hs, hb⟩
  | raises f _ _ => exact .inr (.inl ⟨f, rfl, rfl, rfl⟩)
  | rejects _ f _ _ _ => exact .inr (.inl ⟨f, rfl, rfl, rfl⟩)
  | waits _ hl => exact .inr (.inr ⟨rfl, hs, hl⟩)

/-- The step of the state machine is the Cycle of R108 with its count. -/
theorem step_enterFetch {s : State} (hs : s.constructed = true) (hn : s.status = none) (hh : s.halt = false)
    (hb : 0 < s.budget) :
    step s.enterFetch = .next (s.cycle.lift fun _ _ m => m.endCycle) ∧
    ((s.cycle.ctl = .execute ∧ s.cycle.status = none ∧ s.cycle.budget = s.budget) ∨
      (∃ f, s.cycle.ctl = .faulted ∧ s.cycle.status = some f ∧ s.cycle.outcome = some (.faulted f)) ∨
      (s.cycle.ctl = .waitIn ∧ s.cycle.status = none ∧ s.cycle.noLine)) := by
  obtain ⟨m | m⟩ := s
  · rcases Nat.lt_or_ge m.pc.toNat m.mem.cap with hp | hp
    · obtain ⟨t, ht⟩ := exec_next_apache8 (decode8_variant (m.mem.read m.pc.toNat)) (fetched m)
      obtain ⟨_, effect⟩ := effect_of_exec8 ht
      rw [cycle_of_fetched (t := ⟨.a8 (fetched m)⟩) (congrArg _ (congrArg _ (fetch_valid hp))) rfl ht]
      exact ⟨step_cycle8 (m := { m with ctl := .fetch }) rfl hh hb hp ht,
        effect.handlerEnd.leaves rfl hn effect.frame.budget⟩
    · rw [cycle_of_fetch_fault (t := ⟨.a8 (m.raise _)⟩) (congrArg _ (congrArg _ (fetch_invalid hp))) rfl]
      exact ⟨step_fetch_faults8 (m := { m with ctl := .fetch }) rfl hh hb hp, .inr (.inl ⟨_, rfl, rfl, rfl⟩)⟩
  · have hcap := of_decide_eq_true hs
    rcases Nat.lt_or_ge m.pc.toNat m.mem.cap with hp | hp
    · obtain ⟨t, ht⟩ := exec_next_apache16 (decode16_variant (m.mem.read m.pc.toNat)) (fetched m)
      obtain ⟨_, effect⟩ := effect_of_exec16 ht
      rw [cycle_of_fetched (t := ⟨.a16 (fetched m)⟩) (congrArg _ (congrArg _ (fetch_valid hp))) rfl ht]
      exact ⟨step_cycle16 (m := { m with ctl := .fetch }) hcap rfl hh hb hp ht,
        effect.handlerEnd.leaves rfl hn effect.frame.budget⟩
    · rw [cycle_of_fetch_fault (t := ⟨.a16 (m.raise _)⟩) (congrArg _ (congrArg _ (fetch_invalid hp))) rfl]
      exact ⟨step_fetch_faults16 (m := { m with ctl := .fetch }) hcap rfl hh hb hp, .inr (.inl ⟨_, rfl, rfl, rfl⟩)⟩

/-- The end of the loop as the state machine shows it: the outcome, or the wait. -/
def LoopEnd.ShownBy (e : LoopEnd) (t : State) : Prop :=
  match e with
  | .returned o => t.outcome = some o
  | .waiting => t.ctl = .waitIn

/-- From FETCH with the core `s` the state machine ends, in `k + 1` steps, where the loop with `k` cycles ends. -/
def RefinesLoop (k : Nat) (s : State) : Prop :=
  ∃ t, Host.Core.run Sys2Proof.core (k + 1) s.enterFetch = .next t ∧ t.visible = (s.loop k).1.visible ∧
    (s.loop k).2.ShownBy t

section
variable {s : State} (hs : s.constructed = true)
include hs

theorem refinesLoop_halted (k : Nat) (hh : s.halt = true) : RefinesLoop k s := by
  rw [RefinesLoop, loop_halted k hh]
  exact ⟨_, run_to_rest (step_halted ((enterFetch_constructed s).trans hs) (enterFetch_ctl s)
    ((enterFetch_halt s).trans hh)) (.inl (.inr (.inl (ctl_endRun _ _ _)))) k, visible_endRun s _ _,
    outcome_endRun _ _ _⟩

theorem refinesLoop_exhausted (hh : s.halt = false) (hb : s.budget = 0) : RefinesLoop 0 s := by
  rw [RefinesLoop, loop_exhausted hh]
  exact ⟨_, run_to_rest (step_exhausted ((enterFetch_constructed s).trans hs) (enterFetch_ctl s)
    ((enterFetch_halt s).trans hh) ((enterFetch_budget s).trans hb)) (.inl (.inl (ctl_endRun _ _ _))) 0,
    visible_endRun s _ _, outcome_endRun _ _ _⟩

end

/-- By induction on the budget: the state machine follows the loop cycle by cycle. -/
theorem refinesLoop (k : Nat) {s : State} (hs : s.constructed = true) (hn : s.status = none) (hb : s.budget = k) :
    RefinesLoop k s := by
  induction k generalizing s with
  | zero =>
    cases hh : s.halt with
    | true => exact refinesLoop_halted hs 0 hh
    | false => exact refinesLoop_exhausted hs hh hb
  | succ k ih =>
    cases hh : s.halt with
    | true => exact refinesLoop_halted hs (k + 1) hh
    | false =>
      obtain ⟨h, completes | ⟨f, hc, hf, shown⟩ | ⟨hc, hn', hl⟩⟩ := step_enterFetch hs hn hh (by omega)
      · obtain ⟨hc, hn', hb'⟩ := completes
        rw [endCycle_of_completed hc (hb'.trans hb)] at h
        have next := ih (s := s.cycle.setBudget k) ((enterFetch_constructed _).symm.trans (constructed_after_step h))
          ((setBudget_status _ k).trans hn') (setBudget_budget _ k)
        rw [RefinesLoop, loop_next hh hn' hc, run_succ h]
        exact next
      · rw [endCycle_of_uncompleted (by simp [hc])] at h
        rw [RefinesLoop, loop_faulted hh hf]
        exact ⟨_, run_to_rest h (.inl (.inr (.inr hc))) _, rfl, shown⟩
      · rw [endCycle_of_uncompleted (by simp [hc])] at h
        rw [RefinesLoop, loop_waits hh hn' hc]
        exact ⟨_, run_to_rest h (.inr ⟨hc, hl⟩) _, rfl, hc⟩

/-! ## The call of Run -/

theorem callRun_eq_enterFetch {s : State} (budget : Nat) (hc : s.ctl = .idle) (hn : s.status = none) :
    s.callRun budget = (s.startLoop budget).enterFetch := by
  obtain ⟨m | m⟩ := s
  · exact congrArg _ (congrArg _ (callRun_idle budget hc hn))
  · exact congrArg _ (congrArg _ (callRun_idle budget hc hn))

/-- Run on an idle core that holds a fault record only shows it. -/
theorem callRun_of_fault {s : State} (budget : Nat) {f : FaultRecord} (hc : s.ctl = .idle) (hf : s.status = some f) :
    s.callRun budget = s.lift fun _ _ m => { m with outcome := some (.faulted f) } := by
  obtain ⟨m | m⟩ := s
  · exact congrArg _ (congrArg _ (callRun_idle_faulted budget hc hf))
  · exact congrArg _ (congrArg _ (callRun_idle_faulted budget hc hf))

theorem runLoop_of_none {s : State} (budget : Nat) (hn : s.status = none) :
    s.runLoop budget = (s.startLoop budget).loop budget := by
  simp [State.runLoop, hn]

theorem runLoop_of_fault {s : State} (budget : Nat) {f : FaultRecord} (hf : s.status = some f) :
    s.runLoop budget = (s, .returned (.faulted f)) := by
  simp [State.runLoop, hf]

/-- The core at the start of the loop, in the components the loop tests. -/
theorem startLoop_fields (s : State) (budget : Nat) :
    (s.startLoop budget).constructed = s.constructed ∧ (s.startLoop budget).status = s.status ∧
    (s.startLoop budget).budget = budget := by
  obtain ⟨m | m⟩ := s
  · exact ⟨rfl, rfl, rfl⟩
  · exact ⟨rfl, rfl, rfl⟩

/-- A change of the outcome port is neither seen by construction, nor by the control state, nor visible. -/
theorem setOutcome_fields (s : State) (o : RunOutcome) :
    (s.lift fun _ _ m => { m with outcome := some o }).constructed = s.constructed ∧
    (s.lift fun _ _ m => { m with outcome := some o }).ctl = s.ctl ∧
    (s.lift fun _ _ m => { m with outcome := some o }).visible = s.visible ∧
    (s.lift fun _ _ m => { m with outcome := some o }).outcome = some o := by
  obtain ⟨m | m⟩ := s
  · exact ⟨rfl, rfl, rfl, rfl⟩
  · exact ⟨rfl, rfl, rfl, rfl⟩

end Sys2Proof.Machine

namespace Sys2Proof.Proofs

open Sys2Proof.Machine

/-- Settles O37: the state a Run comes to rest in has one of the four control states. -/
theorem runEndsWithinItsBudget : Obligations.RunEndsWithinItsBudget := by
  intro s hs hc
  obtain ⟨t, run, (idle | halted | faulted) | ⟨waits, _⟩⟩ := run_rests s.budget hs hc rfl
  · exact ⟨t, run, .inl idle⟩
  · exact ⟨t, run, .inr (.inl halted)⟩
  · exact ⟨t, run, .inr (.inr (.inl faulted))⟩
  · exact ⟨t, run, .inr (.inr (.inr waits))⟩

/-- Settles O38: without a fault record Run enters FETCH where the loop starts, with one it only shows the record. -/
theorem stateMachineRefinesTheRunLoop : Obligations.StateMachineRefinesTheRunLoop := by
  intro s budget hs hc
  cases hf : s.status with
  | none =>
    obtain ⟨constructed, status, loaded⟩ := startLoop_fields s budget
    rw [callRun_eq_enterFetch budget hc hf, runLoop_of_none budget hf]
    exact refinesLoop budget (constructed.trans hs) (status.trans hf) loaded
  | some f =>
    obtain ⟨constructed, ctl, visible, outcome⟩ := setOutcome_fields s (.faulted f)
    rw [callRun_of_fault budget hc hf, runLoop_of_fault budget hf]
    exact ⟨_, run_of_fixed (step_rests (constructed.trans hs) (.inl (ctl.trans hc))) _, visible, outcome⟩

end Sys2Proof.Proofs
end

section
/-! PROOFS. The canonical form of memory (spec/20_memory.md R45, R58), and construction and reset
(spec/70_reset_and_hazards.md R200 to R202). -/

namespace Sys2Proof.Machine

variable {w n : Nat}

/-! ## The canonical form is unique (log 4) -/

/-- Addresses rise strictly, so a listed word is the one its address reads. -/
theorem lookupCell_of_mem {cells : List (Cell w)} {c : Cell w} (sorted : cells.Pairwise fun c d => c.1 < d.1)
    (hc : c ∈ cells) : lookupCell cells c.1 = c.2 := by
  induction cells with
  | nil => cases hc
  | cons d cells ih =>
    obtain ⟨above, sorted⟩ := List.pairwise_cons.1 sorted
    rw [lookupCell_cons]
    rcases List.mem_cons.1 hc with rfl | hc
    · exact if_pos rfl
    · rw [if_neg (Nat.ne_of_lt (above c hc)), ih sorted hc]

/-- An address that does not read 0 is listed. -/
theorem mem_of_lookupCell_ne {cells : List (Cell w)} {a : Nat} (h : lookupCell cells a ≠ 0) :
    (a, lookupCell cells a) ∈ cells := by
  induction cells with
  | nil => exact absurd rfl h
  | cons c cells ih =>
    obtain ⟨b, v⟩ := c
    rw [lookupCell_cons] at h ⊢
    by_cases hb : b = a
    · subst hb; simp
    · rw [if_neg hb] at h ⊢
      exact List.mem_cons_of_mem _ (ih h)

/-- The cells of a memory in canonical form are its words that are not 0. -/
theorem mem_cells_iff {mem : Memory w} (wf : mem.wf) (c : Cell w) : c ∈ mem.cells ↔ c.2 ≠ 0 ∧ mem.read c.1 = c.2 := by
  obtain ⟨sorted, nonzero⟩ := wf
  constructor
  · exact fun hc => ⟨(nonzero c hc).1, lookupCell_of_mem sorted hc⟩
  · rintro ⟨hv, hr⟩
    have listed := mem_of_lookupCell_ne (cells := mem.cells) (a := c.1) (by rw [← hr] at hv; exact hv)
    rwa [show lookupCell mem.cells c.1 = c.2 from hr] at listed

/-- Two strictly rising lists with the same cells are the same list. -/
theorem cells_eq_of_mem_iff {a b : List (Cell w)} (ha : a.Pairwise fun c d => c.1 < d.1)
    (hb : b.Pairwise fun c d => c.1 < d.1) (h : ∀ c, c ∈ a ↔ c ∈ b) : a = b := by
  have distinct : ∀ {l : List (Cell w)}, (l.Pairwise fun c d => c.1 < d.1) → l.Nodup :=
    fun hl => List.Pairwise.imp (fun lt e => Nat.ne_of_lt lt (congrArg Prod.fst e)) hl
  have perm := (List.perm_ext_iff_of_nodup (distinct ha) (distinct hb)).2 h
  exact perm.eq_of_pairwise (fun c d _ _ lt gt => absurd lt (Nat.lt_asymm gt)) ha hb

/-! ## Construction (R202) -/

theorem constructApache8_eq (mem : Memory 8) (p : Params) :
    constructApache8 mem p = .ok ⟨.a8 (Apache.fresh 8 2 mem p)⟩ := rfl

theorem constructApache16_within {mem : Memory 16} (p : Params) (h : mem.cap ≤ 1024) :
    constructApache16 mem p = .ok ⟨.a16 (Apache.fresh 16 4 mem p)⟩ := if_pos (decide_eq_true h)

theorem constructApache16_beyond {mem : Memory 16} (p : Params) (h : 1024 < mem.cap) :
    constructApache16 mem p = .error (.parseError .construct) :=
  if_neg (fun e => Nat.not_le.2 h (of_decide_eq_true e))

theorem step_not_constructed {s : State} (h : s.constructed = false) : step s = .fault .constructionFailed := by
  simp [step, h]

/-- A fresh core holds the reset values over the memory it was given (R41). -/
theorem fresh_reset_values (mem : Memory w) (p : Params) :
    (∀ r : Fin n, (Apache.fresh w n mem p).x[r] = 0) ∧ (Apache.fresh w n mem p).pc = 0 ∧
    (Apache.fresh w n mem p).cir = 0 ∧ (Apache.fresh w n mem p).halt = false ∧
    (Apache.fresh w n mem p).status = none ∧ (Apache.fresh w n mem p).budget = 0 ∧
    (Apache.fresh w n mem p).mem = mem ∧ (Apache.fresh w n mem p).ctl = .idle :=
  ⟨fun _ => Vector.getElem_replicate _, rfl, rfl, rfl, rfl, rfl, rfl, rfl⟩

end Sys2Proof.Machine

namespace Sys2Proof.Proofs

open Sys2Proof.Machine

/-- Settles O40: equal reads list the same cells, and a strictly rising list is determined by its cells. -/
theorem canonicalMemoriesThatReadAlikeAreEqual : Obligations.CanonicalMemoriesThatReadAlikeAreEqual := by
  intro w a b ha hb hcap hread
  have cells : a.cells = b.cells := cells_eq_of_mem_iff ha.1 hb.1 fun c => by
    rw [mem_cells_iff ha, mem_cells_iff hb, hread]
  obtain ⟨capA, cellsA⟩ := a
  obtain ⟨capB, cellsB⟩ := b
  cases hcap
  cases cells
  rfl

/-- Settles O43: construction gives a fresh core. -/
theorem constructionGivesTheResetValues : Obligations.ConstructionGivesTheResetValues :=
  ⟨fun mem p => ⟨_, constructApache8_eq mem p, fresh_reset_values mem p⟩,
    fun mem p h => ⟨_, constructApache16_within p h, fresh_reset_values mem p⟩,
    fun _ cap a => ⟨Memory.create_cap cap, Memory.create_read cap a⟩⟩

/-- Settles O44: the reset core is a fresh one over the same memory, its ports aside. -/
theorem resetRestoresTheCoreAndKeepsMemory : Obligations.ResetRestoresTheCoreAndKeepsMemory := fun _ _ _ =>
  ⟨fun _ => Vector.getElem_replicate _, rfl, rfl, rfl, rfl, rfl, rfl, rfl⟩

/-- Settles O45: the capacity check of construction and of the step. -/
theorem constructionChecksTheCapacity : Obligations.ConstructionChecksTheCapacity :=
  ⟨fun _ p h => constructApache16_beyond p h, fun _ p h => ⟨_, constructApache16_within p h, rfl⟩,
    fun mem p => ⟨_, constructApache8_eq mem p, rfl⟩,
    fun _ h => step_not_constructed (decide_eq_false (Nat.not_le.2 h))⟩

end Sys2Proof.Proofs
end

section
/-! PROOFS. The numerals of the ports (spec/60_exceptions.md R180 to R183): what ParseDecimal accepts, and that the decimal
text of a number is read back as that number and has no leading zero. -/

namespace Sys2Proof.Machine

/-! ## Digits -/

/-- The characters `0` to `9`. -/
def IsDigit (c : Char) : Prop := '0'.toNat ≤ c.toNat ∧ c.toNat ≤ '9'.toNat

theorem digitValue_of_isDigit {c : Char} (h : IsDigit c) : digitValue c = some (c.toNat - '0'.toNat) := if_pos h

theorem digitValue_of_not_isDigit {c : Char} (h : ¬ IsDigit c) : digitValue c = none := if_neg h

theorem digitValue_isSome {c : Char} : (digitValue c).isSome = true ↔ IsDigit c := by
  by_cases h : IsDigit c
  · simp [digitValue_of_isDigit h, h]
  · simp [digitValue_of_not_isDigit h, h]

theorem not_isDigit_iff {c : Char} : ¬ IsDigit c ↔ c.toNat < '0'.toNat ∨ '9'.toNat < c.toNat := by
  unfold IsDigit
  omega

theorem digitValue_digitChar : ∀ d < 10, digitValue (digitChar d) = some d := by decide

theorem digitChar_ne_zero : ∀ d < 10, 0 < d → digitChar d ≠ '0' := by decide

/-! ## ParseDecimal (R180) -/

theorem decimalFrom_cons {c : Char} {d : Nat} (acc : Nat) (line : Line) (h : digitValue c = some d) :
    decimalFrom acc (c :: line) = decimalFrom (10 * acc + d) line := by
  simp [decimalFrom, h]

theorem decimalFrom_cons_none {c : Char} (acc : Nat) (line : Line) (h : digitValue c = none) :
    decimalFrom acc (c :: line) = none := by
  simp [decimalFrom, h]

theorem decimalFrom_isSome (acc : Nat) (line : Line) : (decimalFrom acc line).isSome = true ↔ ∀ c ∈ line, IsDigit c := by
  induction line generalizing acc with
  | nil => simp [decimalFrom]
  | cons c line ih =>
    by_cases h : IsDigit c
    · rw [decimalFrom_cons acc line (digitValue_of_isDigit h), ih]
      simp [h]
    · rw [decimalFrom_cons_none acc line (digitValue_of_not_isDigit h)]
      simp [h]

/-- A further digit multiplies the value by ten and adds its own. -/
theorem decimalFrom_concat {acc v d : Nat} {line : Line} {c : Char} (h : decimalFrom acc line = some v)
    (hc : digitValue c = some d) : decimalFrom acc (line ++ [c]) = some (10 * v + d) := by
  induction line generalizing acc with
  | nil =>
    cases h
    exact decimalFrom_cons _ [] hc
  | cons b line ih =>
    cases hb : digitValue b with
    | none => rw [decimalFrom_cons_none acc line hb] at h; cases h
    | some e =>
      rw [decimalFrom_cons acc line hb] at h
      rw [List.cons_append, decimalFrom_cons acc _ hb]
      exact ih h

theorem parseDecimal_of_ne_nil {line : Line} (h : line ≠ []) : parseDecimal line = decimalFrom 0 line := if_neg h

theorem parseDecimal_isSome (line : Line) : (parseDecimal line).isSome = true ↔ line ≠ [] ∧ ∀ c ∈ line, IsDigit c := by
  by_cases h : line = []
  · simp [parseDecimal, h]
  · rw [parseDecimal_of_ne_nil h, decimalFrom_isSome, and_iff_right h]

theorem parseDecimal_concat {line : Line} {v d : Nat} {c : Char} (h : parseDecimal line = some v)
    (hc : digitValue c = some d) : parseDecimal (line ++ [c]) = some (10 * v + d) := by
  obtain ⟨nonempty, _⟩ := (parseDecimal_isSome line).1 (by rw [h]; rfl)
  rw [parseDecimal_of_ne_nil nonempty] at h
  rw [parseDecimal_of_ne_nil (by simp), decimalFrom_concat h hc]

theorem parseDecimal_digit {c : Char} {d : Nat} (hc : digitValue c = some d) : parseDecimal [c] = some d := by
  rw [parseDecimal_of_ne_nil (by simp), decimalFrom_cons 0 [] hc]
  simp [decimalFrom]

/-! ## IN_MAX (D6) -/

section
variable {p : Params} {line : Line} {v : Nat} (h : parseDecimal line = some v)
include h

theorem acceptLine_unlimited (hp : p.inMax = none) : acceptLine p line = .ok v := by
  simp [acceptLine, h, hp]

theorem acceptLine_within {limit : Nat} (hp : p.inMax = some limit) (hv : v ≤ limit) : acceptLine p line = .ok v := by
  simp [acceptLine, h, hp, hv]

theorem acceptLine_beyond {limit : Nat} (hp : p.inMax = some limit) (hv : limit < v) :
    acceptLine p line = .error (.parseError .input) := by
  simp [acceptLine, h, hp, hv]

end

/-! ## The decimal text (R182) -/

theorem decimalDigits_small {fuel v : Nat} (h : v < 10) : decimalDigits fuel v = [digitChar v] := by
  cases fuel with
  | zero => rw [decimalDigits, Nat.mod_eq_of_lt h]
  | succ fuel => rw [decimalDigits, if_pos h]

theorem decimalDigits_large {fuel v : Nat} (h : 10 ≤ v) :
    decimalDigits (fuel + 1) v = decimalDigits fuel (v / 10) ++ [digitChar (v % 10)] := by
  rw [decimalDigits, if_neg (Nat.not_lt.2 h)]

theorem decimalDigits_ne_nil (fuel v : Nat) : decimalDigits fuel v ≠ [] := by
  cases fuel with
  | zero => simp [decimalDigits]
  | succ fuel => unfold decimalDigits; split <;> simp

/-- The text is read back as the number, by induction on the fuel, which is at least the number. -/
theorem parseDecimal_decimalDigits {fuel v : Nat} (h : v ≤ fuel) : parseDecimal (decimalDigits fuel v) = some v := by
  induction fuel generalizing v with
  | zero =>
    cases Nat.le_zero.1 h
    rw [decimalDigits_small (by decide)]
    exact parseDecimal_digit (digitValue_digitChar 0 (by decide))
  | succ fuel ih =>
    rcases Nat.lt_or_ge v 10 with small | large
    · rw [decimalDigits_small small]
      exact parseDecimal_digit (digitValue_digitChar v small)
    · rw [decimalDigits_large large,
        parseDecimal_concat (ih (by omega)) (digitValue_digitChar (v % 10) (Nat.mod_lt v (by decide))), Nat.div_add_mod]

/-- The text of a number above 0 does not begin with the digit 0. -/
theorem decimalDigits_head {fuel v : Nat} (h : v ≤ fuel) (positive : 0 < v) :
    (decimalDigits fuel v).head? ≠ some '0' := by
  induction fuel generalizing v with
  | zero => omega
  | succ fuel ih =>
    rcases Nat.lt_or_ge v 10 with small | large
    · rw [decimalDigits_small small]
      exact fun e => digitChar_ne_zero v small positive (Option.some.inj e)
    · rw [decimalDigits_large large, List.head?_append_of_ne_nil _ (decimalDigits_ne_nil fuel _)]
      exact ih (by omega) (by omega)

theorem sinkText_concat (events : List Event) (e : Event) : sinkText (events ++ [e]) = sinkText events ++ e.text := by
  simp [sinkText]

end Sys2Proof.Machine

namespace Sys2Proof.Proofs

open Sys2Proof.Machine

/-- Settles O55: the digits of the line one by one, then the limit. -/
theorem parseDecimalReadsDigitLines : Obligations.ParseDecimalReadsDigitLines :=
  ⟨parseDecimal_isSome, fun _ _ _ h low high => parseDecimal_concat h (digitValue_of_isDigit ⟨low, high⟩),
    fun _ low high => parseDecimal_digit (digitValue_of_isDigit ⟨low, high⟩),
    fun _ _ _ h => ⟨acceptLine_unlimited h, fun _ => acceptLine_within h, fun _ => acceptLine_beyond h⟩,
    fun _ _ => acceptLine_of_none⟩

/-- Settles O56: the decimal text with its number as fuel. -/
theorem outputTextIsDecimal : Obligations.OutputTextIsDecimal :=
  ⟨rfl, fun _ => rfl, fun v => parseDecimal_decimalDigits (Nat.le_refl v), decimalDigits_small (by decide),
    fun v => decimalDigits_head (Nat.le_refl v), sinkText_concat⟩

end Sys2Proof.Proofs
end

section
/-! PROOFS. The loader (spec/20_memory.md R59 to R64; spec/30_encoding.md R86, R87): the cutting of a text into lines, the
binary numeral a line holds, and what loading the lines does to the memory. -/

namespace Sys2Proof.Machine

variable {w : Nat}

/-! ## The lines of a text (R59) -/

theorem splitLines_newline (text : List Char) : splitLines ('\n' :: text) = [] :: splitLines text := rfl

/-- A character that is no newline goes to the first line of the rest. -/
theorem splitLines_cons {c : Char} {text : List Char} {line : Line} {lines : List Line} (hc : c ≠ '\n')
    (h : splitLines text = line :: lines) : splitLines (c :: text) = (c :: line) :: lines := by
  simp [splitLines, hc, h]

theorem splitLines_line {line : List Char} (text : List Char) (h : '\n' ∉ line) :
    splitLines (line ++ '\n' :: text) = line :: splitLines text := by
  induction line with
  | nil => exact splitLines_newline text
  | cons c line ih =>
    obtain ⟨hc, hl⟩ := not_or.1 (List.mem_cons.not.1 h)
    exact splitLines_cons (Ne.symm hc) (ih hl)

theorem splitLines_last {line : List Char} (h : '\n' ∉ line) (nonempty : line ≠ []) : splitLines line = [line] := by
  induction line with
  | nil => exact absurd rfl nonempty
  | cons c line ih =>
    obtain ⟨hc, hl⟩ := not_or.1 (List.mem_cons.not.1 h)
    cases line with
    | nil => simp [splitLines, Ne.symm hc]
    | cons d line => exact splitLines_cons (Ne.symm hc) (ih hl (by simp))

/-! ## Blank lines (R60) -/

theorem isBlank_iff (line : Line) : isBlank line = true ↔ ∀ c ∈ line, c = ' ' ∨ c = '\t' ∨ c = '\r' := by
  simp [isBlank, isBlankChar, or_assoc]

theorem isBlank_false {line : Line} (h : ∃ c ∈ line, c ≠ ' ' ∧ c ≠ '\t' ∧ c ≠ '\r') : isBlank line = false := by
  rw [Bool.eq_false_iff, Ne, isBlank_iff]
  obtain ⟨c, hc, space, tab, ret⟩ := h
  intro blank
  rcases blank c hc with e | e | e
  · exact space e
  · exact tab e
  · exact ret e

/-! ## The digits of a line (R61) -/

theorem lineDigits_cons_digit {c : Char} (line : Line) (h : IsDigit c) :
    lineDigits (c :: line) = (c.toNat - '0'.toNat) :: lineDigits line :=
  List.filterMap_cons_some (digitValue_of_isDigit h)

theorem lineDigits_cons_other {c : Char} (line : Line) (h : ¬ IsDigit c) : lineDigits (c :: line) = lineDigits line :=
  List.filterMap_cons_none (digitValue_of_not_isDigit h)

/-- The characters that are no digits do not count. -/
theorem lineDigits_filter (line : Line) : lineDigits (line.filter fun c => (digitValue c).isSome) = lineDigits line := by
  induction line with
  | nil => rfl
  | cons c line ih =>
    rw [List.filter_cons]
    by_cases h : IsDigit c
    · rw [if_pos (digitValue_isSome.2 h), lineDigits_cons_digit _ h, lineDigits_cons_digit _ h, ih]
    · rw [if_neg (digitValue_isSome.not.2 h), lineDigits_cons_other _ h, ih]

theorem isDigitRange_eq_isSome :
    (fun c : Char => decide ('0'.toNat ≤ c.toNat) && decide (c.toNat ≤ '9'.toNat)) = fun c => (digitValue c).isSome := by
  funext c
  rw [Bool.eq_iff_iff, digitValue_isSome, Bool.and_eq_true, decide_eq_true_iff, decide_eq_true_iff]
  rfl

/-- The character of a bit. -/
def bitChar (b : Bool) : Char := if b then '1' else '0'

/-- A line whose digits are bits has these digits. -/
theorem lineDigits_of_bits {line : Line} {bits : List Bool}
    (h : (line.filter fun c => (digitValue c).isSome) = bits.map bitChar) : lineDigits line = bits.map Bool.toNat := by
  rw [← lineDigits_filter, h]
  clear h
  induction bits with
  | nil => rfl
  | cons b bits ih =>
    cases b
    · exact congrArg (0 :: ·) ih
    · exact congrArg (1 :: ·) ih

theorem lineDigits_eq_nil {line : Line} (h : ∀ c ∈ line, ¬ IsDigit c) : lineDigits line = [] :=
  List.filterMap_eq_nil_iff.2 fun c hc => digitValue_of_not_isDigit (h c hc)

/-- A character `2` to `9` is a digit above 1. -/
theorem lineDigits_above_one {line : Line} (h : ∃ c ∈ line, '2'.toNat ≤ c.toNat ∧ c.toNat ≤ '9'.toNat) :
    ∃ d ∈ lineDigits line, 1 < d := by
  obtain ⟨c, hc, low, high⟩ := h
  have low : 50 ≤ c.toNat := low
  have digit : IsDigit c := ⟨show 48 ≤ c.toNat by omega, high⟩
  refine ⟨_, List.mem_filterMap.2 ⟨c, hc, digitValue_of_isDigit digit⟩, ?_⟩
  change 1 < c.toNat - 48
  omega

/-! ## The value of a binary numeral (R61, R87) -/

theorem binaryValue_concat (digits : List Nat) (d : Nat) : binaryValue (digits ++ [d]) = 2 * binaryValue digits + d := by
  simp [binaryValue]

/-- The first digit counts for the power of 2 of the number of digits after it. -/
theorem binaryValue_cons (d : Nat) (digits : List Nat) :
    binaryValue (d :: digits) = d * 2 ^ digits.length + binaryValue digits := by
  induction digits using List.reverseRecOn with
  | nil => simp [binaryValue]
  | append_singleton digits e ih =>
    rw [← List.cons_append, binaryValue_concat, binaryValue_concat, ih, List.length_append, List.length_singleton,
      Nat.pow_succ]
    ring

theorem binaryValue_leading_zeros (zeros : Nat) (digits : List Nat) :
    binaryValue (List.replicate zeros 0 ++ digits) = binaryValue digits := by
  induction zeros with
  | zero => rfl
  | succ zeros ih => rw [List.replicate_succ, List.cons_append, binaryValue_cons, Nat.zero_mul, Nat.zero_add, ih]

/-- The sum of the powers of 2 at the positions of the bits set, counted from `k`. -/
def weightedSum (bits : List Bool) (k : Nat) : Nat := ((bits.zipIdx k).map fun b => if b.1 then 2 ^ b.2 else 0).sum

theorem weightedSum_cons (b : Bool) (bits : List Bool) (k : Nat) :
    weightedSum (b :: bits) k = b.toNat * 2 ^ k + weightedSum bits (k + 1) := by
  cases b <;> simp [weightedSum]

theorem weightedSum_succ (bits : List Bool) (k : Nat) : weightedSum bits (k + 1) = 2 * weightedSum bits k := by
  induction bits generalizing k with
  | nil => rfl
  | cons b bits ih =>
    rw [weightedSum_cons, weightedSum_cons, ih (k + 1), Nat.pow_succ]
    ring

/-- The value of a string of bits is the sum `d_i * 2^i`, the last bit at `i = 0`. -/
theorem binaryValue_eq_sum (bits : List Bool) : binaryValue (bits.map Bool.toNat) = weightedSum bits.reverse 0 := by
  induction bits using List.reverseRecOn with
  | nil => rfl
  | append_singleton bits b ih =>
    rw [List.map_append, List.map_singleton, binaryValue_concat, ih, List.reverse_append, List.reverse_singleton,
      List.singleton_append, weightedSum_cons, weightedSum_succ]
    ring

/-- The low `k` bits of a word, most significant first, are the numeral of its value modulo `2^k`. -/
theorem binaryValue_low_bits (v : BitVec w) (k : Nat) :
    binaryValue (((List.range k).reverse.map v.getLsbD).map Bool.toNat) = v.toNat % 2 ^ k := by
  induction k with
  | zero => simp [binaryValue, Nat.mod_one]
  | succ k ih =>
    rw [List.range_succ, List.reverse_append, List.reverse_singleton, List.singleton_append, List.map_cons,
      List.map_cons, binaryValue_cons, ih, List.length_map, List.length_map, List.length_reverse, List.length_range,
      BitVec.getLsbD, Nat.toNat_testBit, Nat.mod_pow_succ]
    ring

/-! ## The word of a line of bits (R61, R62) -/

section
variable {line : Line} {bits : List Bool} (h : (line.filter fun c => (digitValue c).isSome) = bits.map bitChar)
include h

theorem parseWord_of_bits (nonempty : bits ≠ []) (fits : binaryValue (bits.map Bool.toNat) < 2 ^ w) :
    parseWord w line = some (BitVec.ofNat w (binaryValue (bits.map Bool.toNat))) := by
  have digits := lineDigits_of_bits h
  rw [← digits] at fits ⊢
  refine parseWord_of_value ?_ ?_ fits
  · simpa [digits] using nonempty
  · rw [digits]
    intro d hd
    obtain ⟨b, _, rfl⟩ := List.mem_map.1 hd
    exact Bool.toNat_le b

theorem parseWord_of_too_large (large : 2 ^ w ≤ binaryValue (bits.map Bool.toNat)) : parseWord w line = none :=
  parseWord_of_malformed (.inr (.inr (by rwa [lineDigits_of_bits h])))

end

/-- The numeral of a word, after any number of zeros, holds the word. -/
theorem parseWord_of_numeral {line : Line} {zeros : Nat} (v : BitVec w) (positive : 0 < w)
    (h : (line.filter fun c => (digitValue c).isSome) =
      (List.replicate zeros false ++ (List.range w).reverse.map v.getLsbD).map bitChar) : parseWord w line = some v := by
  have value : binaryValue ((List.replicate zeros false ++ (List.range w).reverse.map v.getLsbD).map Bool.toNat) =
      v.toNat := by
    rw [List.map_append, List.map_replicate, Bool.toNat_false, binaryValue_leading_zeros, binaryValue_low_bits,
      Nat.mod_eq_of_lt v.isLt]
  rw [parseWord_of_bits h (by simp; omega) (by rw [value]; exact v.isLt), value, BitVec.ofNat_toNat, BitVec.setWidth_eq]

/-! ## Loading the lines (R60 to R64) -/

section
variable {mem : Memory w} {k : Nat}

/-- A full memory reads no further line. -/
theorem loadLines_full (lines : List Line) (h : mem.cap ≤ k) : loadLines lines k mem = (mem, none) := by
  cases lines <;> simp [loadLines, h]

theorem loadLines_blank {line : Line} (lines : List Line) (hk : k < mem.cap) (h : isBlank line = true) :
    loadLines (line :: lines) k mem = loadLines lines k mem := by
  rw [loadLines, if_neg (Nat.not_le.2 hk), if_pos h]

theorem loadLines_word {line : Line} {v : BitVec w} (lines : List Line) (hk : k < mem.cap) (h : isBlank line = false)
    (hv : parseWord w line = some v) : loadLines (line :: lines) k mem = loadLines lines (k + 1) (mem.put k v) := by
  simp [loadLines, Nat.not_le.2 hk, h, hv]

theorem loadLines_malformed {line : Line} (lines : List Line) (hk : k < mem.cap) (h : isBlank line = false)
    (hv : parseWord w line = none) : loadLines (line :: lines) k mem = (mem, some (.parseError .load)) := by
  simp [loadLines, Nat.not_le.2 hk, h, hv]

theorem loadLines_blanks {before : List Line} (lines : List Line) (hk : k < mem.cap)
    (h : ∀ line ∈ before, isBlank line = true) : loadLines (before ++ lines) k mem = loadLines lines k mem := by
  induction before with
  | nil => rfl
  | cons line before ih =>
    rw [List.cons_append, loadLines_blank _ hk (h line (by simp))]
    exact ih fun l hl => h l (by simp [hl])

end

/-- Lines that hold words, up to the end of the text or of the memory: no error, and the words stand at consecutive
addresses from `k` on, by induction on the lines. -/
theorem loadLines_words {lines more : List Line} {words : List (BitVec w)} (mem : Memory w) (k : Nat)
    (blank : ∀ line ∈ lines, isBlank line = false) (parsed : lines.map (parseWord w) = words.map some)
    (ends : more = [] ∨ mem.cap ≤ k + words.length) :
    (loadLines (lines ++ more) k mem).2 = none ∧
    ∀ a, (loadLines (lines ++ more) k mem).1.read a =
      if k ≤ a ∧ a < mem.cap then (words[a - k]?).getD (mem.read a) else mem.read a := by
  induction lines generalizing mem k words with
  | nil =>
    obtain rfl : words = [] := List.map_eq_nil_iff.1 parsed.symm
    have unread : loadLines ([] ++ more) k mem = (mem, none) := by
      rcases ends with rfl | full
      · rfl
      · exact loadLines_full more full
    rw [unread]
    exact ⟨rfl, by simp⟩
  | cons line lines ih =>
    obtain _ | ⟨v, words⟩ := words
    · cases parsed
    · obtain ⟨hv, parsed⟩ := List.cons.inj parsed
      rcases Nat.lt_or_ge k mem.cap with hk | full
      · rw [List.cons_append, loadLines_word _ hk (blank line (by simp)) hv]
        obtain ⟨ok, reads⟩ := ih (mem.put k v) (k + 1) (fun l hl => blank l (by simp [hl])) parsed
          (ends.imp_right fun full => by rw [List.length_cons] at full; rw [Memory.put_cap]; omega)
        refine ⟨ok, fun a => ?_⟩
        rw [reads, Memory.put_cap]
        rcases Nat.lt_trichotomy a k with below | rfl | above
        · rw [if_neg (by omega), if_neg (by omega), Memory.put_read_ne _ _ (by omega)]
        · rw [if_neg (by omega), if_pos ⟨Nat.le_refl a, hk⟩, Memory.put_read_self, Nat.sub_self]
          rfl
        · have next : a - k = (a - (k + 1)) + 1 := by omega
          rw [Memory.put_read_ne _ _ (by omega), next, List.getElem?_cons_succ]
          exact if_congr (by omega) rfl rfl
      · rw [loadLines_full _ full]
        exact ⟨rfl, fun a => (if_neg (by omega)).symm⟩

end Sys2Proof.Machine

namespace Sys2Proof.Proofs

open Sys2Proof.Machine

/-- Settles O57: the cutting at newlines, and the load of lines that hold words from address 0. -/
theorem loaderPlacesWordsFromZero : Obligations.LoaderPlacesWordsFromZero := by
  refine ⟨⟨rfl, fun line text h => splitLines_line text h, fun line h nonempty => splitLines_last h nonempty⟩, ?_⟩
  intro w mem text lines more words split blank parsed ends
  obtain ⟨ok, reads⟩ := loadLines_words mem 0 blank parsed (ends.imp_right fun full => by rwa [Nat.zero_add])
  rw [← split] at ok reads
  refine ⟨ok, Memory.loadProgram_cap mem text, fun a => ?_⟩
  rw [Memory.loadProgram, reads]
  simp

/-- Settles O58: the blank lines are skipped, and the next line is parsed or ends the load. -/
theorem loaderStopsAtAMalformedLine : Obligations.LoaderStopsAtAMalformedLine := by
  refine ⟨isBlank_iff, ⟨rfl, fun c line low high => lineDigits_cons_digit line ⟨low, high⟩,
    fun c line other => lineDigits_cons_other line (not_isDigit_iff.2 other)⟩, ⟨rfl, binaryValue_concat⟩, ?_⟩
  intro w mem before after line k blanks hk nonblank
  rw [loadLines_blanks _ hk fun l hl => (isBlank_iff l).2 (blanks l hl)]
  exact ⟨fun malformed => loadLines_malformed after hk (isBlank_false nonblank) (parseWord_of_malformed malformed),
    fun some binary fits => loadLines_word after hk (isBlank_false nonblank) (parseWord_of_value some binary fits)⟩

/-- Settles O59: the digits of the line are the bits, whose value is the sum. -/
theorem loaderReadsBinaryNumerals : Obligations.LoaderReadsBinaryNumerals := by
  refine ⟨fun w line bits nonempty h => ?_, fun w line h => ?_, fun w line h => ?_, fun w zeros v line positive h => ?_⟩
  · rw [isDigitRange_eq_isSome] at h
    have value : _ = weightedSum bits.reverse 0 := binaryValue_eq_sum bits
    constructor
    · intro fits
      rw [parseWord_of_bits h nonempty (value.trans_lt fits), value]
      rfl
    · exact fun large => parseWord_of_too_large h (large.trans_eq value.symm)
  · exact parseWord_of_malformed (.inl (lineDigits_eq_nil fun c hc => not_isDigit_iff.2 (h c hc)))
  · exact parseWord_of_malformed (.inr (.inl (lineDigits_above_one h)))
  · refine parseWord_of_numeral (zeros := zeros) v positive (h.trans ?_)
    rw [List.map_append, List.map_replicate, List.map_map]
    rfl

end Sys2Proof.Proofs
end

section
/-! PROOFS. The boot sequence (spec/70_reset_and_hazards.md R202 to R204) and the caller's access to the memory of a
constructed core (spec/20_memory.md R51). -/

namespace Sys2Proof.Machine

variable {w n : Nat}

/-! ## The boot sequence (R204) -/

section
variable {cap : Nat} (text : List Char) (lines : List Line) (p : Params) (budget : Nat)

theorem bootApache8_eq : bootApache8 cap text lines p budget =
    State.launch text lines budget ⟨.a8 (Apache.fresh 8 2 (Memory.create 8 cap) p)⟩ := rfl

theorem bootApache16_within (h : cap ≤ 1024) : bootApache16 cap text lines p budget =
    State.launch text lines budget ⟨.a16 (Apache.fresh 16 4 (Memory.create 16 cap) p)⟩ := by
  rw [bootApache16, constructApache16_within p (by exact h)]

/-- The construction comes first, so its error is the one reported (R177, log 21). -/
theorem bootApache16_beyond (h : 1024 < cap) :
    bootApache16 cap text lines p budget = .error (.parseError .construct) := by
  rw [bootApache16, constructApache16_beyond p (by exact h)]

end

/-- Loading a fresh core gives the fresh core over the loaded memory. -/
theorem loadProgram_fresh {cap : Nat} {text : List Char} {mem : Memory w} {failure : Option FaultRecord} (p : Params)
    (h : (Memory.create w cap).loadProgram text = (mem, failure)) :
    (Apache.fresh w n (Memory.create w cap) p).loadProgram text = (Apache.fresh w n mem p, failure) := by
  rw [Apache.loadProgram_eq, Apache.fresh_mem, h]
  rfl

section
variable {cap : Nat} {text : List Char} (lines : List Line) (p : Params) (budget : Nat)

theorem bootApache8_of_load {mem : Memory 8} (h : (Memory.create 8 cap).loadProgram text = (mem, none)) :
    bootApache8 cap text lines p budget =
      .ok ((State.attachInput lines ⟨.a8 (Apache.fresh 8 2 mem p)⟩).callRun budget) := by
  rw [bootApache8_eq]
  exact launch_of_load lines budget (by rw [State.loadProgram_a8, loadProgram_fresh p h])

theorem bootApache16_of_load {mem : Memory 16} (hcap : cap ≤ 1024)
    (h : (Memory.create 16 cap).loadProgram text = (mem, none)) :
    bootApache16 cap text lines p budget =
      .ok ((State.attachInput lines ⟨.a16 (Apache.fresh 16 4 mem p)⟩).callRun budget) := by
  rw [bootApache16_within text lines p budget hcap]
  exact launch_of_load lines budget (by rw [State.loadProgram_a16, loadProgram_fresh p h])

theorem bootApache8_of_failure {f : FaultRecord} (h : ((Memory.create 8 cap).loadProgram text).2 = some f) :
    bootApache8 cap text lines p budget = .error f := by
  rw [bootApache8_eq]
  exact launch_of_failure lines budget (by
    rw [State.loadProgram_a8, loadProgram_fresh (failure := some f) p (Prod.ext rfl h)])

theorem bootApache16_of_failure {f : FaultRecord} (hcap : cap ≤ 1024)
    (h : ((Memory.create 16 cap).loadProgram text).2 = some f) : bootApache16 cap text lines p budget = .error f := by
  rw [bootApache16_within text lines p budget hcap]
  exact launch_of_failure lines budget (by
    rw [State.loadProgram_a16, loadProgram_fresh (failure := some f) p (Prod.ext rfl h)])

end

/-- Loading a new memory keeps its capacity. -/
theorem cap_of_load {cap : Nat} {text : List Char} {mem : Memory w} {failure : Option FaultRecord}
    (h : (Memory.create w cap).loadProgram text = (mem, failure)) : mem.cap = cap := by
  have same := Memory.loadProgram_cap (Memory.create w cap) text
  rwa [h] at same

/-! ## The first step fetches word 0 (R203) -/

/-- The core after the boot sequence: a fresh one with the lines attached and the Run begun. -/
def Apache.booted (w n : Nat) (mem : Memory w) (p : Params) (lines : List Line) (budget : Nat) : Apache w n :=
  { Apache.fresh w n mem p with input := lines, ctl := .fetch, budget := budget }

theorem booted_a8 (mem : Memory 8) (p : Params) (lines : List Line) (budget : Nat) :
    (State.attachInput lines ⟨.a8 (Apache.fresh 8 2 mem p)⟩).callRun budget =
      ⟨.a8 (Apache.booted 8 2 mem p lines budget)⟩ := rfl

theorem booted_a16 (mem : Memory 16) (p : Params) (lines : List Line) (budget : Nat) :
    (State.attachInput lines ⟨.a16 (Apache.fresh 16 4 mem p)⟩).callRun budget =
      ⟨.a16 (Apache.booted 16 4 mem p lines budget)⟩ := rfl

theorem first_step_a8 {mem : Memory 8} (p : Params) (lines : List Line) {budget : Nat} (hcap : 0 < mem.cap)
    (hb : 0 < budget) : ∃ t : Apache 8 2, step ⟨.a8 (.booted 8 2 mem p lines budget)⟩ = .next ⟨.a8 t⟩ ∧
      t.cir = mem.read 0 := by
  obtain ⟨t, ht⟩ := exec_next_apache8 (decode8_variant (mem.read 0)) (fetched (.booted 8 2 mem p lines budget))
  refine ⟨t.endCycle, step_cycle8 rfl rfl hb hcap ht, ?_⟩
  rw [Apache.endCycle_cir, (effect_of_exec8 ht).2.frame.cir]
  rfl

theorem first_step_a16 {mem : Memory 16} (p : Params) (lines : List Line) {budget : Nat} (limit : mem.cap ≤ 1024)
    (hcap : 0 < mem.cap) (hb : 0 < budget) :
    ∃ t : Apache 16 4, step ⟨.a16 (.booted 16 4 mem p lines budget)⟩ = .next ⟨.a16 t⟩ ∧ t.cir = mem.read 0 := by
  obtain ⟨t, ht⟩ := exec_next_apache16 (decode16_variant (mem.read 0)) (fetched (.booted 16 4 mem p lines budget))
  refine ⟨t.endCycle, step_cycle16 limit rfl rfl hb hcap ht, ?_⟩
  rw [Apache.endCycle_cir, (effect_of_exec16 ht).2.frame.cir]
  rfl

/-! ## The caller's write and building of memory (log 22, log 23) -/

theorem writeWord_a8_valid {m : Apache 8 2} {a : Nat} (v : BitVec 8) (h : a < m.mem.cap) :
    State.writeWord a v.toNat ⟨.a8 m⟩ = .ok ⟨.a8 { m with mem := m.mem.put a v }⟩ := by
  simp [State.writeWord, writeWord_valid _ h, Except.map]

theorem writeWord_a8_invalid {m : Apache 8 2} {a : Nat} (v : BitVec 8) (h : m.mem.cap ≤ a) :
    State.writeWord a v.toNat ⟨.a8 m⟩ = .error (.outOfBounds .write a) := by
  simp [State.writeWord, writeWord_invalid _ h, Except.map]

theorem writeWord_a16_valid {m : Apache 16 4} {a : Nat} (v : BitVec 16) (h : a < m.mem.cap) :
    State.writeWord a v.toNat ⟨.a16 m⟩ = .ok ⟨.a16 { m with mem := m.mem.put a v }⟩ := by
  simp [State.writeWord, writeWord_valid _ h, Except.map]

theorem writeWord_a16_invalid {m : Apache 16 4} {a : Nat} (v : BitVec 16) (h : m.mem.cap ≤ a) :
    State.writeWord a v.toNat ⟨.a16 m⟩ = .error (.outOfBounds .write a) := by
  simp [State.writeWord, writeWord_invalid _ h, Except.map]

theorem buildMemory_within {s : State} {cap : Nat} (h : withinMaxCap s.variant cap = true) :
    s.buildMemory cap = .ok (s.lift fun w _ m => { m with mem := Memory.create w cap }) := if_pos h

theorem buildMemory_beyond {s : State} {cap : Nat} (h : withinMaxCap s.variant cap = false) :
    s.buildMemory cap = .error (.parseError .construct) :=
  if_neg (Bool.eq_false_iff.1 h)

end Sys2Proof.Machine

namespace Sys2Proof.Proofs

open Sys2Proof.Machine

/-- Settles O60: the boot of each variant with its first step, the errors that end it, and the caller's access to the
memory of a constructed core. -/
theorem bootFetchesWordZeroFirst : Obligations.BootFetchesWordZeroFirst := by
  refine ⟨fun cap budget text lines p mem load => ?boot8, fun cap budget text lines p mem load limit => ?boot16,
    fun cap budget text lines p f => ?errors, fun m text cap a v => ?access8, fun m text cap a v => ?access16⟩
  case boot8 =>
    have boot := bootApache8_of_load lines p budget load
    refine ⟨⟨_, constructApache8_eq mem p, boot⟩, fun hcap hb => ?_⟩
    obtain ⟨t, h, word⟩ := first_step_a8 p lines (by rwa [cap_of_load load]) hb
    exact ⟨_, t, boot.trans (congrArg _ (booted_a8 mem p lines budget)), h, word⟩
  case boot16 =>
    have boot := bootApache16_of_load lines p budget limit load
    have limit : mem.cap ≤ 1024 := by rwa [cap_of_load load]
    refine ⟨⟨_, constructApache16_within p limit, boot⟩, fun hcap hb => ?_⟩
    obtain ⟨t, h, word⟩ := first_step_a16 p lines limit (by rwa [cap_of_load load]) hb
    exact ⟨_, t, boot.trans (congrArg _ (booted_a16 mem p lines budget)), h, word⟩
  case errors =>
    exact ⟨fun failure => bootApache8_of_failure lines p budget failure,
      fun limit failure => bootApache16_of_failure lines p budget limit failure,
      fun beyond => bootApache16_beyond text lines p budget beyond⟩
  case access8 =>
    exact ⟨rfl, buildMemory_within rfl, fun valid => ⟨_, Memory.put_storedAt m.mem a v, writeWord_a8_valid v valid⟩,
      fun invalid => writeWord_a8_invalid v invalid⟩
  case access16 =>
    exact ⟨rfl, fun within => buildMemory_within (s := ⟨.a16 m⟩) (decide_eq_true within),
      fun beyond => buildMemory_beyond (s := ⟨.a16 m⟩) (decide_eq_false (Nat.not_le.2 beyond)),
      fun valid => ⟨_, Memory.put_storedAt m.mem a v, writeWord_a16_valid v valid⟩,
      fun invalid => writeWord_a16_invalid v invalid⟩

end Sys2Proof.Proofs
end
